-- ==== Sys2Proof/Word.lean ====
section
/-! DEFINITION. The machine's words: bytes of data memory and 32-bit registers, symbols and artifact words. -/

namespace Sys2Proof

/-- A byte of data memory (spec 20_memory R80). -/
abbrev Byte := BitVec 8

/-- A register, a symbol or one word of an artifact (00_scope R12: `REG_W` = `SYM_W` = 32). -/
abbrev Word := BitVec 32

end Sys2Proof
end

