-- ==== Sys2Proof/Config.lean ====
section
/-! DEFINITION. What this hardware fixes (00_scope R12) and the free values the spec leaves open
(93_implementation_defined section 2). A free value is opaque: no proof can see what it is. -/

namespace Sys2Proof.Config

/-- ID (10_state R33). -/
def id : Word := 0x425A4243#32

/-- VERSION (10_state R34). -/
def version : Word := 0x00070001#32

/-- Reset value of MAX_OFFSET (10_state R48). -/
def maxOffsetReset : Word := 0x000000FF#32

/-- Reset value of MAX_LENGTH (10_state R49). -/
def maxLengthReset : Word := 0x000000FE#32

/-- Largest LZ77 offset or length, `2^OFF_W - 1` = `2^LEN_W - 1` (41_lz77 R243). -/
def maxField : Nat := 65535

/-- Number of seeded LZW codes (42_lzw R271). -/
def lzwSeed : Nat := 256

/-- Longest Huffman code the table format holds (30_encoding R134). -/
def hufMaxCode : Nat := 64

/-- Most bits a bitstring may have (40_huffman R213). -/
def hufMaxBits : Nat := 2 ^ 32 - 1

/-- Deflate chunk size in symbols (43_deflate R301). -/
def chunkSize : Nat := 65536

/-- Stored-versus-coded threshold factor (43_deflate R307). -/
def defFactor : Nat := 5

/-- Free value (log 5): the byte an unspecified byte of memory takes. It is applied to the counter
`State.free`, so that each byte is free on its own (93 section 2, "for each word independently"). -/
opaque freeByte : Nat → Byte

/-- Free value (log 4): the content of data-memory byte `a` at power-on (70 R501, "unspecified"). -/
opaque powerOnByte : Nat → Byte

/-- Free value (log 3): how many host actions come between a command's accept and its completion
(93 section 2, "any value, finite"), applied to the counter `State.free`. -/
opaque completionDelay : Nat → Nat

end Sys2Proof.Config
end

