-- ==== Sys2Proof/Syntax.lean ====
section
/-! DEFINITION. The eight commands: the rows of spec/opcode_table.json. A command word has no operand fields
(30_encoding R120), so no constructor carries any. -/

namespace Sys2Proof

/-- The codec a command word selects (30_encoding R121). -/
inductive Codec where
  | lz77 | lzw | huffman | deflate
  deriving DecidableEq, Repr

/-- The half of the codec's encode/decode pair (30_encoding R122). -/
inductive Direction where
  | enc | dec
  deriving DecidableEq, Repr

/-- The commands of 30_encoding R123. -/
inductive Instr where
  | lz77Enc | lz77Dec | lzwEnc | lzwDec | hufEnc | hufDec | defEnc | defDec
  deriving DecidableEq, Repr

/-- Why a command word is illegal (30_encoding R126). -/
inductive IllegalWord where
  | badSelector
  | reservedBits
  deriving DecidableEq, Repr

end Sys2Proof
end

