-- ==== Sys2Proof/WellFormed.lean ====
section
/-! DEFINITION. When a command word is well formed (30_encoding R120). A command carries no operand, so all the
checks are on the word's fields: the selector names a codec, and every reserved bit is 0. -/

namespace Sys2Proof

/-- Bits [7:4] select a codec: 0 to 3 (30_encoding R121). -/
def selectorNamed (v : Word) : Bool := decide (v.toNat / 16 % 16 < 4)

/-- Bits [3:1] are 0 (30_encoding R120). -/
def lowReservedZero (v : Word) : Bool := decide (v.toNat / 2 % 8 = 0)

/-- Bits [31:8] are 0 (30_encoding R120). -/
def highReservedZero (v : Word) : Bool := decide (v.toNat / 256 = 0)

/-- The word is one of the eight of 30_encoding R123. -/
def wordWellFormed (v : Word) : Bool := selectorNamed v && lowReservedZero v && highReservedZero v

end Sys2Proof
end

