-- ==== Sys2Proof/Decode.lean ====
section
/-! DEFINITION. Command decode (30_encoding R124), total on all 2^32 words, and the encoder written from the
same fields (30_encoding R120 to R123). -/

namespace Sys2Proof

/-- SEL, bits [7:4] (30_encoding R125). -/
def selField (v : Word) : BitVec 4 := v.extractLsb' 4 4

/-- DIR, bit 0 (30_encoding R125). -/
def dirField (v : Word) : BitVec 1 := v.extractLsb' 0 1

/-- Bits [31:8], reserved (30_encoding R120). -/
def reservedHigh (v : Word) : BitVec 24 := v.extractLsb' 8 24

/-- Bits [3:1], reserved (30_encoding R120). -/
def reservedLow (v : Word) : BitVec 3 := v.extractLsb' 1 3

/-- The codec of a SEL value; 4 to 15 select none (30_encoding R121). -/
def codecOfSel (sel : BitVec 4) : Option Codec :=
  if sel = 0 then some .lz77
  else if sel = 1 then some .lzw
  else if sel = 2 then some .huffman
  else if sel = 3 then some .deflate
  else none

/-- DIR 0 encodes, 1 decodes (30_encoding R120). -/
def directionOfDir (dir : BitVec 1) : Direction := if dir = 0 then .enc else .dec

/-- `OPS[SEL][DIR]`, the opcode map (30_encoding R123). -/
def opOf : Codec → Direction → Instr
  | .lz77, .enc => .lz77Enc
  | .lz77, .dec => .lz77Dec
  | .lzw, .enc => .lzwEnc
  | .lzw, .dec => .lzwDec
  | .huffman, .enc => .hufEnc
  | .huffman, .dec => .hufDec
  | .deflate, .enc => .defEnc
  | .deflate, .dec => .defDec

/-- `DecodeCmd` (30_encoding R124): the selector is checked before the reserved bits. -/
def decode (v : Word) : Except IllegalWord Instr :=
  match codecOfSel (selField v) with
  | none => .error .badSelector
  | some c =>
    if reservedHigh v ≠ 0 ∨ reservedLow v ≠ 0 then .error .reservedBits
    else .ok (opOf c (directionOfDir (dirField v)))

/-- The SEL value of a codec (30_encoding R121). -/
def selOf : Codec → BitVec 4
  | .lz77 => 0
  | .lzw => 1
  | .huffman => 2
  | .deflate => 3

/-- The DIR value of a direction (30_encoding R120). -/
def dirOf : Direction → BitVec 1
  | .enc => 0
  | .dec => 1

/-- The codec a command runs (30_encoding R123). -/
def codecOf : Instr → Codec
  | .lz77Enc | .lz77Dec => .lz77
  | .lzwEnc | .lzwDec => .lzw
  | .hufEnc | .hufDec => .huffman
  | .defEnc | .defDec => .deflate

/-- Whether a command encodes or decodes (30_encoding R123). -/
def directionOf : Instr → Direction
  | .lz77Enc | .lzwEnc | .hufEnc | .defEnc => .enc
  | .lz77Dec | .lzwDec | .hufDec | .defDec => .dec

/-- The command word of a command: format CMD with every reserved bit 0 (30_encoding R120). -/
def encode (i : Instr) : Word :=
  (((0 : BitVec 24) ++ selOf (codecOf i)) ++ (0 : BitVec 3)) ++ dirOf (directionOf i)

/-- The decoder on a row of spec/opcode_table.json. A command is a register value, so it has no byte order
(20_memory R85). Bits above `nbits` are 0. -/
def decodeTableWord (nbits w : Nat) : Option Instr :=
  (decode (BitVec.ofNat 32 (w % 2 ^ nbits))).toOption

end Sys2Proof
end

