-- ==== Sys2Proof/Machine/State.lean ====
section
/-! DEFINITION. Everything the spec gives the machine, as plain data (10_state R30, R64), the reasons a step can stop,
and the state after reset. -/

namespace Sys2Proof.Machine

/-- Data memory (20_memory R80): the bytes written since power-on, as (address, byte) pairs. Its one canonical form is
`Memory.wf` of Machine/Ops.lean. -/
abbrev Memory := List Host.Cell

/-- The configuration snapshot `cfg` taken at command accept (10_state R55). -/
structure Snapshot where
  cmd : Word
  srcAddr : Word
  srcLen : Word
  dstAddr : Word
  dstCap : Word
  maxOffset : Word
  maxLength : Word
  deriving DecidableEq, Repr

/-- The command sequencer (10_state R54). STATUS.BUSY is 1 exactly in `busy`, which holds `cfg` (R64, "some iff busy"). -/
inductive Sequencer where
  | idle
  | busy (cfg : Snapshot)
  deriving DecidableEq, Repr

/-- The error codes of 60_exceptions R402, by name. -/
inductive ErrName where
  | cfgBadSelector | cfgReservedBits | cfgBadMaxOffset | cfgBadMaxLength | cfgSrcAlign | cfgDstAlign
  | cfgSrcRange | cfgDstRange | cfgOverlap | cfgDstOverflow
  | encLzwSymbolRange | encLzwDictFull | encHufCodeTooLong | encHufNbitsOverflow
  | decTruncated | decTrailing | decHufTableInvalid | decHufNoMatch | decLz77Offset | decLzwBadCode
  | decLzwDictFull | decDefBadTag | decDefZipMismatch | decDefFieldRange
  | busError
  deriving DecidableEq, Repr

/-- A raised error: its name and its position (00_scope R20). -/
structure OpError where
  name : ErrName
  pos : Nat
  deriving DecidableEq, Repr

/-- A run of backed data-memory bytes. -/
structure Region where
  base : Nat
  size : Nat
  deriving DecidableEq, Repr

/-- The platform's parameters, which no step changes (00_scope R12, the rows marked OPEN). -/
structure Params where
  /-- `BZB_BASE`: host address of the register block. -/
  bzbBase : Nat
  /-- `BACKED`, as the regions of data memory that the platform backs. -/
  backed : List Region
  /-- `LZW_DICT_CAP`: most entries of the LZW dictionary, seeds included; at least 257. -/
  lzwDictCap : Nat
  deriving DecidableEq, Repr

/-- One action of the host or the platform. The register and memory actions are the operations of 30_encoding R145,
`waitIrq` is the other way to wait in 70_reset_and_hazards R506, and the RST actions are the platform's (R500). -/
inductive HostOp where
  /-- A read of `bytes` bytes at host address `addr`. -/
  | regRead (addr bytes : Nat)
  /-- A write of `bytes` bytes at host address `addr`. -/
  | regWrite (addr bytes : Nat) (value : Word)
  /-- `POLL STATUS, mask`: read STATUS until `value & mask` is not 0. -/
  | poll (mask : Word)
  /-- Wait until IRQ is 1. -/
  | waitIrq
  /-- The host, or another agent, stores a word in data memory. An address is a number that does not wrap (00_scope R16). -/
  | memStore (addr : Nat) (value : Word)
  /-- The host loads a word from data memory. -/
  | memLoad (addr : Nat)
  /-- The platform asserts RST. -/
  | rstAssert
  /-- The platform releases RST. -/
  | rstRelease
  deriving DecidableEq, Repr

/-- Why the machine stops. -/
inductive Fault where
  /-- A host load or store touches a data-memory byte at or above 2^32, which does not exist (20_memory R80). Raised by
  `hostLoad` and `hostStore`. Safe: the model stops. -/
  | noSuchAddress
  deriving DecidableEq, Repr

/-- What the model has no step for. -/
inductive Refusal where
  /-- A command with no meaning yet. No arm of `exec` answers it. Safe. -/
  | notModelled (mnemonic : String)
  /-- A host register access that is not an aligned 32-bit access (20_memory R87, "a model refuses such an access").
  Raised by the register accesses of Machine/HostActions.lean. Safe: the model stops. -/
  | badRegisterAccess
  /-- A host register access outside the 256 bytes of the register block (20_memory R82): not this block. Safe. -/
  | outsideRegisterBlock
  /-- A write to the SRC or DST range of a command whose buffers the host has not taken back
  (70_reset_and_hazards R511, "A model refuses such a write"). Raised by `hostStore`. Safe: the model stops. -/
  | bufferInUse
  /-- A host access to data memory the platform does not back (93 section 3, "the platform decides"). Raised by
  `hostLoad` and `hostStore`. Safe: the model stops. -/
  | unbackedHostAccess
  deriving DecidableEq, Repr

/-- The machine (10_state R64), the platform around it, and the model's own fields. -/
structure State where
  /-- CTRL.IE_DONE (10_state R35). -/
  ieDone : Bool
  /-- CTRL.IE_ERR (10_state R35). -/
  ieErr : Bool
  /-- STATUS.DONE (10_state R37). -/
  done : Bool
  /-- STATUS.ERR (10_state R37). -/
  err : Bool
  /-- STATUS.REJ (10_state R37). -/
  rej : Bool
  /-- The CMD readback (10_state R40). -/
  cmdReadback : Word
  /-- ERRCODE.KIND (10_state R41). -/
  errKind : BitVec 4
  /-- ERRCODE.CODE (10_state R41). -/
  errCode : BitVec 8
  /-- ERRPOS (10_state R42). -/
  errPos : Word
  /-- DST_LEN (10_state R43). -/
  dstLen : Word
  /-- SRC_ADDR (10_state R44). -/
  srcAddr : Word
  /-- SRC_LEN (10_state R45). -/
  srcLen : Word
  /-- DST_ADDR (10_state R46). -/
  dstAddr : Word
  /-- DST_CAP (10_state R47). -/
  dstCap : Word
  /-- MAX_OFFSET (10_state R48). -/
  maxOffset : Word
  /-- MAX_LENGTH (10_state R49). -/
  maxLength : Word
  /-- The sequencer with STATUS.BUSY and `cfg` (10_state R54). -/
  seq : Sequencer
  /-- Platform: RST is asserted (70_reset_and_hazards R500). -/
  rst : Bool
  /-- Platform: data memory (20_memory R80). -/
  mem : Memory
  /-- Platform: its parameters. -/
  params : Params
  /-- The model's own: host and platform actions still to come, oldest first (log 2). -/
  host : List HostOp
  /-- The model's own: the word the last host read returned (log 2). -/
  hostData : Word
  /-- The model's own: accepted commands whose buffers the host has not taken back (20_memory R93; log 6). -/
  handedOver : List Snapshot
  /-- The model's own: host actions that come before the completion of each coming command, where the caller says (log 3). -/
  delays : List Nat
  /-- The model's own: host actions still to come before the running command's completion (log 3). -/
  delay : Nat
  /-- The model's own: how many free values have been drawn (log 5). -/
  free : Nat
  deriving DecidableEq, Repr

/-- The platform of the spec's own programs (95_test_vectors section 7): every word backed, the reference value of
LZW_DICT_CAP (00_scope R12), and BZB_BASE 0. DESIGN CHOICE (log 10): the spec leaves the three OPEN. -/
def Params.reference : Params :=
  { bzbBase := 0, backed := [⟨0, 2 ^ 32⟩], lzwDictCap := 2 ^ 30 + 256 }

/-- The machine right after a hard reset (70_reset_and_hazards R500, 10_state R32, R63). -/
def State.reset : State :=
  { ieDone := false, ieErr := false, done := false, err := false, rej := false
    cmdReadback := 0, errKind := 0, errCode := 0, errPos := 0, dstLen := 0
    srcAddr := 0, srcLen := 0, dstAddr := 0, dstCap := 0
    maxOffset := Config.maxOffsetReset, maxLength := Config.maxLengthReset
    seq := .idle, rst := false, mem := [], params := .reference
    host := [], hostData := 0, handedOver := [], delays := [], delay := 0, free := 0 }

end Sys2Proof.Machine
end

