-- ==== Sys2Proof/Machine/Flags.lean ====
section
/-! DEFINITION. STATUS, the interrupt line and ERRCODE (10_state R37, R38, R41, R53; 60_exceptions R401, R402). -/

namespace Sys2Proof.Machine

/-- STATUS.BUSY: the sequencer is not idle (10_state R54). -/
def State.busy (s : State) : Bool :=
  match s.seq with
  | .idle => false
  | .busy _ => true

/-- STATUS as read: BUSY, DONE, ERR, REJ in bits 0 to 3, the rest 0 (10_state R37). -/
def State.statusWord (s : State) : Word :=
  (0 : BitVec 28) ++ BitVec.ofBool s.rej ++ BitVec.ofBool s.err ++ BitVec.ofBool s.done ++ BitVec.ofBool s.busy

/-- A host write of `v` to STATUS: bits 1, 2 and 3 are write-1-to-clear, the others ignore the write (10_state R38). -/
def State.writeStatus (v : Word) (s : State) : State :=
  { s with done := s.done && !v.getLsbD 1, err := s.err && !v.getLsbD 2, rej := s.rej && !v.getLsbD 3 }

/-- CTRL as read: IE_DONE, IE_ERR in bits 0 and 1; SRST and the reserved bits read 0 (10_state R35). -/
def State.ctrlWord (s : State) : Word :=
  (0 : BitVec 30) ++ BitVec.ofBool s.ieErr ++ BitVec.ofBool s.ieDone

/-- The interrupt output, a level (10_state R53). -/
def State.irq (s : State) : Bool := (s.done && s.ieDone) || (s.err && s.ieErr)

/-- The KIND of an error (60_exceptions R401, R402). -/
def ErrName.kind : ErrName → BitVec 4
  | .cfgBadSelector | .cfgReservedBits | .cfgBadMaxOffset | .cfgBadMaxLength | .cfgSrcAlign | .cfgDstAlign
  | .cfgSrcRange | .cfgDstRange | .cfgOverlap | .cfgDstOverflow => 1
  | .encLzwSymbolRange | .encLzwDictFull | .encHufCodeTooLong | .encHufNbitsOverflow => 2
  | .decTruncated | .decTrailing | .decHufTableInvalid | .decHufNoMatch | .decLz77Offset | .decLzwBadCode
  | .decLzwDictFull | .decDefBadTag | .decDefZipMismatch | .decDefFieldRange => 3
  | .busError => 4

/-- The CODE of an error (60_exceptions R402). -/
def ErrName.code : ErrName → BitVec 8
  | .cfgBadSelector => 0x01
  | .cfgReservedBits => 0x02
  | .cfgBadMaxOffset => 0x03
  | .cfgBadMaxLength => 0x04
  | .cfgSrcAlign => 0x05
  | .cfgDstAlign => 0x06
  | .cfgSrcRange => 0x07
  | .cfgDstRange => 0x08
  | .cfgOverlap => 0x09
  | .cfgDstOverflow => 0x0A
  | .encLzwSymbolRange => 0x01
  | .encLzwDictFull => 0x02
  | .encHufCodeTooLong => 0x03
  | .encHufNbitsOverflow => 0x04
  | .decTruncated => 0x01
  | .decTrailing => 0x02
  | .decHufTableInvalid => 0x03
  | .decHufNoMatch => 0x04
  | .decLz77Offset => 0x05
  | .decLzwBadCode => 0x06
  | .decLzwDictFull => 0x07
  | .decDefBadTag => 0x08
  | .decDefZipMismatch => 0x09
  | .decDefFieldRange => 0x0A
  | .busError => 0x01

/-- ERRCODE as read: CODE in bits [7:0], KIND in bits [11:8], the rest 0 (10_state R41). -/
def State.errcodeWord (s : State) : Word := (0 : BitVec 20) ++ s.errKind ++ s.errCode

/-- The configuration error an illegal command word completes with (60_exceptions R404, R405). -/
def illegalWordError : IllegalWord → OpError
  | .badSelector => ⟨.cfgBadSelector, 0⟩
  | .reservedBits => ⟨.cfgReservedBits, 0⟩

end Sys2Proof.Machine
end

