-- ==== Sys2Proof/Machine/Operands.lean ====
section
/-! DEFINITION. How artifacts are laid out in words (30_encoding R129 to R138): byte order, codewords, code-table
entries, bitstrings. -/

namespace Sys2Proof.Machine

/-- The least `q` with `q * b ≥ a` (00_scope R16). -/
def ceilDiv (a b : Nat) : Nat := (a + b - 1) / b

/-- The bytes of a word, least significant first (20_memory R83). -/
def wordBytes (w : Word) : List Byte :=
  [w.extractLsb' 0 8, w.extractLsb' 8 8, w.extractLsb' 16 8, w.extractLsb' 24 8]

/-- The word whose bytes, least significant first, are `b0` to `b3` (20_memory R83). -/
def wordOfBytes (b0 b1 b2 b3 : Byte) : Word := b3 ++ b2 ++ b1 ++ b0

/-- An LZ77 codeword (41_lz77 R241). -/
structure Codeword where
  offset : Nat
  length : Nat
  literal : Word
  deriving DecidableEq, Repr

/-- The two words of a codeword (30_encoding R130). -/
def Codeword.words (c : Codeword) : List Word :=
  [BitVec.ofNat 32 (c.offset + 2 ^ 16 * c.length), c.literal]

/-- A codeword from its two words: offset in bits [15:0], length in bits [31:16] (30_encoding R130). -/
def Codeword.ofWords (w0 w1 : Word) : Codeword :=
  { offset := w0.toNat % 2 ^ 16, length := w0.toNat / 2 ^ 16, literal := w1 }

/-- The codewords of a codeword list (30_encoding R131); a last odd word is no codeword. -/
def codewordsOf : List Word → List Codeword
  | w0 :: w1 :: rest => Codeword.ofWords w0 w1 :: codewordsOf rest
  | _ => []

/-- The number a bit pattern holds, its first bit bit 0 (30_encoding R135). -/
def bitsToNat : List Bool → Nat
  | [] => 0
  | b :: bs => b.toNat + 2 * bitsToNat bs

/-- The `n` low bits of a number, bit 0 first (30_encoding R135, R136). -/
def natBits (n v : Nat) : List Bool := (List.range n).map v.testBit

/-- The words that hold a bitstring: bit `k` is bit `k mod 32` of word `k / 32`, padding bits 0 (30_encoding R136,
R137). `fuel` is the number of words. -/
def packWords : (fuel : Nat) → List Bool → List Word
  | 0, _ => []
  | n + 1, bs => BitVec.ofNat 32 (bitsToNat (bs.take 32)) :: packWords n (bs.drop 32)

/-- The bitstring's words (30_encoding R136). -/
def packBits (bs : List Bool) : List Word := packWords (ceilDiv bs.length 32) bs

/-- All bits of the words of a bitstring, padding included (30_encoding R136). -/
def unpackBits (ws : List Word) : List Bool := ws.flatMap fun w => natBits 32 w.toNat

/-- `HufLen(NBITS, NENT)` (30_encoding R138). -/
def hufLen (nbits nent : Nat) : Nat := 2 + 4 * nent + ceilDiv nbits 32

/-- A code table: each symbol with its code's bit pattern, nearest the root first (30_encoding R135). -/
abbrev CodeTable := List (Word × List Bool)

/-- The four words of a table entry (30_encoding R134). -/
def entryWords (e : Word × List Bool) : List Word :=
  [e.1, BitVec.ofNat 32 e.2.length, BitVec.ofNat 32 (bitsToNat e.2), BitVec.ofNat 32 (bitsToNat e.2 / 2 ^ 32)]

/-- A table entry as its words give it, before any check (30_encoding R134). -/
structure RawEntry where
  symbol : Word
  len : Nat
  code : Nat
  deriving DecidableEq, Repr

/-- The first `n` table entries of a word list (30_encoding R134). -/
def rawEntries : (n : Nat) → List Word → List RawEntry
  | n + 1, w0 :: w1 :: w2 :: w3 :: rest =>
    { symbol := w0, len := w1.toNat, code := w2.toNat + 2 ^ 32 * w3.toNat } :: rawEntries n rest
  | _, _ => []

/-- The code's bit pattern (30_encoding R135). -/
def RawEntry.bits (e : RawEntry) : List Bool := natBits e.len e.code

end Sys2Proof.Machine
end

