-- ==== Sys2Proof/Machine/Ops.lean ====
section
/-! DEFINITION. The shared operations: data memory, the register block, command accept, the checks of a command, the
completion step, error entry, and reset. -/

namespace Sys2Proof.Machine

/-! ### Data memory (20_memory) -/

/-- The canonical form of data memory: addresses strictly rising and inside the 2^32 bytes (20_memory R80). An unlisted
byte has not been written since power-on and has no value of its own, so no entry can equal it (log 4). -/
abbrev Memory.wf (m : Memory) : Prop :=
  m.Pairwise (fun c d => c.1 < d.1) ∧ ∀ c ∈ m, c.1 < 2 ^ 32

/-- One byte of data memory. A byte nothing has written since power-on reads as a free value
(70_reset_and_hazards R501; log 4). -/
def Memory.read (m : Memory) (a : Nat) : Byte :=
  match m.find? (fun c => c.1 == a) with
  | some c => c.2
  | none => Config.powerOnByte a

/-- Bytes as cells at rising addresses. -/
def cellsAt : Nat → List Byte → Memory
  | _, [] => []
  | a, b :: bs => (a, b) :: cellsAt (a + 1) bs

/-- Store `bs` at `a`, `a + 1`, and so on. -/
def Memory.write (m : Memory) (a : Nat) (bs : List Byte) : Memory :=
  m.filter (fun c => decide (c.1 < a)) ++ cellsAt a bs ++ m.filter (fun c => decide (a + bs.length ≤ c.1))

/-- `MemRead(a, 4)`, little-endian (00_scope R19, 20_memory R83). -/
def Memory.readWord (m : Memory) (a : Nat) : Word :=
  wordOfBytes (m.read a) (m.read (a + 1)) (m.read (a + 2)) (m.read (a + 3))

/-- `[Word(base, i) for i in 0 .. n-1]` (00_scope R19). -/
def Memory.words (m : Memory) (base n : Nat) : List Word :=
  (List.range n).map fun i => m.readWord (base + 4 * i)

/-- `MemWrite(base + 4*i, 4, ws[i])` for every `i` (00_scope R19, 10_state R56). -/
def Memory.writeWords (m : Memory) (base : Nat) (ws : List Word) : Memory :=
  m.write base (ws.flatMap wordBytes)

/-- The region holds byte address `a`. -/
def Region.holds (a : Nat) (r : Region) : Bool := decide (r.base ≤ a) && decide (a < r.base + r.size)

/-- `BACKED(a)` (20_memory R81). -/
def Params.backs (p : Params) (a : Nat) : Bool := p.backed.any (Region.holds a)

/-- The first unbacked byte address from `a` up to `stop`, moving over a whole region at a time. `fuel` is at least
`stop - a`. -/
def firstUnbackedFrom (rs : List Region) : (fuel a stop : Nat) → Option Nat
  | 0, _, _ => none
  | fuel + 1, a, stop =>
    if a < stop then
      match rs.find? (Region.holds a) with
      | none => some a
      | some r => firstUnbackedFrom rs fuel (r.base + r.size) stop
    else none

/-- The first unbacked byte address of `[a, a + n)`, in ascending order (60_exceptions R414). -/
def Params.firstUnbacked (p : Params) (a n : Nat) : Option Nat := firstUnbackedFrom p.backed n a (a + n)

/-! ### Buffers (00_scope R27) -/

/-- Byte address `a` is in the SRC range. -/
def Snapshot.inSrc (c : Snapshot) (a : Nat) : Bool :=
  decide (c.srcAddr.toNat ≤ a) && decide (a < c.srcAddr.toNat + 4 * c.srcLen.toNat)

/-- Byte address `a` is in the DST range. -/
def Snapshot.inDst (c : Snapshot) (a : Nat) : Bool :=
  decide (c.dstAddr.toNat ≤ a) && decide (a < c.dstAddr.toNat + 4 * c.dstCap.toNat)

/-- How many bytes of the DST range exist: a range that passes the top of the address space is cut there (log 12). -/
def Snapshot.dstBytes (c : Snapshot) : Nat := min (4 * c.dstCap.toNat) (2 ^ 32 - c.dstAddr.toNat)

/-- A byte of DST that takes a value the spec does not state; a byte that is also in SRC keeps its value
(70_reset_and_hazards R502, "The abandoned command's SRC range is unchanged"; log 12). -/
def scrambledByte (s : State) (c : Snapshot) (k : Nat) : Byte :=
  if c.inSrc (c.dstAddr.toNat + k) then s.mem.read (c.dstAddr.toNat + k) else Config.freeByte (s.free + k)

/-- Every word of the DST range takes an unspecified value (20_memory R90): one free byte for each byte (log 5). -/
def State.scrambleDst (c : Snapshot) (s : State) : State :=
  { s with
    mem := s.mem.write c.dstAddr.toNat ((List.range c.dstBytes).map (scrambledByte s c))
    free := s.free + c.dstBytes }

/-! ### Reset (70_reset_and_hazards) -/

/-- Every register takes its reset value, the sequencer enters IDLE, and `cfg` is discarded (70_reset_and_hazards R500,
10_state R63). Data memory, the platform and the host's coming actions stay; handed-over buffers come back to the host
(R511, "or a reset"). -/
def State.resetRegisters (s : State) : State :=
  { s with
    ieDone := false, ieErr := false, done := false, err := false, rej := false
    cmdReadback := 0, errKind := 0, errCode := 0, errPos := 0, dstLen := 0
    srcAddr := 0, srcLen := 0, dstAddr := 0, dstCap := 0
    maxOffset := Config.maxOffsetReset, maxLength := Config.maxLengthReset
    seq := .idle, handedOver := [], delay := 0 }

/-- A hard or soft reset of the block. The DST range of a running command becomes unspecified (70_reset_and_hazards R500,
R502, R503). -/
def State.blockReset (s : State) : State :=
  match s.seq with
  | .idle => s.resetRegisters
  | .busy c => (s.scrambleDst c).resetRegisters

/-! ### Command accept (10_state R55, R57) -/

/-- `cfg` as accept samples it (10_state R55). -/
def State.sample (v : Word) (s : State) : Snapshot :=
  { cmd := v, srcAddr := s.srcAddr, srcLen := s.srcLen, dstAddr := s.dstAddr, dstCap := s.dstCap
    maxOffset := s.maxOffset, maxLength := s.maxLength }

/-- How many host actions come before the completion of the command now accepted: the caller's choice if it made one,
otherwise a free value (93 section 2; log 3). -/
def State.nextDelay (s : State) : Nat :=
  match s.delays with
  | d :: _ => d
  | [] => Config.completionDelay s.free

/-- Command accept (10_state R55): REJ is kept. The command's buffers pass to the engine (20_memory R93). -/
def State.accept (v : Word) (s : State) : State :=
  { s with
    seq := .busy (s.sample v), cmdReadback := v
    done := false, err := false
    errKind := 0, errCode := 0, errPos := 0, dstLen := 0
    handedOver := s.sample v :: s.handedOver
    delay := s.nextDelay, delays := s.delays.tail, free := s.free + 1 }

/-- A host write of `v` to CMD: accepted when idle (10_state R39, R55), rejected when busy (R57). -/
def State.writeCmd (v : Word) (s : State) : State :=
  match s.seq with
  | .idle => s.accept v
  | .busy _ => { s with rej := true }

/-! ### The register block (10_state R32) -/

/-- The sixteen registers. -/
inductive Reg where
  | id | version | ctrl | status | cmd | errcode | errpos | dstLen
  | srcAddr | srcLen | dstAddr | dstCap | maxOffset | maxLength | chunkSize | lzwDictCap
  deriving DecidableEq, Repr

/-- A register's offset (10_state R32). -/
def Reg.offset : Reg → Nat
  | .id => 0x00
  | .version => 0x04
  | .ctrl => 0x08
  | .status => 0x0C
  | .cmd => 0x10
  | .errcode => 0x14
  | .errpos => 0x18
  | .dstLen => 0x1C
  | .srcAddr => 0x20
  | .srcLen => 0x24
  | .dstAddr => 0x28
  | .dstCap => 0x2C
  | .maxOffset => 0x30
  | .maxLength => 0x34
  | .chunkSize => 0x38
  | .lzwDictCap => 0x3C

/-- The registers in offset order. -/
def Reg.all : List Reg :=
  [.id, .version, .ctrl, .status, .cmd, .errcode, .errpos, .dstLen,
    .srcAddr, .srcLen, .dstAddr, .dstCap, .maxOffset, .maxLength, .chunkSize, .lzwDictCap]

/-- The register at an offset; the offsets 0x40 to 0xFC are reserved and hold none (10_state R52). -/
def regAt (offset : Nat) : Option Reg := Reg.all.find? fun r => r.offset == offset

/-- LZW_DICT_CAP as a register value, saturated (10_state R51). -/
def Params.lzwDictCapWord (p : Params) : Word := BitVec.ofNat 32 (min p.lzwDictCap (2 ^ 32 - 1))

/-- What a register reads as (10_state R33 to R51). -/
def State.readReg (r : Reg) (s : State) : Word :=
  match r with
  | .id => Config.id
  | .version => Config.version
  | .ctrl => s.ctrlWord
  | .status => s.statusWord
  | .cmd => s.cmdReadback
  | .errcode => s.errcodeWord
  | .errpos => s.errPos
  | .dstLen => s.dstLen
  | .srcAddr => s.srcAddr
  | .srcLen => s.srcLen
  | .dstAddr => s.dstAddr
  | .dstCap => s.dstCap
  | .maxOffset => s.maxOffset
  | .maxLength => s.maxLength
  | .chunkSize => BitVec.ofNat 32 Config.chunkSize
  | .lzwDictCap => s.params.lzwDictCapWord

/-- A host write of `v` to CTRL: bit 31 resets the block and the write's other bits are discarded, otherwise bits [1:0]
are stored (10_state R35). -/
def State.writeCtrl (v : Word) (s : State) : State :=
  if v.getLsbD 31 then s.blockReset
  else { s with ieDone := v.getLsbD 0, ieErr := v.getLsbD 1 }

/-- What a host write of `v` to a register does; a read-only register ignores it (10_state R35 to R52). -/
def State.writeReg (r : Reg) (v : Word) (s : State) : State :=
  match r with
  | .ctrl => s.writeCtrl v
  | .status => s.writeStatus v
  | .cmd => s.writeCmd v
  | .srcAddr => { s with srcAddr := v }
  | .srcLen => { s with srcLen := v }
  | .dstAddr => { s with dstAddr := v }
  | .dstCap => { s with dstCap := v }
  | .maxOffset => { s with maxOffset := v }
  | .maxLength => { s with maxLength := v }
  | .id | .version | .errcode | .errpos | .dstLen | .chunkSize | .lzwDictCap => s

/-! ### Completion (10_state R56, 60_exceptions R420, R422) -/

/-- Error entry, in place of a trap (60_exceptions R422): ERRCODE, ERRPOS, DST_LEN, STATUS.ERR and BUSY, and nothing
else. -/
def State.errorEntry (e : OpError) (s : State) : State :=
  { s with errKind := e.name.kind, errCode := e.name.code, errPos := BitVec.ofNat 32 e.pos
           dstLen := 0, err := true, seq := .idle }

/-- A successful completion (10_state R56): the output words, DST_LEN, STATUS.DONE and BUSY. -/
def State.succeed (c : Snapshot) (out : List Word) (s : State) : State :=
  { s with mem := s.mem.writeWords c.dstAddr.toNat out, dstLen := BitVec.ofNat 32 out.length
           done := true, seq := .idle }

/-- The configuration checks after command decode, in their order (60_exceptions R406 to R410, R420). `bounded`: the
command is LZ77_ENC or DEF_ENC. -/
def configCheck (bounded : Bool) (c : Snapshot) : Option ErrName :=
  let src := c.srcAddr.toNat
  let srcEnd := src + 4 * c.srcLen.toNat
  let dst := c.dstAddr.toNat
  let dstEnd := dst + 4 * c.dstCap.toNat
  if bounded ∧ (c.maxOffset.toNat < 1 ∨ Config.maxField < c.maxOffset.toNat) then some .cfgBadMaxOffset
  else if bounded ∧ (c.maxLength.toNat < 1 ∨ Config.maxField < c.maxLength.toNat) then some .cfgBadMaxLength
  else if src % 4 ≠ 0 then some .cfgSrcAlign
  else if dst % 4 ≠ 0 then some .cfgDstAlign
  else if 2 ^ 32 < srcEnd then some .cfgSrcRange
  else if 2 ^ 32 < dstEnd then some .cfgDstRange
  else if 0 < c.srcLen.toNat ∧ 0 < c.dstCap.toNat ∧ src < dstEnd ∧ dst < srcEnd then some .cfgOverlap
  else none

/-- The BUS_ERROR check: every SRC byte, then every DST byte (60_exceptions R414). -/
def busCheck (p : Params) (c : Snapshot) : Option Nat :=
  match p.firstUnbacked c.srcAddr.toNat (4 * c.srcLen.toNat) with
  | some a => some a
  | none => p.firstUnbacked c.dstAddr.toNat (4 * c.dstCap.toNat)

/-- The checks that come before any data-memory access (60_exceptions R420). -/
def preCheck (bounded : Bool) (p : Params) (c : Snapshot) : Option OpError :=
  match configCheck bounded c with
  | some e => some ⟨e, 0⟩
  | none => (busCheck p c).map fun a => ⟨.busError, a⟩

/-- A command's operation: from the snapshot and the input words to output words or an error (00_scope R22). -/
abbrev Operation := Snapshot → List Word → Except OpError (List Word)

/-- The input artifact of a command (30_encoding R128). -/
def State.input (c : Snapshot) (s : State) : List Word := s.mem.words c.srcAddr.toNat c.srcLen.toNat

/-- The completion step of the command whose snapshot is `c` (10_state R56 with `Execute`, 60_exceptions R420). An error
of the pre-checks leaves memory alone; an error of the operation, or an output longer than DST_CAP (R411), leaves the DST
range unspecified. -/
def State.complete (bounded : Bool) (op : Operation) (c : Snapshot) (s : State) : State :=
  match preCheck bounded s.params c with
  | some e => s.errorEntry e
  | none =>
    match op c (s.input c) with
    | .error e => (s.scrambleDst c).errorEntry e
    | .ok out =>
      if c.dstCap.toNat < out.length then (s.scrambleDst c).errorEntry ⟨.cfgDstOverflow, 0⟩
      else s.succeed c out

/-- Run command `i`: the completion of the running command, or, when none is running, accept of `i`'s word and then its
completion (10_state R55, R56; log 11). -/
def runCommand (i : Instr) (bounded : Bool) (op : Operation) (s : State) : Host.Outcome State Fault Refusal :=
  match s.seq with
  | .busy c => .next (s.complete bounded op c)
  | .idle => .next ((s.accept (encode i)).complete bounded op (s.sample (encode i)))

end Sys2Proof.Machine
end

