-- ==== Sys2Proof/Machine/Huffman.lean ====
section
/-! DEFINITION. HUF_ENC and HUF_DEC (spec 40_huffman). -/

namespace Sys2Proof.Machine

/-! ### Tree builder -/

/-- Count one more occurrence of `x`; a new symbol goes to the end (40_huffman R201). -/
def countSymbol (x : Word) : List (Word × Nat) → List (Word × Nat)
  | [] => [(x, 1)]
  | (y, n) :: t => if y = x then (y, n + 1) :: t else (y, n) :: countSymbol x t

/-- `FreqCount(s)`: the distinct symbols in first-seen order, each with its number of occurrences (40_huffman R201). -/
def freqCount (s : List Word) : List (Word × Nat) := s.foldl (fun t x => countSymbol x t) []

/-- A Huffman tree (40_huffman R206). The arena and its indices are one layout of it, which 10_state R62 leaves free
(log 18). -/
inductive Tree where
  | leaf (symbol : Word)
  | branch (left right : Tree)
  deriving DecidableEq, Repr

/-- A queue entry: its key `(freq, idx)` (40_huffman R202) and its node. -/
structure QEntry where
  freq : Nat
  idx : Nat
  tree : Tree
  deriving DecidableEq, Repr

/-- The key order, lexicographic (40_huffman R202). -/
def QEntry.before (a b : QEntry) : Bool := decide (a.freq < b.freq) || (decide (a.freq = b.freq) && decide (a.idx < b.idx))

/-- Insert into a queue kept in key order, so that `PopMin` takes the head (40_huffman R202). -/
def queueInsert (e : QEntry) : List QEntry → List QEntry
  | [] => [e]
  | f :: q => if e.before f then e :: f :: q else f :: queueInsert e q

/-- One leaf per distinct symbol, insertion indices from `i` in first-seen order (40_huffman R203). -/
def seedQueue : (i : Nat) → List (Word × Nat) → List QEntry
  | _, [] => []
  | i, (x, n) :: t => queueInsert ⟨n, i, .leaf x⟩ (seedQueue (i + 1) t)

/-- Combine the two least entries until one is left; the first popped is the left child (40_huffman R204, R205). `fuel` is
at least the number of entries. -/
def combine : (fuel next : Nat) → List QEntry → Option Tree
  | _, _, [] => none
  | _, _, [e] => some e.tree
  | 0, _, _ => none
  | fuel + 1, next, a :: b :: q =>
    combine fuel (next + 1) (queueInsert ⟨a.freq + b.freq, next, .branch a.tree b.tree⟩ q)

/-- `BuildTree` (40_huffman R206); no tree for the empty input (R207). -/
def buildTree (t : List (Word × Nat)) : Option Tree := combine t.length t.length (seedQueue 0 t)

/-! ### Code table -/

/-- Every leaf with its path from the node, 0 for left and 1 for right (40_huffman R208). -/
def Tree.paths : Tree → CodeTable
  | .leaf x => [(x, [])]
  | .branch a b =>
    a.paths.map (fun p => (p.1, false :: p.2)) ++ b.paths.map (fun p => (p.1, true :: p.2))

/-- `CodeTable`: the code of each leaf; a single leaf gets "0" (40_huffman R208, R209). -/
def codeTable : Option Tree → CodeTable
  | none => []
  | some (.leaf x) => [(x, [false])]
  | some (.branch a b) => (Tree.branch a b).paths

/-- The code of a symbol. -/
def codeOf (table : CodeTable) (x : Word) : List Bool := (table.lookup x).getD []

/-- The code table of an input, in first-seen order (40_huffman R208, R210). -/
def tableOf (s : List Word) : CodeTable :=
  let t := freqCount s
  let codes := codeTable (buildTree t)
  t.map fun p => (p.1, codeOf codes p.1)

/-! ### Encoder -/

/-- The codes of the symbols from index `i` on, after `n` bits (40_huffman R213). -/
def encodeBits (table : CodeTable) : (i n : Nat) → List Word → Except OpError (List Bool)
  | _, _, [] => .ok []
  | i, n, x :: rest =>
    let c := codeOf table x
    if Config.hufMaxBits < n + c.length then .error ⟨.encHufNbitsOverflow, i⟩
    else
      match encodeBits table (i + 1) (n + c.length) rest with
      | .error e => .error e
      | .ok bits => .ok (c ++ bits)

/-- A Huffman artifact (30_encoding R133). -/
def hufArtifact (table : CodeTable) (bits : List Bool) : List Word :=
  BitVec.ofNat 32 bits.length :: BitVec.ofNat 32 table.length :: (table.flatMap entryWords ++ packBits bits)

/-- `HufEncode(s)` (40_huffman R213); a code longer than 64 bits is ENC_HUF_CODE_TOO_LONG (R212). The empty input gives
the artifact of no bits and no entries (R207). -/
def hufEncode (s : List Word) : Except OpError (List Word) :=
  let table := tableOf s
  match table.findIdx? (fun e => decide (Config.hufMaxCode < e.2.length)) with
  | some e => .error ⟨.encHufCodeTooLong, e⟩
  | none =>
    match encodeBits table 0 0 s with
    | .error e => .error e
    | .ok bits => .ok (hufArtifact table bits)

/-! ### Decoder -/

/-- An entry is out of range, or names a symbol or a code that clashes with an earlier entry (40_huffman R217). -/
def badEntry (earlier : List RawEntry) (e : RawEntry) : Bool :=
  decide (e.len < 1) || decide (Config.hufMaxCode < e.len) || decide (2 ^ e.len ≤ e.code) ||
    earlier.any fun f =>
      decide (f.symbol = e.symbol) || decide (f.code % 2 ^ min f.len e.len = e.code % 2 ^ min f.len e.len)

/-- The index of the first entry that fails validation (40_huffman R217). `earlier` is the entries before. -/
def firstBadEntry : (earlier : List RawEntry) → List RawEntry → Option Nat
  | _, [] => none
  | earlier, e :: rest => if badEntry earlier e then some earlier.length else firstBadEntry (earlier ++ [e]) rest

/-- The decode loop (40_huffman R218) from bit `p`; `skip` bits belong to the code matched last. -/
def decodeBits (table : List RawEntry) : (p skip : Nat) → List Bool → Except OpError (List Word)
  | _, _, [] => .ok []
  | p, skip + 1, _ :: bits => decodeBits table (p + 1) skip bits
  | p, 0, b :: bits =>
    match table.find? (fun e => e.bits.isPrefixOf (b :: bits)) with
    | none => .error ⟨.decHufNoMatch, p⟩
    | some e =>
      match decodeBits table (p + 1) (e.len - 1) bits with
      | .error err => .error err
      | .ok out => .ok (e.symbol :: out)

/-- `HufDecode(w)`: shape (40_huffman R216), table (R217), then the bits (R218). -/
def hufDecode (w : List Word) : Except OpError (List Word) :=
  match w with
  | nb :: ne :: body =>
    let nbits := nb.toNat
    let nent := ne.toNat
    let need := hufLen nbits nent
    if w.length < need then .error ⟨.decTruncated, w.length⟩
    else if need < w.length then .error ⟨.decTrailing, need⟩
    else
      let table := rawEntries nent body
      match firstBadEntry [] table with
      | some e => .error ⟨.decHufTableInvalid, e⟩
      | none => decodeBits table 0 0 ((unpackBits (body.drop (4 * nent))).take nbits)
  | _ => .error ⟨.decTruncated, w.length⟩

/-- The operation of HUF_ENC (40_huffman R215). -/
def hufEncOp (_c : Snapshot) (w : List Word) : Except OpError (List Word) := hufEncode w

/-- The operation of HUF_DEC (40_huffman R219). -/
def hufDecOp (_c : Snapshot) (w : List Word) : Except OpError (List Word) := hufDecode w

/-- HUF_ENC (40_huffman R215). -/
def execHufEnc (s : State) : Host.Outcome State Fault Refusal := runCommand .hufEnc false hufEncOp s

/-- HUF_DEC (40_huffman R219). -/
def execHufDec (s : State) : Host.Outcome State Fault Refusal := runCommand .hufDec false hufDecOp s

end Sys2Proof.Machine
end

