-- ==== Sys2Proof/Machine/Lz77.lean ====
section
/-! DEFINITION. LZ77_ENC and LZ77_DEC (spec 41_lz77). -/

namespace Sys2Proof.Machine

/-- The largest `m ≤ ml` such that `u` and `v` agree on their first `m` symbols (41_lz77 R244). -/
def commonPrefix : (ml : Nat) → List Word → List Word → Nat
  | ml + 1, x :: u, y :: v => if x = y then commonPrefix ml u v + 1 else 0
  | _, _, _ => 0

/-- The match search (41_lz77 R245, R248). `window` is the symbols before the cursor, nearest first; `cand` is the input
from distance `d - 1` before the cursor on, `rest` the input from the cursor on; the best length and distance so far are
`best` and `bd`. Distances rise, and only a strictly longer match replaces the best one. -/
def bestMatch (ml : Nat) (rest : List Word) : (window : List Word) → (d : Nat) → (cand : List Word) →
    (best bd : Nat) → Nat × Nat
  | [], _, _, best, bd => (best, bd)
  | x :: window, d, cand, best, bd =>
    let m := commonPrefix ml (x :: cand) rest
    if best < m then bestMatch ml rest window (d + 1) (x :: cand) m d
    else bestMatch ml rest window (d + 1) (x :: cand) best bd

/-- The best length and distance at a cursor: `before` is the input before it, newest first (41_lz77 R245). -/
def findMatch (mo ml : Nat) (before rest : List Word) : Nat × Nat :=
  bestMatch ml rest (before.take mo) 1 rest 0 0

/-- The encoder's loop (41_lz77 R248). `skip` symbols of `rest` belong to the last match; `before` is the input before
`rest`, newest first. -/
def lz77EncodeFrom (mo ml : Nat) : (skip : Nat) → (before rest : List Word) → List Codeword
  | _, _, [] => []
  | skip + 1, before, x :: rest => lz77EncodeFrom mo ml skip (x :: before) rest
  | 0, before, x :: rest =>
    match findMatch mo ml before (x :: rest) with
    | (0, _) => ⟨0, 1, x⟩ :: lz77EncodeFrom mo ml 0 (x :: before) rest
    | (best + 1, bd) =>
      ⟨bd, best + 1, (rest.drop best).headD 0⟩ :: lz77EncodeFrom mo ml best (x :: before) rest

/-- `Lz77Encode(s, mo, ml)` (41_lz77 R248). -/
def lz77Encode (s : List Word) (mo ml : Nat) : List Codeword := lz77EncodeFrom mo ml 0 [] s

/-- `length` copies of a symbol, put in front of the output, newest first (41_lz77 R252). -/
def lz77Literal : (length : Nat) → (literal : Word) → (out : List Word) → List Word
  | 0, _, out => out
  | t + 1, l, out => lz77Literal t l (l :: out)

/-- `length` symbols from `offset` back, one at a time (41_lz77 R253). `out` is newest first. -/
def lz77Copy : (length : Nat) → (offset : Nat) → (out : List Word) → List Word
  | 0, _, out => out
  | t + 1, o, out => lz77Copy t o (out.getD (o - 1) 0 :: out)

/-- The decoder's loop from codeword `j` (41_lz77 R254). `out` is newest first. -/
def lz77DecodeFrom : (j : Nat) → (out : List Word) → List Codeword → Except OpError (List Word)
  | _, out, [] => .ok out.reverse
  | j, out, c :: cw =>
    if c.offset = 0 then lz77DecodeFrom (j + 1) (lz77Literal c.length c.literal out) cw
    else if out.length < c.offset then .error ⟨.decLz77Offset, j⟩
    else lz77DecodeFrom (j + 1) (lz77Copy c.length c.offset out) cw

/-- `Lz77Decode(cw)` (41_lz77 R254). -/
def lz77Decode (cw : List Codeword) : Except OpError (List Word) := lz77DecodeFrom 0 [] cw

/-- The operation of LZ77_ENC (41_lz77 R249). -/
def lz77EncOp (c : Snapshot) (w : List Word) : Except OpError (List Word) :=
  .ok ((lz77Encode w c.maxOffset.toNat c.maxLength.toNat).flatMap Codeword.words)

/-- The operation of LZ77_DEC: an odd word count is DEC_TRUNCATED (41_lz77 R251, R255). -/
def lz77DecOp (_c : Snapshot) (w : List Word) : Except OpError (List Word) :=
  if w.length % 2 = 1 then .error ⟨.decTruncated, w.length⟩ else lz77Decode (codewordsOf w)

/-- LZ77_ENC (41_lz77 R249). -/
def execLz77Enc (s : State) : Host.Outcome State Fault Refusal := runCommand .lz77Enc true lz77EncOp s

/-- LZ77_DEC (41_lz77 R255). -/
def execLz77Dec (s : State) : Host.Outcome State Fault Refusal := runCommand .lz77Dec false lz77DecOp s

end Sys2Proof.Machine
end

