-- ==== Sys2Proof/Machine/Deflate.lean ====
section
/-! DEFINITION. DEF_ENC and DEF_DEC (spec 43_deflate), over the Huffman and LZ77 functions. -/

namespace Sys2Proof.Machine

/-- An error raised inside chunk `q` is re-raised with position `q` (43_deflate R315). -/
def atChunk {α : Type} (q : Nat) : Except OpError α → Except OpError α
  | .error e => .error ⟨e.name, q⟩
  | .ok a => .ok a

/-! ### Encoder -/

/-- The first `n` chunks of `size` symbols (43_deflate R301). -/
def chunksOf (size : Nat) : (n : Nat) → List Word → List (List Word)
  | 0, _ => []
  | n + 1, s => s.take size :: chunksOf size n (s.drop size)

/-- The `lengths` array of a chunk (43_deflate R304). -/
def lengthsOf (cw : List Codeword) : List Word := cw.map fun c => BitVec.ofNat 32 c.length

/-- The `literals_and_distances` array of a chunk: offset before literal (43_deflate R304). -/
def litsOf (cw : List Codeword) : List Word := cw.flatMap fun c => [BitVec.ofNat 32 c.offset, c.literal]

/-- `HufCost` of a Huffman artifact, in bits (43_deflate R306). -/
def hufCost (a : List Word) : Nat := 64 + 128 * (a.getD 1 0).toNat + (a.getD 0 0).toNat

/-- The record of a Stored chunk (30_encoding R140). -/
def storedRecord (ch : List Word) : List Word := 0 :: BitVec.ofNat 32 ch.length :: ch

/-- The muxer: Stored when the coded cost is at least `5 * m` (43_deflate R307). -/
def muxRecord (ch a b : List Word) : List Word :=
  if Config.defFactor * ch.length ≤ hufCost a + hufCost b then storedRecord ch else 1 :: (a ++ b)

/-- The record of one chunk (43_deflate R303 to R307). -/
def chunkRecord (mo ml : Nat) (ch : List Word) : Except OpError (List Word) :=
  let cw := lz77Encode ch mo ml
  match hufEncode (lengthsOf cw) with
  | .error e => .error e
  | .ok a =>
    match hufEncode (litsOf cw) with
    | .error e => .error e
    | .ok b => .ok (muxRecord ch a b)

/-- The records of the chunks from `q` on (43_deflate R308). -/
def encodeChunks (mo ml : Nat) : (q : Nat) → List (List Word) → Except OpError (List Word)
  | _, [] => .ok []
  | q, ch :: rest =>
    match atChunk q (chunkRecord mo ml ch) with
    | .error e => .error e
    | .ok r =>
      match encodeChunks mo ml (q + 1) rest with
      | .error e => .error e
      | .ok out => .ok (r ++ out)

/-- The chunks of an input (43_deflate R301). -/
def inputChunks (s : List Word) : List (List Word) :=
  chunksOf Config.chunkSize (ceilDiv s.length Config.chunkSize) s

/-- `DefEncode(s, mo, ml)` (43_deflate R308). -/
def defEncode (s : List Word) (mo ml : Nat) : Except OpError (List Word) :=
  match encodeChunks mo ml 0 (inputChunks s) with
  | .error e => .error e
  | .ok out => .ok (BitVec.ofNat 32 (inputChunks s).length :: out)

/-! ### Decoder -/

/-- The Huffman artifact at the front of a word list, if all its words are there (43_deflate R310). -/
def frontArtifact (w : List Word) : Option (List Word) :=
  match w with
  | nb :: ne :: _ =>
    if hufLen nb.toNat ne.toNat ≤ w.length then some (w.take (hufLen nb.toNat ne.toNat)) else none
  | _ => none

/-- An offset or length fits its field: 0 to 65535, signed (43_deflate R312). -/
def fitsField (x : Word) : Bool := decide (0 ≤ x.toInt) && decide (x.toInt ≤ Config.maxField)

/-- The re-zipped (offset, length, literal) triples (43_deflate R312). -/
def rezip : (lengths lits : List Word) → List (Word × Word × Word)
  | l :: ls, o :: x :: ms => (o, l, x) :: rezip ls ms
  | _, _ => []

/-- The output of a Coded chunk from its two artifacts (43_deflate R312). -/
def codedChunk (a b : List Word) : Except OpError (List Word) :=
  match hufDecode a with
  | .error e => .error e
  | .ok ls =>
    match hufDecode b with
    | .error e => .error e
    | .ok ms =>
      if ms.length ≠ 2 * ls.length then .error ⟨.decDefZipMismatch, 0⟩
      else if (rezip ls ms).all (fun t => fitsField t.1 && fitsField t.2.1) then
        lz77Decode ((rezip ls ms).map fun t => ⟨t.1.toNat, t.2.1.toNat, t.2.2⟩)
      else .error ⟨.decDefFieldRange, 0⟩

/-- One record after its TAG word: its output and how many words it takes (43_deflate R310 to R312). -/
def decodeRecord (tag : Word) (body : List Word) : Except OpError (List Word × Nat) :=
  if tag = 0 then
    match body with
    | [] => .error ⟨.decTruncated, 0⟩
    | n :: syms =>
      if syms.length < n.toNat then .error ⟨.decTruncated, 0⟩
      else .ok (syms.take n.toNat, 1 + n.toNat)
  else if tag = 1 then
    match frontArtifact body with
    | none => .error ⟨.decTruncated, 0⟩
    | some a =>
      match frontArtifact (body.drop a.length) with
      | none => .error ⟨.decTruncated, 0⟩
      | some b =>
        match codedChunk a b with
        | .error e => .error e
        | .ok out => .ok (out, a.length + b.length)
  else .error ⟨.decDefBadTag, 0⟩

/-- The last `n` records, the first of them record `q` at word `p` (43_deflate R313). -/
def decodeRecords : (n q p : Nat) → List Word → Except OpError (List Word)
  | 0, _, _, [] => .ok []
  | 0, _, p, _ :: _ => .error ⟨.decTrailing, p⟩
  | _ + 1, q, _, [] => .error ⟨.decTruncated, q⟩
  | n + 1, q, p, tag :: body =>
    match atChunk q (decodeRecord tag body) with
    | .error e => .error e
    | .ok (out, used) =>
      match decodeRecords n (q + 1) (p + 1 + used) (body.drop used) with
      | .error e => .error e
      | .ok rest => .ok (out ++ rest)

/-- `DefDecode(w)` (43_deflate R313). -/
def defDecode (w : List Word) : Except OpError (List Word) :=
  match w with
  | [] => .error ⟨.decTruncated, 0⟩
  | nch :: body => decodeRecords nch.toNat 0 1 body

/-- The operation of DEF_ENC (43_deflate R309). -/
def defEncOp (c : Snapshot) (w : List Word) : Except OpError (List Word) :=
  defEncode w c.maxOffset.toNat c.maxLength.toNat

/-- The operation of DEF_DEC (43_deflate R314). -/
def defDecOp (_c : Snapshot) (w : List Word) : Except OpError (List Word) := defDecode w

/-- DEF_ENC (43_deflate R309). -/
def execDefEnc (s : State) : Host.Outcome State Fault Refusal := runCommand .defEnc true defEncOp s

/-- DEF_DEC (43_deflate R314). -/
def execDefDec (s : State) : Host.Outcome State Fault Refusal := runCommand .defDec false defDecOp s

end Sys2Proof.Machine
end

