-- ==== Sys2Proof/Machine/Lzw.lean ====
section
/-! DEFINITION. LZW_ENC and LZW_DEC (spec 42_lzw). -/

namespace Sys2Proof.Machine

/-- A symbol LZW_ENC does not accept: outside [0, 256), signed (42_lzw R272). -/
def lzwOutOfRange (x : Word) : Bool := decide (x.toInt < 0) || decide (255 < x.toInt)

/-- The encoder's dictionary after the seeds: the code of each (previous code, next symbol) pair (42_lzw R273). -/
abbrev LzwDict := List ((Nat × Word) × Nat)

/-- The encoder's loop from symbol `i`: `w` is the code of the current word, which is not empty (42_lzw R275). The code
of a new entry is the current size, 256 seeds included (R271). -/
def lzwEncodeFrom (cap : Nat) : (i size : Nat) → (d : LzwDict) → (w : Nat) → List Word → Except OpError (List Word)
  | _, _, _, w, [] => .ok [BitVec.ofNat 32 w]
  | i, size, d, w, x :: rest =>
    match d.lookup (w, x) with
    | some k => lzwEncodeFrom cap (i + 1) size d k rest
    | none =>
      if cap ≤ size then .error ⟨.encLzwDictFull, i⟩
      else
        match lzwEncodeFrom cap (i + 1) (size + 1) (((w, x), size) :: d) x.toNat rest with
        | .error e => .error e
        | .ok out => .ok (BitVec.ofNat 32 w :: out)

/-- `LzwEncode(s)` (42_lzw R275): the range of every symbol is checked first (R272). -/
def lzwEncode (cap : Nat) (s : List Word) : Except OpError (List Word) :=
  match s.findIdx? lzwOutOfRange with
  | some i => .error ⟨.encLzwSymbolRange, i⟩
  | none =>
    match s with
    | [] => .ok []
    | x :: rest => lzwEncodeFrom cap 1 Config.lzwSeed [] x.toNat rest

/-- `Str(k)`: the string of a code (42_lzw R273); `d` holds the strings of the codes from 256 on. -/
def lzwStr (d : List (List Word)) (k : Nat) : List Word :=
  if k < Config.lzwSeed then [BitVec.ofNat 32 k] else d.getD (k - Config.lzwSeed) []

/-- The word of code `k` after the word `w`: known, or not yet defined and synthesised from `w` (42_lzw R278). -/
def lzwWord (d : List (List Word)) (w : List Word) (k : Nat) : List Word :=
  if k < Config.lzwSeed + d.length then lzwStr d k else w ++ [w.headD 0]

/-- The decoder's loop from code `i`: `w` is the previous word (42_lzw R278, R279). -/
def lzwDecodeFrom (cap : Nat) : (i : Nat) → (d : List (List Word)) → (w : List Word) → List Word →
    Except OpError (List Word)
  | _, _, _, [] => .ok []
  | i, d, w, k :: rest =>
    let size := Config.lzwSeed + d.length
    if size < k.toNat then .error ⟨.decLzwBadCode, i⟩
    else
      let e := lzwWord d w k.toNat
      if cap ≤ size then .error ⟨.decLzwDictFull, i⟩
      else
        match lzwDecodeFrom cap (i + 1) (d ++ [w ++ [e.headD 0]]) e rest with
        | .error err => .error err
        | .ok out => .ok (e ++ out)

/-- `LzwDecode(c)` (42_lzw R279): the first code is a seed (R277). -/
def lzwDecode (cap : Nat) (c : List Word) : Except OpError (List Word) :=
  match c with
  | [] => .ok []
  | k :: rest =>
    if Config.lzwSeed ≤ k.toNat then .error ⟨.decLzwBadCode, 0⟩
    else
      match lzwDecodeFrom cap 1 [] (lzwStr [] k.toNat) rest with
      | .error err => .error err
      | .ok out => .ok (lzwStr [] k.toNat ++ out)

/-- The operation of LZW_ENC (42_lzw R276). -/
def lzwEncOp (cap : Nat) (_c : Snapshot) (w : List Word) : Except OpError (List Word) := lzwEncode cap w

/-- The operation of LZW_DEC (42_lzw R281). -/
def lzwDecOp (cap : Nat) (_c : Snapshot) (w : List Word) : Except OpError (List Word) := lzwDecode cap w

/-- LZW_ENC (42_lzw R276). -/
def execLzwEnc (s : State) : Host.Outcome State Fault Refusal :=
  runCommand .lzwEnc false (lzwEncOp s.params.lzwDictCap) s

/-- LZW_DEC (42_lzw R281). -/
def execLzwDec (s : State) : Host.Outcome State Fault Refusal :=
  runCommand .lzwDec false (lzwDecOp s.params.lzwDictCap) s

end Sys2Proof.Machine
end

