-- ==== Sys2Proof/Machine/Dispatch.lean ====
section
/-! DEFINITION. The meaning of each command of 30_encoding R123. -/

namespace Sys2Proof.Machine

/-- Run a command (10_state R56). -/
def exec (i : Instr) (s : State) : Host.Outcome State Fault Refusal :=
  match i with
  | .lz77Enc => Sys2Proof.Machine.execLz77Enc s
  | .lz77Dec => Sys2Proof.Machine.execLz77Dec s
  | .lzwEnc => Sys2Proof.Machine.execLzwEnc s
  | .lzwDec => Sys2Proof.Machine.execLzwDec s
  | .hufEnc => Sys2Proof.Machine.execHufEnc s
  | .hufDec => Sys2Proof.Machine.execHufDec s
  | .defEnc => Sys2Proof.Machine.execDefEnc s
  | .defDec => Sys2Proof.Machine.execDefDec s

end Sys2Proof.Machine
end

