-- ==== Sys2Proof/Machine/HostActions.lean ====
section
/-! DEFINITION. What the host and the platform do (30_encoding R127, R145, R146; 70_reset_and_hazards R500, R506, R511).
Each action is one step (60_exceptions R425). -/

namespace Sys2Proof.Machine

/-! ### Register accesses -/

/-- The register offset of a host access, or why it has no defined outcome (20_memory R82, R87). -/
def registerOffset (p : Params) (addr bytes : Nat) : Except Refusal Nat :=
  if addr < p.bzbBase ∨ p.bzbBase + 256 ≤ addr then .error .outsideRegisterBlock
  else if bytes ≠ 4 ∨ (addr - p.bzbBase) % 4 ≠ 0 then .error .badRegisterAccess
  else .ok (addr - p.bzbBase)

/-- The registers as a host sees them: at their reset values while RST is asserted (70_reset_and_hazards R500). -/
def State.visible (s : State) : State := if s.rst then s.resetRegisters else s

/-- What the word at an offset reads as; a reserved offset reads 0 (10_state R52). -/
def State.readOffset (offset : Nat) (s : State) : Word :=
  match regAt offset with
  | some r => s.visible.readReg r
  | none => 0

/-- A read of STATUS that returns BUSY = 0 gives the buffers back to the host (20_memory R93 (b), 70_reset_and_hazards
R511; log 6). No read changes the block (20_memory R89). -/
def State.acquire (s : State) : State :=
  if s.visible.busy then s else { s with handedOver := [] }

/-- A host read of the word at an offset: the value goes to the host. -/
def State.hostRead (offset : Nat) (s : State) : State :=
  let s' := { s with hostData := s.readOffset offset }
  if offset = Reg.status.offset then s'.acquire else s'

/-- A host write of the word at an offset: ignored at a reserved offset (10_state R52) and while RST is asserted
(70_reset_and_hazards R500). -/
def State.hostWrite (offset : Nat) (v : Word) (s : State) : State :=
  if s.rst then s
  else
    match regAt offset with
    | some r => s.writeReg r v
    | none => s

/-! ### Data-memory accesses -/

/-- The four byte addresses of a word exist and are backed. -/
def wordBacked (p : Params) (a : Nat) : Bool := (List.range 4).all fun k => p.backs (a + k)

/-- Byte `a` is in the DST range of a command whose buffers the host has not taken back, so that a host load of it returns
an unspecified value (20_memory R93 (c), 70_reset_and_hazards R511). DESIGN CHOICE (log 23) where R511 says both this and
'unchanged content': a byte that is also in that same command's SRC range does not count and keeps its content; a byte
that is in another such command's SRC range counts. -/
def State.dstOpen (a : Nat) (s : State) : Bool := s.handedOver.any fun c => c.inDst a && !c.inSrc a

/-- Byte `a` is in a SRC or DST range of a command whose buffers the host has not taken back (70_reset_and_hazards R511). -/
def State.bufferOpen (a : Nat) (s : State) : Bool := s.handedOver.any fun c => c.inDst a || c.inSrc a

/-- Byte `a + k` as a host load returns it: unspecified in an open DST range (20_memory R93 (c), 70_reset_and_hazards R511;
log 6). -/
def loadedByte (s : State) (a k : Nat) : Byte :=
  if s.dstOpen (a + k) then Config.freeByte (s.free + k) else s.mem.read (a + k)

/-- The host loads the word of data memory at byte address `a` (log 16). -/
def hostLoad (a : Nat) (s : State) : Host.Outcome State Fault Refusal :=
  if 2 ^ 32 < a + 4 then .fault .noSuchAddress
  else if !wordBacked s.params a then .refused .unbackedHostAccess
  else
    .next { s with
      hostData := wordOfBytes (loadedByte s a 0) (loadedByte s a 1) (loadedByte s a 2) (loadedByte s a 3)
      free := s.free + 4 }

/-- The host, or another agent, stores a word of data memory at byte address `a` (30_encoding R145; log 16); into an open
buffer it has no defined outcome (70_reset_and_hazards R511). -/
def hostStore (a : Nat) (v : Word) (s : State) : Host.Outcome State Fault Refusal :=
  if 2 ^ 32 < a + 4 then .fault .noSuchAddress
  else if !wordBacked s.params a then .refused .unbackedHostAccess
  else if (List.range 4).any fun k => s.bufferOpen (a + k) then .refused .bufferInUse
  else .next { s with mem := s.mem.write a (wordBytes v) }

/-! ### Host steps -/

/-- One action of the host or the platform; an unsatisfied POLL or wait stays at the front of what is still to come
(30_encoding R145, 70_reset_and_hazards R506). -/
def hostAction (op : HostOp) (s : State) : Host.Outcome State Fault Refusal :=
  match op with
  | .regRead addr bytes =>
    match registerOffset s.params addr bytes with
    | .error r => .refused r
    | .ok offset => .next (s.hostRead offset)
  | .regWrite addr bytes v =>
    match registerOffset s.params addr bytes with
    | .error r => .refused r
    | .ok offset => .next (s.hostWrite offset v)
  | .poll mask =>
    let s' := s.hostRead Reg.status.offset
    if s'.hostData &&& mask = 0 then .next { s' with host := .poll mask :: s'.host } else .next s'
  | .waitIrq => if s.irq then .next s else .next { s with host := .waitIrq :: s.host }
  | .memStore addr v => hostStore addr v s
  | .memLoad addr => hostLoad addr s
  | .rstAssert => .next { s.blockReset with rst := true }
  | .rstRelease => .next { s with rst := false }

/-- The next host action takes its step; with none to come nothing happens (60_exceptions R431). -/
def hostStep (s : State) : Host.Outcome State Fault Refusal :=
  match s.host with
  | [] => .next s
  | op :: rest => hostAction op { s with host := rest, delay := s.delay - 1 }

/-- The engine takes the next step: a command is running, RST is not asserted, and no host action comes before its
completion (60_exceptions R425, 70_reset_and_hazards R520, R521; log 3). -/
def State.engineMoves (s : State) : Bool := !s.rst && s.busy && (s.delay == 0 || s.host.isEmpty)

/-! ### The host script (30_encoding R145, R146) -/

/-- `WR <REG>, value`. -/
def opWrite (p : Params) (r : Reg) (v : Word) : HostOp := .regWrite (p.bzbBase + r.offset) 4 v

/-- `RD <REG>`. -/
def opRead (p : Params) (r : Reg) : HostOp := .regRead (p.bzbBase + r.offset) 4

/-- `MEM addr: ws`: stores at `addr`, `addr + 4` and so on, which do not wrap at 2^32 (30_encoding R145, 00_scope R16). -/
def opsMem : (addr : Nat) → List Word → List HostOp
  | _, [] => []
  | addr, w :: ws => .memStore addr w :: opsMem (addr + 4) ws

/-- `RUN <MNEMONIC>, src, srclen, dst, dstcap`. -/
def opsRun (p : Params) (i : Instr) (src srcLen dst dstCap : Word) : List HostOp :=
  [opWrite p .srcAddr src, opWrite p .srcLen srcLen, opWrite p .dstAddr dst, opWrite p .dstCap dstCap,
    opWrite p .cmd (encode i)]

/-- `LZPARAM off, len`. -/
def opsLzParam (p : Params) (off len : Word) : List HostOp := [opWrite p .maxOffset off, opWrite p .maxLength len]

/-- `WAIT`. -/
def opWait : HostOp := .poll 0x6

/-- `CLEAR`. -/
def opClear (p : Params) : HostOp := opWrite p .status 0xE

/-- `SRST`. -/
def opSrst (p : Params) : HostOp := opWrite p .ctrl 0x80000000

/-- `IRQON`. -/
def opIrqOn (p : Params) : HostOp := opWrite p .ctrl 0x3

end Sys2Proof.Machine
end

