-- ==== Sys2Proof/Machine/Engine.lean ====
section
/-! DEFINITION. The engine's step, and how a command word is handed to the engine. -/

namespace Sys2Proof.Machine

/-- The completion step of the command with snapshot `c`: decode its word and run it; an illegal word completes with a
ConfigurationError before any other check (60_exceptions R420, 30_encoding R126). -/
def engineStep (c : Snapshot) (s : State) : Host.Outcome State Fault Refusal :=
  match decode c.cmd with
  | .ok i => exec i s
  | .error e => .next (s.errorEntry (illegalWordError e))

/-- The engine's step or the host's, whichever is next (60_exceptions R425). -/
def nextStep (s : State) : Host.Outcome State Fault Refusal :=
  match s.seq with
  | .busy c => if s.engineMoves then engineStep c s else hostStep s
  | .idle => hostStep s

/-- The word `v` accepted as a command with no host action before its completion, so that the next step is that
completion (10_state R55, R56; log 1). -/
def State.launch (v : Word) (s : State) : State :=
  { ({ s with seq := .idle, rst := false }).accept v with delay := 0 }

end Sys2Proof.Machine
end

