-- ==== Sys2Proof/Machine/Step.lean ====
section
/-! DEFINITION. One step of the machine (60_exceptions R425). -/

namespace Sys2Proof.Machine

/-- One step: the engine's completion step, or one action of the host or platform. -/
def step (s : State) : Host.Outcome State Fault Refusal := nextStep s

/-- `s` with the command word of an opcode-table row as the running command, whose completion is the very next step. The
block fetches no instructions (20_memory R96): a command comes to run by its accept (10_state R55; log 1). -/
def State.withFetchWord (s : State) (nbits w : Nat) : State := s.launch (BitVec.ofNat 32 (w % 2 ^ nbits))

end Sys2Proof.Machine
end

