-- ==== Sys2Proof/Safety.lean ====
section
/-! DEFINITION. The terms the statements use: when a command is admitted, whose turn it is, what a safe step is, and the
invariant of the machine. -/

namespace Sys2Proof.Machine

/-- The commands that read MAX_OFFSET and MAX_LENGTH (60_exceptions R406, R407). -/
def Instr.Bounded (i : Instr) : Prop := i = .lz77Enc ∨ i = .defEnc

/-- A legal value of MAX_OFFSET or MAX_LENGTH (10_state R48, R49). -/
def legalBound (v : Word) : Prop := 1 ≤ v.toNat ∧ v.toNat ≤ 65535

/-- The snapshot passes every check that comes before the operation (60_exceptions R406 to R410, R414). -/
structure Admitted (i : Instr) (p : Params) (c : Snapshot) : Prop where
  bounds : Instr.Bounded i → legalBound c.maxOffset ∧ legalBound c.maxLength
  srcAlign : c.srcAddr.toNat % 4 = 0
  dstAlign : c.dstAddr.toNat % 4 = 0
  srcRange : c.srcAddr.toNat + 4 * c.srcLen.toNat ≤ 2 ^ 32
  dstRange : c.dstAddr.toNat + 4 * c.dstCap.toNat ≤ 2 ^ 32
  disjoint : ∀ a, ¬(c.inSrc a ∧ c.inDst a)
  srcBacked : ∀ a, c.inSrc a → p.backs a
  dstBacked : ∀ a, c.inDst a → p.backs a

/-- The operation of each command (60_exceptions R420). -/
def operationOf (i : Instr) (p : Params) : Operation :=
  match i with
  | .lz77Enc => lz77EncOp
  | .lz77Dec => lz77DecOp
  | .lzwEnc => lzwEncOp p.lzwDictCap
  | .lzwDec => lzwDecOp p.lzwDictCap
  | .hufEnc => hufEncOp
  | .hufDec => hufDecOp
  | .defEnc => defEncOp
  | .defDec => defDecOp

/-- The command of snapshot `c` is running and the engine has the next step. -/
def State.EngineTurn (c : Snapshot) (s : State) : Prop :=
  s.seq = .busy c ∧ s.rst = false ∧ (s.delay = 0 ∨ s.host = [])

/-- `op` is the host's or platform's next action, and it has the next step. -/
def State.HostTurn (op : HostOp) (rest : List HostOp) (s : State) : Prop :=
  s.host = op :: rest ∧ (s.seq = .idle ∨ s.rst = true ∨ s.delay ≠ 0)

/-- The state in which the host's next action is taken: it is off the list, and one less comes before a completion. -/
def State.taken (rest : List HostOp) (s : State) : State := { s with host := rest, delay := s.delay - 1 }

/-- Every register has its reset value, and no command runs (10_state R32, R63). -/
structure State.AtReset (s : State) : Prop where
  ctrl : s.ieDone = false ∧ s.ieErr = false
  status : s.seq = .idle ∧ s.done = false ∧ s.err = false ∧ s.rej = false
  cmd : s.cmdReadback = 0
  errcode : s.errKind = 0 ∧ s.errCode = 0 ∧ s.errPos = 0
  dstLen : s.dstLen = 0
  src : s.srcAddr = 0 ∧ s.srcLen = 0
  dst : s.dstAddr = 0 ∧ s.dstCap = 0
  bounds : s.maxOffset = 255 ∧ s.maxLength = 254

/-- ERRCODE, ERRPOS and DST_LEN are as command accept leaves them (10_state R55). -/
def State.Cleared (s : State) : Prop := s.errKind = 0 ∧ s.errCode = 0 ∧ s.errPos = 0 ∧ s.dstLen = 0

/-- (KIND, CODE) is 0, 0 or a row of the table of 60_exceptions R402. -/
def legalErrcode (kind : BitVec 4) (code : BitVec 8) : Prop :=
  (kind = 0 ∧ code = 0) ∨ (kind = 1 ∧ 1 ≤ code.toNat ∧ code.toNat ≤ 10) ∨
    (kind = 2 ∧ 1 ≤ code.toNat ∧ code.toNat ≤ 4) ∨ (kind = 3 ∧ 1 ≤ code.toNat ∧ code.toNat ≤ 10) ∨
    (kind = 4 ∧ code = 1)

/-- The invariant of the machine, from the spec's statements about the whole block. -/
structure State.Inv (s : State) : Prop where
  /-- Data memory is in its canonical form. -/
  memory : s.mem.wf
  /-- DONE and ERR are never 1 at once (10_state R37). -/
  doneErr : ¬(s.done = true ∧ s.err = true)
  /-- While BUSY, DONE and ERR are 0 and the error registers and DST_LEN are as accept left them (R37, R55); CMD reads the
  running command, whose buffers the engine holds. -/
  running : ∀ c, s.seq = .busy c →
    s.done = false ∧ s.err = false ∧ s.Cleared ∧ s.cmdReadback = c.cmd ∧ c ∈ s.handedOver
  /-- No other (KIND, CODE) pair is ever written to ERRCODE (60_exceptions R402). -/
  errcode : legalErrcode s.errKind s.errCode
  /-- ERR stands only over a recorded error, DONE only over none (10_state R56). -/
  errRecorded : s.err = true → s.errKind ≠ 0
  doneClean : s.done = true → s.errKind = 0
  /-- No error is reported together with output (60_exceptions R403). -/
  noOutput : s.errKind ≠ 0 → s.dstLen = 0
  /-- A buffer holds at most 2^30 words (60_exceptions R409). -/
  dstLen : s.dstLen.toNat ≤ 2 ^ 30
  /-- While RST is asserted every register has its reset value (70_reset_and_hazards R500). -/
  heldInReset : s.rst = true → s.AtReset

/-- The configuration checks that follow command decode all pass (60_exceptions R406 to R410). -/
def ConfigurationLegal (i : Instr) (c : Snapshot) : Prop :=
  (Instr.Bounded i → legalBound c.maxOffset ∧ legalBound c.maxLength) ∧
    c.srcAddr.toNat % 4 = 0 ∧ c.dstAddr.toNat % 4 = 0 ∧
    c.srcAddr.toNat + 4 * c.srcLen.toNat ≤ 2 ^ 32 ∧ c.dstAddr.toNat + 4 * c.dstCap.toNat ≤ 2 ^ 32 ∧
    ∀ a, ¬(c.inSrc a ∧ c.inDst a)

/-- `t` is `s` after the command of snapshot `c` completed with the output `out` (10_state R56): the output words stand at
DST, every other byte of memory, every other register and every other flag is as in `s`. -/
def State.CompletedWith (c : Snapshot) (out : List Word) (s t : State) : Prop :=
  ∃ m : Memory,
    t = { s with mem := m, dstLen := BitVec.ofNat 32 out.length, done := true, seq := .idle } ∧
      m.words c.dstAddr.toNat out.length = out ∧
      ∀ a, (a < c.dstAddr.toNat ∨ c.dstAddr.toNat + 4 * out.length ≤ a) → m.read a = s.mem.read a

/-- `t` is `s` after the command of snapshot `c` ended in the error (`kind`, `code`, `pos`) of its operation or of the
capacity check (60_exceptions R422): no byte outside the DST range, no register but the five and no other flag differs.
The counter of free values is the model's own (log 5). -/
def State.FailedWith (c : Snapshot) (kind : BitVec 4) (code : BitVec 8) (pos : Nat) (s t : State) : Prop :=
  ∃ (m : Memory) (f : Nat),
    t = { s with mem := m, free := f, errKind := kind, errCode := code, errPos := BitVec.ofNat 32 pos
                 dstLen := 0, err := true, seq := .idle } ∧
      ∀ a, c.inDst a = false → m.read a = s.mem.read a

/-- `s` after a command ended in the error (`kind`, `code`, `pos`) of a check before its operation (60_exceptions R422):
memory is as it was. -/
def State.withError (kind : BitVec 4) (code : BitVec 8) (pos : Nat) (s : State) : State :=
  { s with errKind := kind, errCode := code, errPos := BitVec.ofNat 32 pos, dstLen := 0, err := true, seq := .idle }

/-! ### Runs -/

/-- The state after `n` steps, if none of them stops. -/
def State.stepsTo : Nat → State → Option State
  | 0, s => some s
  | n + 1, s =>
    match step s with
    | .next t => t.stepsTo n
    | .fault _ => none
    | .refused _ => none

/-! ### The codecs, in the spec's own terms -/

/-- `s[cur - d + j] = s[cur + j]` for every `j < m` (41_lz77 R244). -/
def matchesAt (s : List Word) (cur d m : Nat) : Prop :=
  ∀ j, j < m → s[cur - d + j]? = s[cur + j]?

/-- Codeword `c` is the one 41_lz77 R244 to R247 give at cursor `cur` of the input `s`: a literal when no symbol in the
window equals the next one, otherwise the longest match, at the least distance that gives its length. -/
def GreedyCodeword (s : List Word) (mo ml cur : Nat) (c : Codeword) : Prop :=
  (c.offset = 0 ∧ c.length = 1 ∧ s[cur]? = some c.literal ∧
      ∀ d, 1 ≤ d → d ≤ min mo cur → ¬matchesAt s cur d 1) ∨
    (1 ≤ c.offset ∧ c.offset ≤ min mo cur ∧ 1 ≤ c.length ∧ c.length ≤ min ml (s.length - cur) ∧
      matchesAt s cur c.offset c.length ∧
      (∀ d m, 1 ≤ d → d ≤ min mo cur → m ≤ min ml (s.length - cur) → matchesAt s cur d m → m ≤ c.length) ∧
      (∀ d, 1 ≤ d → d < c.offset → ¬matchesAt s cur d c.length) ∧
      c.literal = s.getD (cur + c.length) 0)

/-- How many symbols the codewords reproduce. -/
def coveredBy (cw : List Codeword) : Nat := (cw.map Codeword.length).sum

/-! #### LZW -/

/-- The string of code `256 + j` when the words emitted or decoded are `ws`: word `j` followed by the first symbol of the
word after it (42_lzw R273, R275, R279). -/
def lzwEntry (ws : List (List Word)) (j : Nat) : List Word := ws.getD j [] ++ [(ws.getD (j + 1) []).headD 0]

/-- Code `k` stands for the string `w` when `n` entries have been made: a seed, or one of those entries (42_lzw R271). -/
def LzwStands (ws : List (List Word)) (n k : Nat) (w : List Word) : Prop :=
  (k < 256 ∧ w = [BitVec.ofNat 32 k]) ∨ ∃ j, j < n ∧ k = 256 + j ∧ w = lzwEntry ws j

/-- `codes` are the codes 42_lzw R275 gives the input `s` while the dictionary has room: the input is cut into words, each
code stands for its word, and no word could have been extended. One entry has been made for each earlier word. -/
structure LzwParse (s : List Word) (ws : List (List Word)) (codes : List Word) : Prop where
  input : ws.flatten = s
  nonempty : ∀ w ∈ ws, w ≠ []
  length : codes.length = ws.length
  /-- Each code is the one of its word. -/
  known : ∀ i w k, ws[i]? = some w → codes[i]? = some k → LzwStands ws i k.toNat w
  /-- "test whether `current_word + symbol` is a known dictionary entry; if so, extend": a word that ends before the input
  does, with the next symbol, is no known string. -/
  longest : ∀ i, i + 1 < ws.length → ∀ k, ¬LzwStands ws i k (lzwEntry ws i)

/-- The word of code `k` after the words `ws`: a seed, a known entry, or the code not yet defined (42_lzw R278). -/
def lzwNextWord (ws : List (List Word)) (k : Nat) : List Word :=
  if k < 256 then [BitVec.ofNat 32 k]
  else if k - 256 + 1 < ws.length then lzwEntry ws (k - 256)
  else ws.getLastD [] ++ [(ws.getLastD []).headD 0]

/-- `ws` are the words of the codes, each after the words before it (42_lzw R278). -/
def LzwWords (codes : List Word) (ws : List (List Word)) : Prop :=
  ws.length = codes.length ∧ ∀ i k, codes[i]? = some k → ws[i]? = some (lzwNextWord (ws.take i) k.toNat)

/-! #### Huffman -/

/-- The key order of the queue (40_huffman R202). -/
def QEntry.keyLt (a b : QEntry) : Prop := a.freq < b.freq ∨ (a.freq = b.freq ∧ a.idx < b.idx)

/-- The leaves the queue starts with: symbol `i` in first-seen order, keyed by its frequency and `i` (40_huffman R203). -/
def hufLeaves (s : List Word) : List QEntry := s.eraseDups.zipIdx.map fun p => ⟨s.count p.1, p.2, .leaf p.1⟩

/-- From the queue `q`, in any order, with `next` the next insertion index, the builder ends in the tree (40_huffman R204,
R205): the least entry `a` and then the least remaining entry `b` become the left and right child of a new entry. -/
inductive HufBuilds : (next : Nat) → (q : List QEntry) → Tree → Prop
  | root (next : Nat) (e : QEntry) : HufBuilds next [e] e.tree
  | combine (next : Nat) (q : List QEntry) (a b : QEntry) (rest : List QEntry) (t : Tree) (popped : q.Perm (a :: b :: rest))
      (first : ∀ e ∈ b :: rest, a.keyLt e) (second : ∀ e ∈ rest, b.keyLt e)
      (others : HufBuilds (next + 1) (⟨a.freq + b.freq, next, .branch a.tree b.tree⟩ :: rest) t) : HufBuilds next q t

/-- The leaf a path leads to, with 0 for left and 1 for right (40_huffman R208). -/
def Tree.leafAt : Tree → List Bool → Option Word
  | .leaf x, [] => some x
  | .leaf _, _ :: _ => none
  | .branch _ _, [] => none
  | .branch a _, false :: p => a.leafAt p
  | .branch _ b, true :: p => b.leafAt p

/-- The shape of a Huffman artifact fits its length (40_huffman R216). -/
def hufShape (w : List Word) : Prop :=
  2 ≤ w.length ∧ w.length = 2 + 4 * (w.getD 1 0).toNat + ceilDiv (w.getD 0 0).toNat 32

/-- `sym[e]`, `L[e]` and `code[e]` of 40_huffman R217, from the artifact's words. -/
def tableSymbol (w : List Word) (e : Nat) : Word := w.getD (2 + 4 * e) 0
def tableLen (w : List Word) (e : Nat) : Nat := (w.getD (3 + 4 * e) 0).toNat
def tableCode (w : List Word) (e : Nat) : Nat := (w.getD (4 + 4 * e) 0).toNat + 2 ^ 32 * (w.getD (5 + 4 * e) 0).toNat

/-- Entry `e` of the artifact's table fails its check (40_huffman R217). -/
def tableEntryFails (w : List Word) (e : Nat) : Prop :=
  tableLen w e < 1 ∨ 64 < tableLen w e ∨ 2 ^ tableLen w e ≤ tableCode w e ∨
    ∃ j, j < e ∧ (tableSymbol w j = tableSymbol w e ∨
      tableCode w j % 2 ^ min (tableLen w j) (tableLen w e) = tableCode w e % 2 ^ min (tableLen w j) (tableLen w e))

/-- Bit `k` of the artifact's bitstring (40_huffman R218, 30_encoding R136). -/
def tableBit (w : List Word) (k : Nat) : Bool := (w.getD (2 + 4 * (w.getD 1 0).toNat + k / 32) 0).getLsbD (k % 32)

/-- Entry `e` matches at bit `p`: its code lies inside the bitstring and its bits are there (40_huffman R218). -/
def tableMatches (w : List Word) (e p : Nat) : Prop :=
  e < (w.getD 1 0).toNat ∧ p + tableLen w e ≤ (w.getD 0 0).toNat ∧
    ∀ i, i < tableLen w e → tableBit w (p + i) = (tableCode w e).testBit i

/-- The entries decoded from bit `p` on, up to bit `q` (40_huffman R218). -/
def DecodesTo (w : List Word) : (p : Nat) → List Word → (q : Nat) → Prop
  | p, [], q => p = q
  | p, x :: out, q => ∃ e, tableMatches w e p ∧ tableSymbol w e = x ∧ DecodesTo w (p + tableLen w e) out q

/-! #### Deflate -/

/-- `HufCost` of a Huffman artifact, in bits (43_deflate R306). -/
def artifactCost (a : List Word) : Nat := 64 + 128 * (a.getD 1 0).toNat + (a.getD 0 0).toNat

/-- Every offset and length of the two decoded fields is in [0, 65535], signed (43_deflate R312). -/
def fieldsFit (ls ms : List Word) : Prop :=
  ∀ j, j < ls.length →
    (0 ≤ (ms.getD (2 * j) 0).toInt ∧ (ms.getD (2 * j) 0).toInt ≤ 65535) ∧
      0 ≤ (ls.getD j 0).toInt ∧ (ls.getD j 0).toInt ≤ 65535

/-- Codeword `j` is `(M[2j], L[j], M[2j+1])` (43_deflate R312). -/
def zipCodewords (ls ms : List Word) : List Codeword :=
  (List.range ls.length).map fun j => ⟨(ms.getD (2 * j) 0).toNat, (ls.getD j 0).toNat, ms.getD (2 * j + 1) 0⟩

/-- The words `r` are one whole record, Stored (43_deflate R311) or Coded (R312), whose output is `out`. -/
def RecordGives (r out : List Word) : Prop :=
  (∃ n : Word, r = 0 :: n :: out ∧ out.length = n.toNat) ∨
    ∃ a b ls ms, r = 1 :: (a ++ b) ∧ hufDecode a = .ok ls ∧ hufDecode b = .ok ms ∧ ms.length = 2 * ls.length ∧
      fieldsFit ls ms ∧ lz77Decode (zipCodewords ls ms) = .ok out

end Sys2Proof.Machine
end

