-- ==== Sys2Proof/Certificates/Slice0/Obligations.lean ====
section
/-! DEFINITION. The statements about this hardware, from the numbered rules of spec/. -/

open Sys2Proof Sys2Proof.Machine

/-! ### Command words -/

/-- 30_encoding R120, R123: the eight words, written out. -/
def Obligations.CommandWordsDecode : Prop :=
  decode 0x00000000#32 = .ok .lz77Enc ∧ decode 0x00000001#32 = .ok .lz77Dec ∧
    decode 0x00000010#32 = .ok .lzwEnc ∧ decode 0x00000011#32 = .ok .lzwDec ∧
    decode 0x00000020#32 = .ok .hufEnc ∧ decode 0x00000021#32 = .ok .hufDec ∧
    decode 0x00000030#32 = .ok .defEnc ∧ decode 0x00000031#32 = .ok .defDec

/-- 30_encoding R124: `DecodeCmd`, with the fields as numbers and the opcode map of R123 as a table. -/
def Obligations.DecodeCmdFunction : Prop :=
  ∀ v : Word,
    (4 ≤ v.toNat / 16 % 16 → decode v = .error .badSelector) ∧
      (v.toNat / 16 % 16 < 4 → v.toNat / 256 ≠ 0 ∨ v.toNat / 2 % 8 ≠ 0 → decode v = .error .reservedBits) ∧
      (v.toNat / 16 % 16 < 4 → v.toNat / 256 = 0 → v.toNat / 2 % 8 = 0 →
        ∃ i, decode v = .ok i ∧
          [[Instr.lz77Enc, .lz77Dec], [.lzwEnc, .lzwDec], [.hufEnc, .hufDec], [.defEnc, .defDec]][v.toNat / 16 % 16]?.bind
            (fun row => row[v.toNat % 2]?) = some i)

/-- 30_encoding R123: each command is selected by its whole word, and decoding an encoded command gives it back. -/
def Obligations.CommandSelectedByWholeWord : Prop :=
  (∀ v i, decode v = .ok i ↔
    (v, i) ∈ [(0x00000000#32, Instr.lz77Enc), (0x00000001#32, .lz77Dec), (0x00000010#32, .lzwEnc),
      (0x00000011#32, .lzwDec), (0x00000020#32, .hufEnc), (0x00000021#32, .hufDec), (0x00000030#32, .defEnc),
      (0x00000031#32, .defDec)]) ∧
    ∀ v i, decode v = .ok i ↔ v = encode i

/-! ### A step -/

/-- 60_exceptions R420, R425: when the engine has the next step, the step runs the command of the running word. -/
def Obligations.StepRunsTheRunningCommand : Prop :=
  ∀ (s : State) (c : Snapshot) (i : Instr), s.EngineTurn c → decode c.cmd = .ok i → step s = exec i s

/-- 60_exceptions R425, R431: otherwise the step is the host's next action; without one nothing happens. The order is the
model's (log 3). -/
def Obligations.StepTakesTheHostAction : Prop :=
  (∀ (s : State) (op : HostOp) (rest : List HostOp), s.HostTurn op rest → step s = hostAction op (s.taken rest)) ∧
    ∀ s : State, s.host = [] → (s.seq = .idle ∨ s.rst = true) → step s = .next s

/-- The model's convention (log 1, log 11): a command handed over by `withFetchWord` runs in the very next step, and `exec`
on an idle block accepts the command's word first. -/
def Obligations.HandedOverCommandRunsNext : Prop :=
  (∀ (s : State) (i : Instr), step (s.withFetchWord 8 (encode i).toNat) = exec i (s.withFetchWord 8 (encode i).toNat)) ∧
    ∀ (s : State) (i : Instr), s.seq = .idle → exec i s = exec i (s.accept (encode i))

/-- 60_exceptions R404, R405: an illegal word completes with its ConfigurationError. -/
def Obligations.IllegalWordsComplete : Prop :=
  ∀ (s : State) (c : Snapshot), s.EngineTurn c →
    (4 ≤ c.cmd.toNat / 16 % 16 → step s = .next (s.withError 1 0x01 0)) ∧
      (c.cmd.toNat / 16 % 16 < 4 → c.cmd.toNat / 256 ≠ 0 ∨ c.cmd.toNat / 2 % 8 ≠ 0 →
        step s = .next (s.withError 1 0x02 0))

/-! ### Completion -/

/-- 60_exceptions R406 to R410, in the order of R420. -/
def Obligations.ConfigurationErrorsInOrder : Prop :=
  ∀ (i : Instr) (s : State) (c : Snapshot), s.seq = .busy c →
    (Instr.Bounded i → ¬legalBound c.maxOffset → exec i s = .next (s.withError 1 0x03 0)) ∧
      (Instr.Bounded i → legalBound c.maxOffset → ¬legalBound c.maxLength → exec i s = .next (s.withError 1 0x04 0)) ∧
      ((Instr.Bounded i → legalBound c.maxOffset ∧ legalBound c.maxLength) →
        (c.srcAddr.toNat % 4 ≠ 0 → exec i s = .next (s.withError 1 0x05 0)) ∧
          (c.srcAddr.toNat % 4 = 0 → c.dstAddr.toNat % 4 ≠ 0 → exec i s = .next (s.withError 1 0x06 0)) ∧
          (c.srcAddr.toNat % 4 = 0 → c.dstAddr.toNat % 4 = 0 →
            (2 ^ 32 < c.srcAddr.toNat + 4 * c.srcLen.toNat → exec i s = .next (s.withError 1 0x07 0)) ∧
              (c.srcAddr.toNat + 4 * c.srcLen.toNat ≤ 2 ^ 32 →
                (2 ^ 32 < c.dstAddr.toNat + 4 * c.dstCap.toNat → exec i s = .next (s.withError 1 0x08 0)) ∧
                  (c.dstAddr.toNat + 4 * c.dstCap.toNat ≤ 2 ^ 32 → 0 < c.srcLen.toNat → 0 < c.dstCap.toNat →
                    c.srcAddr.toNat < c.dstAddr.toNat + 4 * c.dstCap.toNat →
                    c.dstAddr.toNat < c.srcAddr.toNat + 4 * c.srcLen.toNat → exec i s = .next (s.withError 1 0x09 0)))))

/-- 60_exceptions R414: the first unbacked byte of SRC, then of DST. -/
def Obligations.BusErrorAtFirstUnbackedByte : Prop :=
  ∀ (i : Instr) (s : State) (c : Snapshot) (x : Nat), s.seq = .busy c → ConfigurationLegal i c →
    s.params.backs x = false →
    (c.inSrc x = true ∧ (∀ a, a < x → c.inSrc a = true → s.params.backs a = true)) ∨
      (c.inDst x = true ∧ (∀ a, c.inSrc a = true → s.params.backs a = true) ∧
        ∀ a, a < x → c.inDst a = true → s.params.backs a = true) →
    exec i s = .next (s.withError 4 0x01 x)

/-- 60_exceptions R422 for an error of the operation: what it records, and that nothing else changes. -/
def Obligations.OperationErrorEntry : Prop :=
  ∀ (i : Instr) (s : State) (c : Snapshot) (e : OpError), s.seq = .busy c → Admitted i s.params c →
    operationOf i s.params c (s.input c) = .error e →
    ∃ t, exec i s = .next t ∧ s.FailedWith c e.name.kind e.name.code e.pos t

/-- 60_exceptions R411: an output longer than DST_CAP. -/
def Obligations.OutputOverflowEntry : Prop :=
  ∀ (i : Instr) (s : State) (c : Snapshot) (out : List Word), s.seq = .busy c → Admitted i s.params c →
    operationOf i s.params c (s.input c) = .ok out → c.dstCap.toNat < out.length →
    ∃ t, exec i s = .next t ∧ s.FailedWith c 1 0x0A 0 t

/-- 10_state R56 for a successful command: the output words, DST_LEN, DONE, BUSY, and nothing else. -/
def Obligations.SuccessfulCompletion : Prop :=
  ∀ (i : Instr) (s : State) (c : Snapshot) (out : List Word), s.seq = .busy c → Admitted i s.params c →
    operationOf i s.params c (s.input c) = .ok out → out.length ≤ c.dstCap.toNat →
    ∃ t, exec i s = .next t ∧ s.CompletedWith c out t

/-- 70_reset_and_hazards R520, 60_exceptions R403: in every state that meets the invariant every command completes, with
DONE and no error or with ERR, an error of the table, and no output. -/
def Obligations.EveryCommandCompletes : Prop :=
  ∀ (i : Instr) (s : State), s.Inv →
    ∃ t, exec i s = .next t ∧ t.seq = .idle ∧
      ((t.done = true ∧ t.err = false ∧ t.errKind = 0 ∧ t.errCode = 0) ∨
        (t.done = false ∧ t.err = true ∧ t.errKind ≠ 0 ∧ legalErrcode t.errKind t.errCode ∧ t.dstLen = 0))

/-- 20_memory R90, 60_exceptions R422: what none of the eight commands changes. -/
def Obligations.CommandFrame : Prop :=
  ∀ (i : Instr) (s t : State) (c : Snapshot), s.seq = .busy c → exec i s = .next t →
    t.ieDone = s.ieDone ∧ t.ieErr = s.ieErr ∧ t.rej = s.rej ∧ t.cmdReadback = s.cmdReadback ∧
      t.srcAddr = s.srcAddr ∧ t.srcLen = s.srcLen ∧ t.dstAddr = s.dstAddr ∧ t.dstCap = s.dstCap ∧
      t.maxOffset = s.maxOffset ∧ t.maxLength = s.maxLength ∧
      t.rst = s.rst ∧ t.params = s.params ∧ t.host = s.host ∧ t.hostData = s.hostData ∧ t.handedOver = s.handedOver ∧
      (∀ a, c.inDst a = false → t.mem.read a = s.mem.read a) ∧
      ∀ a, c.inSrc a = true → t.mem.read a = s.mem.read a

/-- 10_state R55, R58: writing the configuration registers and the interrupt enables does not change what a running command
does. -/
def Obligations.RunningCommandIgnoresRegisters : Prop :=
  ∀ (i : Instr) (s t : State) (c : Snapshot) (sa sl da dc mo ml : Word) (d e : Bool),
    s.seq = .busy c → exec i s = .next t →
    exec i { s with srcAddr := sa, srcLen := sl, dstAddr := da, dstCap := dc, maxOffset := mo, maxLength := ml
                    ieDone := d, ieErr := e } =
      .next { t with srcAddr := sa, srcLen := sl, dstAddr := da, dstCap := dc, maxOffset := mo, maxLength := ml
                     ieDone := d, ieErr := e }

/-- 20_memory R90, R91, 60_exceptions R420: what a command reports and outputs depends on nothing but its snapshot, the
platform's parameters and the bytes of its SRC range. -/
def Obligations.ResultDependsOnSrcOnly : Prop :=
  ∀ (i : Instr) (s s' t t' : State) (c : Snapshot), s.Inv → s'.Inv → s.seq = .busy c → s'.seq = .busy c →
    s.params = s'.params → (∀ a, c.inSrc a = true → s.mem.read a = s'.mem.read a) →
    exec i s = .next t → exec i s' = .next t' →
    t.done = t'.done ∧ t.err = t'.err ∧ t.errKind = t'.errKind ∧ t.errCode = t'.errCode ∧ t.errPos = t'.errPos ∧
      t.dstLen = t'.dstLen ∧
      t.mem.words c.dstAddr.toNat t.dstLen.toNat = t'.mem.words c.dstAddr.toNat t.dstLen.toNat

/-! ### Reset -/

/-- 10_state R32, R53, R63: what the registers read after reset. -/
def Obligations.ResetRegisterTable : Prop :=
  State.reset.AtReset ∧
    ∀ s : State, s.AtReset →
      s.readReg .id = 0x425A4243 ∧ s.readReg .version = 0x00070001 ∧ s.readReg .ctrl = 0 ∧ s.readReg .status = 0 ∧
        s.readReg .cmd = 0 ∧ s.readReg .errcode = 0 ∧ s.readReg .errpos = 0 ∧ s.readReg .dstLen = 0 ∧
        s.readReg .srcAddr = 0 ∧ s.readReg .srcLen = 0 ∧ s.readReg .dstAddr = 0 ∧ s.readReg .dstCap = 0 ∧
        s.readReg .maxOffset = 0x000000FF ∧ s.readReg .maxLength = 0x000000FE ∧
        s.readReg .chunkSize = 0x00010000 ∧
        (s.readReg .lzwDictCap).toNat = min s.params.lzwDictCap 0xFFFFFFFF ∧ s.irq = false

/-- 70_reset_and_hazards R500, R502: RST asserted, in any state, and what the host sees while it is. That a byte in both
the DST and the SRC range of the abandoned command is unchanged (`inSrc a = true`) is the model's choice (log 12): R502
says unspecified of the one and unchanged of the other. -/
def Obligations.HardReset : Prop :=
  (∀ s : State, ∃ t, hostAction .rstAssert s = .next t ∧ t.rst = true ∧ t.AtReset ∧ t.irq = false ∧
    t.params = s.params ∧ t.host = s.host ∧
    (s.seq = .idle → t.mem = s.mem) ∧
    ∀ c, s.seq = .busy c → ∀ a, (c.inDst a = false ∨ c.inSrc a = true) → t.mem.read a = s.mem.read a) ∧
    ∀ s : State, s.rst = true →
      (∀ offset v, s.hostWrite offset v = s) ∧
        ∀ r : Reg, s.readOffset r.offset = ({ State.reset with params := s.params } : State).readReg r

/-- 70_reset_and_hazards R503, R502, 10_state R35: a write of CTRL with bit 31 = 1, in either sequencer state. That a byte
in both the DST and the SRC range of the abandoned command is unchanged (`inSrc a = true`) is the model's choice (log 12). -/
def Obligations.SoftReset : Prop :=
  ∀ (s : State) (v : Word), s.rst = false → v.getLsbD 31 = true →
    (s.hostWrite 0x08 v).AtReset ∧ (s.hostWrite 0x08 v).irq = false ∧ (s.hostWrite 0x08 v).readReg .ctrl = 0 ∧
      (s.hostWrite 0x08 v).rst = false ∧ (s.hostWrite 0x08 v).params = s.params ∧ (s.hostWrite 0x08 v).host = s.host ∧
      (s.seq = .idle → (s.hostWrite 0x08 v).mem = s.mem) ∧
      ∀ c, s.seq = .busy c → ∀ a, (c.inDst a = false ∨ c.inSrc a = true) →
        (s.hostWrite 0x08 v).mem.read a = s.mem.read a

/-! ### Registers -/

/-- 10_state R55: command accept, and that in no busy state does a register write but a soft reset change `cfg`. The last
four fields are the model's own (log 2, log 3, log 5, log 6). -/
def Obligations.CommandAccept : Prop :=
  (∀ (s : State) (v : Word), s.seq = .idle → s.rst = false →
    ∃ h d ds f, s.hostWrite 0x10 v =
      { s with
        seq := .busy { cmd := v, srcAddr := s.srcAddr, srcLen := s.srcLen, dstAddr := s.dstAddr, dstCap := s.dstCap
                       maxOffset := s.maxOffset, maxLength := s.maxLength }
        cmdReadback := v, done := false, err := false, errKind := 0, errCode := 0, errPos := 0, dstLen := 0
        handedOver := h, delay := d, delays := ds, free := f }) ∧
    ∀ (s : State) (c : Snapshot) (offset : Nat) (w : Word), s.seq = .busy c → ¬(offset = 0x08 ∧ w.getLsbD 31 = true) →
      (s.hostWrite offset w).seq = .busy c

/-- 10_state R57: a CMD write while BUSY = 1. -/
def Obligations.CommandReject : Prop :=
  ∀ (s : State) (c : Snapshot) (v : Word), s.seq = .busy c → s.rst = false →
    s.hostWrite 0x10 v = { s with rej := true }

/-- 10_state R38: STATUS is write-1-to-clear in bits 1 to 3, and a read of it changes no register, no flag and no memory. -/
def Obligations.StatusWriteOneToClear : Prop :=
  (∀ (s : State) (v : Word), s.rst = false →
    (∃ d e r, s.hostWrite 0x0C v = { s with done := d, err := e, rej := r }) ∧
      ∀ k, (s.hostWrite 0x0C v).statusWord.getLsbD k =
        (s.statusWord.getLsbD k && !(decide (1 ≤ k ∧ k ≤ 3) && v.getLsbD k))) ∧
    ∀ s : State, ∃ d h, s.hostRead 0x0C = { s with hostData := d, handedOver := h }

/-- 10_state R35: a CTRL write with bit 31 = 0. -/
def Obligations.ControlWrite : Prop :=
  ∀ (s : State) (v : Word), s.rst = false → v.getLsbD 31 = false →
    s.hostWrite 0x08 v = { s with ieDone := v.getLsbD 0, ieErr := v.getLsbD 1 } ∧
      (s.hostWrite 0x08 v).readReg .ctrl = v &&& 3

/-- 10_state R44 to R49, R58: the six configuration registers store and read back all 32 bits, in either sequencer state,
and a write of one changes nothing else. -/
def Obligations.ConfigurationRegisterWrites : Prop :=
  ∀ (s : State) (v : Word), s.rst = false →
    s.hostWrite 0x20 v = { s with srcAddr := v } ∧ (s.hostWrite 0x20 v).readOffset 0x20 = v ∧
      s.hostWrite 0x24 v = { s with srcLen := v } ∧ (s.hostWrite 0x24 v).readOffset 0x24 = v ∧
      s.hostWrite 0x28 v = { s with dstAddr := v } ∧ (s.hostWrite 0x28 v).readOffset 0x28 = v ∧
      s.hostWrite 0x2C v = { s with dstCap := v } ∧ (s.hostWrite 0x2C v).readOffset 0x2C = v ∧
      s.hostWrite 0x30 v = { s with maxOffset := v } ∧ (s.hostWrite 0x30 v).readOffset 0x30 = v ∧
      s.hostWrite 0x34 v = { s with maxLength := v } ∧ (s.hostWrite 0x34 v).readOffset 0x34 = v

/-- 10_state R52: the reserved offsets, and writes of the read-only registers. -/
def Obligations.ReservedAndReadOnlyWrites : Prop :=
  (∀ (s : State) (offset : Nat) (v : Word), 0x40 ≤ offset → offset ≤ 0xFC →
    s.hostRead offset = { s with hostData := 0 } ∧ s.hostWrite offset v = s) ∧
    ∀ (s : State) (offset : Nat) (v : Word),
      offset ∈ [0x00, 0x04, 0x14, 0x18, 0x1C, 0x38, 0x3C] → s.hostWrite offset v = s

/-- 10_state R33, R34, R37, R40 to R43, R50, R51: what the host reads. -/
def Obligations.RegisterReadValues : Prop :=
  ∀ s : State, s.rst = false →
    (s.hostRead 0x00).hostData = 0x425A4243 ∧ (s.hostRead 0x04).hostData = 0x00070001 ∧
      (s.hostRead 0x10).hostData = s.cmdReadback ∧ (s.hostRead 0x18).hostData = s.errPos ∧
      (s.hostRead 0x1C).hostData = s.dstLen ∧ (s.hostRead 0x38).hostData = 65536 ∧
      (s.hostRead 0x3C).hostData.toNat = min s.params.lzwDictCap (2 ^ 32 - 1) ∧
      (s.hostRead 0x14).hostData.toNat = 256 * s.errKind.toNat + s.errCode.toNat ∧
      (s.hostRead 0x0C).hostData.toNat =
        (if s.seq = .idle then 0 else 1) + 2 * s.done.toNat + 4 * s.err.toNat + 8 * s.rej.toNat

/-- 10_state R53: the interrupt output, from the bits as the host reads them. -/
def Obligations.InterruptLine : Prop :=
  (∀ s : State, s.irq =
    ((s.statusWord.getLsbD 1 && s.ctrlWord.getLsbD 0) || (s.statusWord.getLsbD 2 && s.ctrlWord.getLsbD 1))) ∧
    State.reset.irq = false

/-- 20_memory R89, 30_encoding R145: a register read changes no register, no flag and no memory, so reading any register
after it gives the same value; a POLL is such a read of STATUS, repeated until a bit of the mask is 1. -/
def Obligations.RegisterReadsHaveNoEffect : Prop :=
  (∀ (s : State) (offset : Nat), (∃ h, s.hostRead offset = { s with hostData := s.readOffset offset, handedOver := h }) ∧
    ∀ o, (s.hostRead offset).readOffset o = s.readOffset o) ∧
    ∀ (s : State) (mask : Word),
      (s.readOffset 0x0C &&& mask ≠ 0 → hostAction (.poll mask) s = .next (s.hostRead 0x0C)) ∧
        (s.readOffset 0x0C &&& mask = 0 → ∃ t, hostAction (.poll mask) s = .next t ∧ t.host = .poll mask :: s.host ∧
          t = { s.hostRead 0x0C with host := t.host })

/-- 20_memory R87: an aligned 32-bit access of the register block has its effect, any other access of it is refused. -/
def Obligations.RegisterAccessShape : Prop :=
  ∀ (s : State) (offset bytes : Nat) (v : Word), offset < 256 →
    (bytes = 4 → offset % 4 = 0 →
      hostAction (.regRead (s.params.bzbBase + offset) bytes) s = .next (s.hostRead offset) ∧
        hostAction (.regWrite (s.params.bzbBase + offset) bytes v) s = .next (s.hostWrite offset v)) ∧
      (bytes ≠ 4 ∨ offset % 4 ≠ 0 →
        hostAction (.regRead (s.params.bzbBase + offset) bytes) s = .refused .badRegisterAccess ∧
          hostAction (.regWrite (s.params.bzbBase + offset) bytes v) s = .refused .badRegisterAccess)

/-! ### Data memory -/

/-- 20_memory R83, R80, 00_scope R16, R19, 30_encoding R145: a word is its four bytes, least significant first; a host store
of a word changes those four bytes and nothing else; a store or load that passes the top of data memory faults (log 9); `MEM`
stores word `i` at `addr + 4 * i`, without a wrap. -/
def Obligations.WordsAreLittleEndian : Prop :=
  (∀ (m : Memory) (a : Nat), (m.readWord a).toNat =
    (m.read a).toNat + 2 ^ 8 * (m.read (a + 1)).toNat + 2 ^ 16 * (m.read (a + 2)).toNat +
      2 ^ 24 * (m.read (a + 3)).toNat) ∧
    (∀ (s : State) (addr : Nat) (v : Word), addr + 4 ≤ 2 ^ 32 → wordBacked s.params addr = true →
      (∀ k, k < 4 → s.bufferOpen (addr + k) = false) →
      ∃ m, hostStore addr v s = .next { s with mem := m } ∧ m.readWord addr = v ∧
        ∀ a, (a < addr ∨ addr + 4 ≤ a) → m.read a = s.mem.read a) ∧
    (∀ (s : State) (addr : Nat) (v : Word), 2 ^ 32 < addr + 4 →
      hostStore addr v s = .fault .noSuchAddress ∧ hostLoad addr s = .fault .noSuchAddress) ∧
    ∀ (addr i : Nat) (ws : List Word), (opsMem addr ws)[i]? = ws[i]?.map fun w => .memStore (addr + 4 * i) w

/-- 70_reset_and_hazards R511, 20_memory R93: from accept until a STATUS read that returns BUSY = 0, or a reset of either
kind, a host store into the command's buffers is refused and a host load of a byte in no open DST range returns the content.
What the window is, and that a store is refused whole, is the model's reading (log 6, log 7); which bytes of two ranges count
as open DST is its choice (log 23). -/
def Obligations.BuffersBelongToTheEngine : Prop :=
  (∀ (s : State) (addr : Nat) (v : Word) (c : Snapshot) (k : Nat), addr + 4 ≤ 2 ^ 32 →
    wordBacked s.params addr = true → c ∈ s.handedOver → k < 4 →
    (c.inSrc (addr + k) = true ∨ c.inDst (addr + k) = true) →
    hostStore addr v s = .refused .bufferInUse) ∧
    (∀ (s : State) (addr : Nat), addr + 4 ≤ 2 ^ 32 → wordBacked s.params addr = true →
      (∀ k, k < 4 → s.dstOpen (addr + k) = false) →
      ∃ t, hostLoad addr s = .next t ∧ t.hostData = s.mem.readWord addr ∧ t.mem = s.mem) ∧
    (∀ (s : State) (v : Word), s.seq = .idle → s.rst = false →
      (s.hostWrite 0x10 v).handedOver = s.sample v :: s.handedOver) ∧
    (∀ (i : Instr) (s t : State) (c : Snapshot), s.seq = .busy c → exec i s = .next t → t.handedOver = s.handedOver) ∧
    (∀ s : State, ∃ t, hostAction .rstAssert s = .next t ∧ t.handedOver = []) ∧
    ∀ s : State, s.rst = false →
      (∀ c, s.seq = .busy c → (s.hostRead 0x0C).handedOver = s.handedOver) ∧
        (s.seq = .idle → (s.hostRead 0x0C).handedOver = []) ∧
        (∀ offset, offset ≠ 0x0C → (s.hostRead offset).handedOver = s.handedOver) ∧
        ∀ v, v.getLsbD 31 = true → (s.hostWrite 0x08 v).handedOver = []

/-! ### The whole machine -/

/-- 70_reset_and_hazards R521: while the host only reads and polls STATUS, the completion step is taken after finitely many
of its steps. -/
def Obligations.CompletionIsNotDelayedForever : Prop :=
  ∀ (s : State) (c : Snapshot), s.seq = .busy c → s.rst = false →
    (∀ op ∈ s.host, op = opRead s.params .status ∨ ∃ mask, op = .poll mask) →
    ∃ n t, s.stepsTo n = some t ∧ t.EngineTurn c

/-- The invariant holds right after reset. -/
def Obligations.ResetMeetsTheInvariant : Prop := State.reset.Inv

/-- 10_state R37, R41, R54, R55, 60_exceptions R402, R403, R409, 70_reset_and_hazards R500: every step, of the engine, the
host or the platform, keeps the invariant. -/
def Obligations.EveryStepKeepsTheInvariant : Prop :=
  ∀ s t : State, s.Inv → step s = .next t → t.Inv

/-- 00_scope R25: a sequence that an encode command turned into an artifact comes back from the decode command of the same
codec run on that artifact; LZW accepts only bytes. -/
def Obligations.RoundTripOnTheMachine : Prop :=
  ∀ (k : Codec) (s t u : State) (c c' : Snapshot),
    s.seq = .busy c → s.done = false → exec (opOf k .enc) s = .next t → t.done = true →
    u.seq = .busy c' → u.params = s.params → c'.srcAddr = c.dstAddr → c'.srcLen = t.dstLen →
    u.input c' = t.input c' → Admitted (opOf k .dec) u.params c' → c.srcLen.toNat ≤ c'.dstCap.toNat →
    (∃ v, exec (opOf k .dec) u = .next v ∧ u.CompletedWith c' (s.input c) v) ∧
      (k = .lzw → ∀ x ∈ s.input c, x.toNat < 256)

/-! ### LZ77 -/

/-- 41_lz77 R249, 70_reset_and_hazards R507: LZ77_ENC completes on every input, with at most one codeword a symbol. -/
def Obligations.Lz77EncCompletes : Prop :=
  ∀ (s : State) (c : Snapshot), s.seq = .busy c → Admitted .lz77Enc s.params c →
    2 * c.srcLen.toNat ≤ c.dstCap.toNat →
    ∃ t, exec .lz77Enc s = .next t ∧
      s.CompletedWith c
        ((lz77Encode (s.input c) c.maxOffset.toNat c.maxLength.toNat).flatMap fun w =>
          [BitVec.ofNat 32 (w.offset + 2 ^ 16 * w.length), w.literal]) t

/-- 41_lz77 R251, R255: LZ77_DEC on the codewords of an encoding gives the encoded sequence, and on an odd number of words
fails with DEC_TRUNCATED. -/
def Obligations.Lz77DecCompletes : Prop :=
  (∀ (s : State) (c : Snapshot) (x : List Word) (mo ml : Nat), s.seq = .busy c → Admitted .lz77Dec s.params c →
    1 ≤ mo → mo ≤ 65535 → 1 ≤ ml → ml ≤ 65535 → x.length ≤ c.dstCap.toNat →
    s.input c = (lz77Encode x mo ml).flatMap Codeword.words →
    ∃ t, exec .lz77Dec s = .next t ∧ s.CompletedWith c x t) ∧
    ∀ (s : State) (c : Snapshot), s.seq = .busy c → Admitted .lz77Dec s.params c → c.srcLen.toNat % 2 = 1 →
      ∃ t, exec .lz77Dec s = .next t ∧ s.FailedWith c 3 0x01 c.srcLen.toNat t

/-- 41_lz77 R256. -/
def Obligations.Lz77RoundTrip : Prop :=
  ∀ (s : List Word) (mo ml : Nat), 1 ≤ mo → mo ≤ 65535 → 1 ≤ ml → ml ≤ 65535 →
    lz77Decode (lz77Encode s mo ml) = .ok s

/-- 41_lz77 R244 to R248: every codeword is the greedy choice at its cursor, and the codewords cover the input. -/
def Obligations.Lz77EncoderIsGreedy : Prop :=
  ∀ (s : List Word) (mo ml : Nat), 1 ≤ mo → mo ≤ 65535 → 1 ≤ ml → ml ≤ 65535 →
    coveredBy (lz77Encode s mo ml) = s.length ∧
      ∀ (k : Nat) (w : Codeword), (lz77Encode s mo ml)[k]? = some w →
        GreedyCodeword s mo ml (coveredBy ((lz77Encode s mo ml).take k)) w

/-- 41_lz77 R257, R258: pairwise distinct symbols give one literal each; a run of one symbol gives a literal and then
copies at distance 1, the last of which carries the literal 0. -/
def Obligations.Lz77LiteralsAndRuns : Prop :=
  ∀ (mo ml : Nat), 1 ≤ mo → mo ≤ 65535 → 1 ≤ ml → ml ≤ 65535 →
    (∀ s : List Word, s.Nodup → lz77Encode s mo ml = s.map fun x => ⟨0, 1, x⟩) ∧
      ∀ (x : Word) (n : Nat), 1 ≤ n →
        lz77Encode (List.replicate n x) mo ml =
          ⟨0, 1, x⟩ :: (List.range (ceilDiv (n - 1) ml)).map fun k =>
            ⟨1, min ml (n - 1 - k * ml), if (k + 1) * ml < n - 1 then x else 0⟩

/-- 41_lz77 R252 to R254: what one more codeword adds to the output so far. -/
def Obligations.Lz77DecodeRules : Prop :=
  ∀ (cw rest : List Codeword) (w : Codeword) (out : List Word), lz77Decode cw = .ok out →
    (w.offset = 0 → lz77Decode (cw ++ [w]) = .ok (out ++ List.replicate w.length w.literal)) ∧
      (1 ≤ w.offset → w.offset ≤ out.length →
        ∃ copy, lz77Decode (cw ++ [w]) = .ok (out ++ copy) ∧ copy.length = w.length ∧
          ∀ t, t < w.length → (out ++ copy)[out.length + t]? = (out ++ copy)[out.length + t - w.offset]?) ∧
      (out.length < w.offset → lz77Decode (cw ++ w :: rest) = .error ⟨.decLz77Offset, cw.length⟩)

/-! ### LZW -/

/-- 42_lzw R274 to R276, 70_reset_and_hazards R507: LZW_ENC completes on every byte sequence the dictionary has room for,
with the codes of R275, at most one a symbol. -/
def Obligations.LzwEncCompletes : Prop :=
  ∀ (s : State) (c : Snapshot), s.seq = .busy c → Admitted .lzwEnc s.params c →
    (∀ x ∈ s.input c, x.toNat < 256) → 256 + c.srcLen.toNat ≤ s.params.lzwDictCap →
    c.srcLen.toNat ≤ c.dstCap.toNat →
    ∃ ws codes t, LzwParse (s.input c) ws codes ∧ lzwEncode s.params.lzwDictCap (s.input c) = .ok codes ∧
      codes.length ≤ c.srcLen.toNat ∧ exec .lzwEnc s = .next t ∧ s.CompletedWith c codes t

/-- 42_lzw R281: LZW_DEC on the codes of an encoding gives the encoded sequence. -/
def Obligations.LzwDecCompletes : Prop :=
  ∀ (s : State) (c : Snapshot) (x : List Word), s.seq = .busy c → Admitted .lzwDec s.params c →
    lzwEncode s.params.lzwDictCap x = .ok (s.input c) → x.length ≤ c.dstCap.toNat →
    ∃ t, exec .lzwDec s = .next t ∧ s.CompletedWith c x t

/-- 42_lzw R282: while no code is out of a word's range (00_scope R14). -/
def Obligations.LzwRoundTrip : Prop :=
  ∀ (cap : Nat) (s codes : List Word), s.length ≤ 2 ^ 30 → lzwEncode cap s = .ok codes → lzwDecode cap codes = .ok s

/-- 42_lzw R272, R274, R275: the first symbol outside [0, 256); what the encoder emits for bytes while the dictionary has
room, and the symbol whose insertion finds it full (the dictionary takes `cap - 256` entries after the seeds, one after each
word but the last); and that with room for every symbol it is never full. The bound on the length is 00_scope R14. -/
def Obligations.LzwEncoderErrors : Prop :=
  (∀ (cap : Nat) (s : List Word) (i : Nat) (x : Word), s[i]? = some x → (x.toInt < 0 ∨ 255 < x.toInt) →
    (∀ j y, j < i → s[j]? = some y → 0 ≤ y.toInt ∧ y.toInt ≤ 255) →
    lzwEncode cap s = .error ⟨.encLzwSymbolRange, i⟩) ∧
    (∀ s : List Word, (∀ x ∈ s, x.toNat < 256) → s.length ≤ 2 ^ 30 → ∃ ws codes, LzwParse s ws codes ∧
      ∀ cap, (ws.length ≤ cap - 256 + 1 → lzwEncode cap s = .ok codes) ∧
        (cap - 256 + 1 < ws.length →
          lzwEncode cap s = .error ⟨.encLzwDictFull, (ws.take (cap - 256 + 1)).flatten.length⟩)) ∧
    ∀ (cap : Nat) (s : List Word) (e : OpError), 256 + s.length ≤ cap → lzwEncode cap s = .error e →
      e.name = .encLzwSymbolRange

/-- 42_lzw R277 to R279, R274, R281: the empty list, the first code, and after any accepted codes one more: beyond the next
to be assigned, with the dictionary full, or accepted, when it adds the word of a known code or of the code not yet defined;
and that every output symbol is a byte. -/
def Obligations.LzwDecodeRules : Prop :=
  ∀ cap : Nat, lzwDecode cap [] = .ok [] ∧
    (∀ (k : Word) (rest : List Word), 256 ≤ k.toNat → lzwDecode cap (k :: rest) = .error ⟨.decLzwBadCode, 0⟩) ∧
    (∀ k : Word, k.toNat < 256 → lzwDecode cap [k] = .ok [k]) ∧
    ∀ codes out, codes ≠ [] → lzwDecode cap codes = .ok out →
      (∀ x ∈ out, x.toNat < 256) ∧
        ∃ ws, LzwWords codes ws ∧ out = ws.flatten ∧
          ∀ (k : Word) (rest : List Word),
            (256 + (codes.length - 1) < k.toNat →
              lzwDecode cap (codes ++ k :: rest) = .error ⟨.decLzwBadCode, codes.length⟩) ∧
              (k.toNat ≤ 256 + (codes.length - 1) → cap ≤ 256 + (codes.length - 1) →
                lzwDecode cap (codes ++ k :: rest) = .error ⟨.decLzwDictFull, codes.length⟩) ∧
              (k.toNat ≤ 256 + (codes.length - 1) → 256 + (codes.length - 1) < cap →
                lzwDecode cap (codes ++ [k]) = .ok (out ++ lzwNextWord ws k.toNat))

/-! ### Huffman -/

/-- 40_huffman R215, 70_reset_and_hazards R507: HUF_ENC completes on every input whose bitstring NBITS can count, for
which 64 bits a symbol is always enough. -/
def Obligations.HufEncCompletes : Prop :=
  ∀ (s : State) (c : Snapshot), s.seq = .busy c → Admitted .hufEnc s.params c →
    64 * c.srcLen.toNat ≤ 2 ^ 32 - 1 → 2 + 4 * c.srcLen.toNat + 2 * c.srcLen.toNat ≤ c.dstCap.toNat →
    ∃ w t, hufEncode (s.input c) = .ok w ∧ exec .hufEnc s = .next t ∧ s.CompletedWith c w t

/-- 40_huffman R219: HUF_DEC on the artifact of an encoding gives the encoded sequence. -/
def Obligations.HufDecCompletes : Prop :=
  ∀ (s : State) (c : Snapshot) (x : List Word), s.seq = .busy c → Admitted .hufDec s.params c →
    hufEncode x = .ok (s.input c) → x.length ≤ c.dstCap.toNat →
    ∃ t, exec .hufDec s = .next t ∧ s.CompletedWith c x t

/-- 40_huffman R220. -/
def Obligations.HufRoundTrip : Prop :=
  ∀ s w : List Word, hufEncode s = .ok w → hufDecode w = .ok s

/-- 40_huffman R201 to R205, R208 to R211: frequencies in first-seen order; the tree that popping the two least entries
builds, the first popped on the left; and a table in first-seen order whose codes are the paths of that tree, a prefix
code. -/
def Obligations.HufTableIsAPrefixCode : Prop :=
  ∀ s : List Word,
    freqCount s = s.eraseDups.map (fun x => (x, s.count x)) ∧
      (tableOf s).map Prod.fst = s.eraseDups ∧
      (∀ e ∈ tableOf s, e.2 ≠ []) ∧
      (∀ e ∈ tableOf s, ∀ f ∈ tableOf s, e.2 <+: f.2 → e = f) ∧
      (s ≠ [] → ∃ t, buildTree (freqCount s) = some t ∧ HufBuilds s.eraseDups.length (hufLeaves s) t ∧
        ∀ e ∈ tableOf s,
          (s.eraseDups.length = 1 → e.2 = [false]) ∧ (2 ≤ s.eraseDups.length → t.leafAt e.2 = some e.1))

/-- 40_huffman R207, R209, R215: the empty input, and a run of one symbol. -/
def Obligations.HufEmptyAndSingleSymbol : Prop :=
  buildTree (freqCount []) = none ∧ tableOf [] = [] ∧ hufEncode [] = .ok [0, 0] ∧
    ∀ (x : Word) (n : Nat), 1 ≤ n → n ≤ 2 ^ 32 - 1 →
      tableOf (List.replicate n x) = [(x, [false])] ∧
        hufEncode (List.replicate n x) =
          .ok (BitVec.ofNat 32 n :: 1 :: x :: 1 :: 0 :: 0 :: List.replicate (ceilDiv n 32) 0)

/-- 40_huffman R210, R213, R214, 30_encoding R133 to R138: the artifact of an encoding. Its table lists the distinct symbols in
first-seen order and passes validation, its bitstring is the codes of the input in order, and NBITS is their total length. -/
def Obligations.HufArtifact : Prop :=
  ∀ s w : List Word, hufEncode s = .ok w →
    hufShape w ∧ (w.getD 1 0).toNat = s.eraseDups.length ∧
      (∀ e x, s.eraseDups[e]? = some x → tableSymbol w e = x) ∧
      (∀ e, e < s.eraseDups.length → ¬tableEntryFails w e) ∧
      DecodesTo w 0 s (w.getD 0 0).toNat ∧
      (w.getD 0 0).toNat =
        ((List.range s.eraseDups.length).map fun e => s.count (tableSymbol w e) * tableLen w e).sum

/-- 40_huffman R212 (which gives it from general knowledge): no code of an admitted input is longer than 43 bits. -/
def Obligations.HufCodeLengthBound : Prop :=
  ∀ s : List Word, s.length ≤ 2 ^ 30 → ∀ e ∈ tableOf s, e.2.length ≤ 43

/-- 40_huffman R216, R217: the shape checks, then the first table entry that fails. -/
def Obligations.HufShapeAndTableChecks : Prop :=
  ∀ w : List Word,
    (w.length < 2 → hufDecode w = .error ⟨.decTruncated, w.length⟩) ∧
      (2 ≤ w.length → w.length < 2 + 4 * (w.getD 1 0).toNat + ceilDiv (w.getD 0 0).toNat 32 →
        hufDecode w = .error ⟨.decTruncated, w.length⟩) ∧
      (2 ≤ w.length → 2 + 4 * (w.getD 1 0).toNat + ceilDiv (w.getD 0 0).toNat 32 < w.length →
        hufDecode w = .error ⟨.decTrailing, 2 + 4 * (w.getD 1 0).toNat + ceilDiv (w.getD 0 0).toNat 32⟩) ∧
      ∀ e, hufShape w → e < (w.getD 1 0).toNat → tableEntryFails w e → (∀ j, j < e → ¬tableEntryFails w j) →
        hufDecode w = .error ⟨.decHufTableInvalid, e⟩

/-- 40_huffman R218: over a valid table the output is the symbols whose codes the bitstring is made of, and where no code
matches the decode fails there. -/
def Obligations.HufDecodeLoop : Prop :=
  ∀ w : List Word, hufShape w → (∀ e, e < (w.getD 1 0).toNat → ¬tableEntryFails w e) →
    (∀ out, DecodesTo w 0 out (w.getD 0 0).toNat → hufDecode w = .ok out) ∧
      ∀ out p, DecodesTo w 0 out p → p < (w.getD 0 0).toNat → (∀ e, ¬tableMatches w e p) →
        hufDecode w = .error ⟨.decHufNoMatch, p⟩

/-! ### Deflate -/

/-- 43_deflate R309, 70_reset_and_hazards R507: DEF_ENC completes on every input, within the bound of R507. -/
def Obligations.DefEncCompletes : Prop :=
  ∀ (s : State) (c : Snapshot), s.seq = .busy c → Admitted .defEnc s.params c →
    1 + c.srcLen.toNat + 2 * ceilDiv c.srcLen.toNat 65536 ≤ c.dstCap.toNat →
    ∃ w t, defEncode (s.input c) c.maxOffset.toNat c.maxLength.toNat = .ok w ∧ exec .defEnc s = .next t ∧
      s.CompletedWith c w t

/-- 43_deflate R314: DEF_DEC on the artifact of an encoding gives the encoded sequence. -/
def Obligations.DefDecCompletes : Prop :=
  ∀ (s : State) (c : Snapshot) (x : List Word) (mo ml : Nat), s.seq = .busy c → Admitted .defDec s.params c →
    1 ≤ mo → mo ≤ 65535 → 1 ≤ ml → ml ≤ 65535 →
    defEncode x mo ml = .ok (s.input c) → x.length ≤ c.dstCap.toNat →
    ∃ t, exec .defDec s = .next t ∧ s.CompletedWith c x t

/-- 43_deflate R316, on the inputs a buffer holds (00_scope R14): encoding succeeds and decoding gives the input back. -/
def Obligations.DefRoundTrip : Prop :=
  ∀ (s : List Word) (mo ml : Nat), 1 ≤ mo → mo ≤ 65535 → 1 ≤ ml → ml ≤ 65535 → s.length ≤ 2 ^ 30 →
    ∃ w, defEncode s mo ml = .ok w ∧ defDecode w = .ok s

/-- 43_deflate R301, R304 to R308, R317: the chunks of an input; what the encoder writes for each, Stored exactly when the
two artifacts cost at least 5 bits a symbol; and that pairwise distinct symbols are stored. -/
def Obligations.DefChunksAndStored : Prop :=
  (∀ s : List Word, (inputChunks s).flatten = s ∧ (inputChunks s).length = ceilDiv s.length 65536 ∧
    (∀ q ch, (inputChunks s)[q]? = some ch → ch ≠ [] ∧ ch.length ≤ 65536 ∧
      (q + 1 < (inputChunks s).length → ch.length = 65536))) ∧
    (∀ (s : List Word) (mo ml : Nat), 1 ≤ mo → mo ≤ 65535 → 1 ≤ ml → ml ≤ 65535 →
      ∃ records : List (List Word), records.length = ceilDiv s.length 65536 ∧
        defEncode s mo ml = .ok (BitVec.ofNat 32 (ceilDiv s.length 65536) :: records.flatten) ∧
        ∀ (q : Nat) (ch r : List Word), (inputChunks s)[q]? = some ch → records[q]? = some r →
          ∃ a b,
            hufEncode ((lz77Encode ch mo ml).map fun w => BitVec.ofNat 32 w.length) = .ok a ∧
              hufEncode ((lz77Encode ch mo ml).flatMap fun w => [BitVec.ofNat 32 w.offset, w.literal]) = .ok b ∧
              (5 * ch.length ≤ artifactCost a + artifactCost b → r = 0 :: BitVec.ofNat 32 ch.length :: ch) ∧
              (artifactCost a + artifactCost b < 5 * ch.length → r = 1 :: (a ++ b))) ∧
    ∀ (s : List Word) (mo ml : Nat), 1 ≤ mo → mo ≤ 65535 → 1 ≤ ml → ml ≤ 65535 →
      s.Nodup → 1 ≤ s.length → s.length ≤ 65536 →
      defEncode s mo ml = .ok (1 :: 0 :: BitVec.ofNat 32 s.length :: s)

/-- 43_deflate R310 to R313, R315: any records that decode, and then the end of the input, more words, or record `q` with
each of its errors, which are reported at `q` in this order. -/
def Obligations.DefRecordRules : Prop :=
  defDecode [] = .error ⟨.decTruncated, 0⟩ ∧
    ∀ (nch : Word) (rs : List (List Word × List Word)), (∀ r ∈ rs, RecordGives r.1 r.2) →
      (rs.length = nch.toNat →
        defDecode (nch :: rs.flatMap Prod.fst) = .ok (rs.flatMap Prod.snd) ∧
          ∀ x more, defDecode (nch :: (rs.flatMap Prod.fst ++ x :: more)) =
            .error ⟨.decTrailing, 1 + (rs.flatMap Prod.fst).length⟩) ∧
        (rs.length < nch.toNat →
          let fails := fun (w : List Word) (e : ErrName) =>
            defDecode (nch :: (rs.flatMap Prod.fst ++ w)) = .error ⟨e, rs.length⟩
          fails [] .decTruncated ∧
            (∀ tag w, tag ≠ 0 → tag ≠ 1 → fails (tag :: w) .decDefBadTag) ∧
            fails [0] .decTruncated ∧
            (∀ (n : Word) (syms : List Word), syms.length < n.toNat → fails (0 :: n :: syms) .decTruncated) ∧
            (∀ w, (¬∃ a b more, hufShape a ∧ hufShape b ∧ w = a ++ b ++ more) → fails (1 :: w) .decTruncated) ∧
            ∀ a b more, hufShape a → hufShape b →
              (∀ e, hufDecode a = .error e → fails (1 :: (a ++ b ++ more)) e.name) ∧
                ∀ ls, hufDecode a = .ok ls →
                  (∀ e, hufDecode b = .error e → fails (1 :: (a ++ b ++ more)) e.name) ∧
                    ∀ ms, hufDecode b = .ok ms →
                      (ms.length ≠ 2 * ls.length → fails (1 :: (a ++ b ++ more)) .decDefZipMismatch) ∧
                        (ms.length = 2 * ls.length → ¬fieldsFit ls ms →
                          fails (1 :: (a ++ b ++ more)) .decDefFieldRange) ∧
                        (ms.length = 2 * ls.length → fieldsFit ls ms → ∀ e,
                          lz77Decode (zipCodewords ls ms) = .error e → fails (1 :: (a ++ b ++ more)) e.name))
end

