-- ==== Sys2Proof/Laws/Bits.lean ====
section
/-! SUPPORT. Bit patterns as numbers, bitstrings as words. -/

namespace Sys2Proof.Machine

@[simp] theorem natBits_length (n v : Nat) : (natBits n v).length = n := by simp [natBits]

theorem natBits_getElem? (n v k : Nat) : (natBits n v)[k]? = if k < n then some (v.testBit k) else none := by
  by_cases h : k < n
  · simp [natBits, h]
  · simp [natBits, h]

theorem bitsToNat_lt (bs : List Bool) : bitsToNat bs < 2 ^ bs.length := by
  induction bs with
  | nil => simp [bitsToNat]
  | cons b bs ih =>
    have hb : b.toNat ≤ 1 := by cases b <;> decide
    simp only [bitsToNat, List.length_cons, Nat.pow_succ]
    omega

/-- Bit `k` of the number is element `k` of the pattern (30_encoding R135). -/
theorem testBit_bitsToNat (bs : List Bool) (k : Nat) : (bitsToNat bs).testBit k = bs.getD k false := by
  induction bs generalizing k with
  | nil => simp [bitsToNat]
  | cons b bs ih =>
    have hb : (b.toNat + 2 * bitsToNat bs) / 2 = bitsToNat bs := by
      have : b.toNat ≤ 1 := by cases b <;> decide
      omega
    cases k with
    | zero => cases b <;> simp [bitsToNat, Nat.testBit_zero]
    | succ k => simp only [bitsToNat, Nat.testBit_succ, hb, ih, List.getD_cons_succ]

theorem natBits_bitsToNat (bs : List Bool) : natBits bs.length (bitsToNat bs) = bs := by
  apply List.ext_getElem?
  intro k
  rw [natBits_getElem?, testBit_bitsToNat]
  by_cases h : k < bs.length
  · simp [h]
  · simp [h]

/-- Taking the first `m` bits of a pattern is reducing its number modulo `2^m` (30_encoding R135). -/
theorem bitsToNat_take (bs : List Bool) (m : Nat) : bitsToNat (bs.take m) = bitsToNat bs % 2 ^ m := by
  apply Nat.eq_of_testBit_eq
  intro k
  rw [testBit_bitsToNat, Nat.testBit_mod_two_pow, testBit_bitsToNat]
  by_cases h : k < m
  · simp [List.getD_eq_getElem?_getD, h]
  · simp [List.getD_eq_getElem?_getD, h]

theorem bitsToNat_inj {a b : List Bool} (hl : a.length = b.length) (h : bitsToNat a = bitsToNat b) : a = b := by
  rw [← natBits_bitsToNat a, ← natBits_bitsToNat b, hl, h]

/-- Two patterns agree on their common length exactly when their numbers agree modulo a power of two (30_encoding R135,
40_huffman R217). -/
theorem bitsToNat_mod_eq_iff (a b : List Bool) (m : Nat) (ha : m ≤ a.length) (hb : m ≤ b.length) :
    bitsToNat a % 2 ^ m = bitsToNat b % 2 ^ m ↔ a.take m = b.take m := by
  rw [← bitsToNat_take, ← bitsToNat_take]
  exact ⟨fun h => bitsToNat_inj (by simp; omega) h, fun h => by rw [h]⟩

/-- The low `n` bits of a number, as a number (30_encoding R135). -/
theorem bitsToNat_natBits (n v : Nat) : bitsToNat (natBits n v) = v % 2 ^ n := by
  apply Nat.eq_of_testBit_eq
  intro k
  rw [testBit_bitsToNat, Nat.testBit_mod_two_pow, List.getD_eq_getElem?_getD, natBits_getElem?]
  by_cases h : k < n <;> simp [h]

/-! ### Packing -/

@[simp] theorem packWords_length (n : Nat) (bs : List Bool) : (packWords n bs).length = n := by
  induction n generalizing bs with
  | zero => rfl
  | succ n ih => simp [packWords, ih]

@[simp] theorem packBits_length (bs : List Bool) : (packBits bs).length = ceilDiv bs.length 32 := packWords_length _ _

theorem unpackBits_length (ws : List Word) : (unpackBits ws).length = 32 * ws.length := by
  induction ws with
  | nil => rfl
  | cons w ws ih =>
    simp only [unpackBits, List.flatMap_cons, List.length_append, natBits_length, List.length_cons] at ih ⊢
    omega

/-- Bit `k` of a bitstring is bit `k mod 32` of its word `k / 32` (30_encoding R136). -/
theorem unpackBits_getElem? (ws : List Word) (k : Nat) :
    (unpackBits ws)[k]? = ws[k / 32]?.map fun w => w.getLsbD (k % 32) := by
  induction ws generalizing k with
  | nil => simp [unpackBits]
  | cons w ws ih =>
    simp only [unpackBits, List.flatMap_cons] at ih ⊢
    by_cases h : k < 32
    · rw [List.getElem?_append_left (by simpa using h), natBits_getElem?, if_pos h, Nat.div_eq_of_lt h, Nat.mod_eq_of_lt h]
      simp [BitVec.getLsbD]
    · rw [List.getElem?_append_right (by simpa using h), natBits_length, ih]
      have h1 : k / 32 = (k - 32) / 32 + 1 := by omega
      have h2 : k % 32 = (k - 32) % 32 := by omega
      rw [h1, h2, List.getElem?_cons_succ]

/-- Bit `k` of the packed words: the bitstring's, and padding is 0 (30_encoding R136, R137). -/
theorem packWords_getLsbD (n : Nat) (bs : List Bool) (j t : Nat) (hj : j < n) (ht : t < 32) :
    ((packWords n bs).getD j 0).getLsbD t = bs.getD (32 * j + t) false := by
  induction n generalizing bs j with
  | zero => omega
  | succ n ih =>
    cases j with
    | zero =>
      simp only [packWords, List.getD_cons_zero, BitVec.getLsbD_ofNat, ht, decide_true, Bool.true_and,
        testBit_bitsToNat, Nat.mul_zero, Nat.zero_add]
      simp [List.getD_eq_getElem?_getD, ht]
    | succ j =>
      simp only [packWords, List.getD_cons_succ]
      rw [ih _ _ (by omega)]
      simp only [List.getD_eq_getElem?_getD, List.getElem?_drop]
      rw [show 32 + (32 * j + t) = 32 * (j + 1) + t by omega]

theorem le_ceilDiv_mul (a b : Nat) (hb : 0 < b) : a ≤ b * ceilDiv a b := by
  unfold ceilDiv
  have := Nat.div_add_mod (a + b - 1) b
  have := Nat.mod_lt (a + b - 1) hb
  omega

/-- A bitstring is the first bits of its words (30_encoding R136). -/
theorem take_unpackBits_packBits (bs : List Bool) : (unpackBits (packBits bs)).take bs.length = bs := by
  apply List.ext_getElem?
  intro k
  by_cases h : k < bs.length
  · have hc := le_ceilDiv_mul bs.length 32 (by omega)
    have hj : k / 32 < ceilDiv bs.length 32 := by omega
    rw [List.getElem?_take, if_pos h, unpackBits_getElem?, List.getElem?_eq_getElem (by simpa using hj)]
    have hp := packWords_getLsbD (ceilDiv bs.length 32) bs (k / 32) (k % 32) hj (by omega)
    rw [List.getD_eq_getElem _ _ (by simpa using hj), show 32 * (k / 32) + k % 32 = k by omega] at hp
    simp only [Option.map_some, packBits, hp]
    simp [List.getD_eq_getElem?_getD, h]
  · rw [List.getElem?_take, if_neg h, List.getElem?_eq_none (by omega)]

end Sys2Proof.Machine
end

