-- ==== Sys2Proof/Laws/Memory.lean ====
section
/-! SUPPORT. Data memory: a read after a write, frames, the canonical form, words, and the BACKED search. -/

namespace Sys2Proof.Machine

/-! ### Cells -/

@[simp] theorem cellsAt_nil (a : Nat) : cellsAt a [] = [] := rfl

@[simp] theorem cellsAt_cons (a : Nat) (b : Byte) (bs : List Byte) :
    cellsAt a (b :: bs) = (a, b) :: cellsAt (a + 1) bs := rfl

theorem mem_cellsAt {a : Nat} {bs : List Byte} {c : Host.Cell} (h : c ∈ cellsAt a bs) :
    a ≤ c.1 ∧ c.1 < a + bs.length := by
  induction bs generalizing a with
  | nil => simp at h
  | cons b bs ih =>
    rcases List.mem_cons.1 h with rfl | h
    · simp
    · have := ih h
      simp only [List.length_cons]
      omega

theorem find_cellsAt (a : Nat) (bs : List Byte) (x : Nat) :
    (cellsAt a bs).find? (fun c => c.1 == x) =
      if h : a ≤ x ∧ x < a + bs.length then some (x, bs[x - a]'(by omega)) else none := by
  induction bs generalizing a with
  | nil => simp
  | cons b bs ih =>
    rw [cellsAt_cons, List.find?_cons]
    by_cases hx : a = x
    · subst hx
      simp
    · rw [show ((a, b).1 == x) = false by simpa using hx, ih]
      by_cases h : a + 1 ≤ x ∧ x < a + 1 + bs.length
      · have h' : a ≤ x ∧ x < a + (b :: bs).length := by simp only [List.length_cons]; omega
        rw [dif_pos h, dif_pos h']
        obtain ⟨k, rfl⟩ : ∃ k, x = a + 1 + k := ⟨x - (a + 1), by omega⟩
        simp [show a + 1 + k - a = k + 1 by omega]
      · have h' : ¬(a ≤ x ∧ x < a + (b :: bs).length) := by simp only [List.length_cons]; omega
        rw [dif_neg h, dif_neg h']

theorem pairwise_cellsAt (a : Nat) (bs : List Byte) : (cellsAt a bs).Pairwise (fun c d => c.1 < d.1) := by
  induction bs generalizing a with
  | nil => exact List.Pairwise.nil
  | cons b bs ih =>
    refine List.Pairwise.cons (fun c hc => ?_) (ih (a + 1))
    have := mem_cellsAt hc
    show a < c.1
    omega

/-! ### Reading after a write -/

/-- Everything a write does to a read: the stored bytes at `[a, a + bs.length)`, the old bytes elsewhere. -/
theorem Memory.read_write (m : Memory) (a : Nat) (bs : List Byte) (x : Nat) :
    (m.write a bs).read x =
      if h : a ≤ x ∧ x < a + bs.length then bs[x - a]'(by omega) else m.read x := by
  have hf : ∀ (l : Memory) (p : Host.Cell → Bool) (_ : ∀ c ∈ l, c.1 = x → p c = false),
      (l.filter p).find? (fun c => c.1 == x) = none := by
    intro l p hp
    rw [List.find?_eq_none]
    intro c hc hx
    rw [List.mem_filter] at hc
    rw [hp c hc.1 (by simpa using hx)] at hc
    simp at hc
  have hg : ∀ (l : Memory) (p : Host.Cell → Bool) (_ : ∀ c ∈ l, c.1 = x → p c = true),
      (l.filter p).find? (fun c => c.1 == x) = l.find? (fun c => c.1 == x) := by
    intro l p hp
    induction l with
    | nil => rfl
    | cons c l ih =>
      have ih := ih (fun d hd => hp d (List.mem_cons_of_mem _ hd))
      by_cases hpc : p c = true
      · rw [List.filter_cons_of_pos hpc, List.find?_cons, List.find?_cons, ih]
      · have hne : (c.1 == x) = false := by
          simp only [beq_eq_false_iff_ne, ne_eq]
          exact fun hc => hpc (hp c (by simp) hc)
        rw [List.filter_cons_of_neg hpc, List.find?_cons, ih, hne]
  unfold Memory.read Memory.write
  rw [List.find?_append, List.find?_append, find_cellsAt]
  by_cases h : a ≤ x ∧ x < a + bs.length
  · rw [dif_pos h, dif_pos h, hf m _ (by intro c _ hx; simp; omega)]
    simp
  · rw [dif_neg h, dif_neg h]
    by_cases hx : x < a
    · rw [hg m _ (by intro c _ hc; simp; omega), hf m (fun c => decide (a + bs.length ≤ c.1))
        (by intro c _ hc; simp; omega)]
      simp
    · rw [hf m _ (by intro c _ hc; simp; omega), hg m (fun c => decide (a + bs.length ≤ c.1))
        (by intro c _ hc; simp; omega)]
      simp

theorem Memory.read_write_of_outside (m : Memory) (a : Nat) (bs : List Byte) (x : Nat)
    (h : x < a ∨ a + bs.length ≤ x) : (m.write a bs).read x = m.read x := by
  rw [Memory.read_write, dif_neg (by omega)]

theorem Memory.read_write_at (m : Memory) (a : Nat) (bs : List Byte) (k : Nat) (h : k < bs.length) :
    (m.write a bs).read (a + k) = bs[k] := by
  rw [Memory.read_write, dif_pos (by omega)]
  simp

/-! ### The canonical form -/

/-- A write inside the address space keeps the canonical form. -/
theorem Memory.wf_write {m : Memory} (hm : m.wf) (a : Nat) (bs : List Byte) (h : bs = [] ∨ a + bs.length ≤ 2 ^ 32) :
    (m.write a bs).wf := by
  refine ⟨?_, ?_⟩
  · unfold Memory.write
    rw [List.pairwise_append, List.pairwise_append]
    refine ⟨⟨hm.1.filter _, pairwise_cellsAt a bs, ?_⟩, hm.1.filter _, ?_⟩
    · intro c hc d hd
      have := mem_cellsAt hd
      simp only [List.mem_filter, decide_eq_true_eq] at hc
      omega
    · intro c hc d hd
      simp only [List.mem_filter, decide_eq_true_eq] at hd
      rcases List.mem_append.1 hc with hc | hc
      · simp only [List.mem_filter, decide_eq_true_eq] at hc
        omega
      · have := mem_cellsAt hc
        omega
  · intro c hc
    simp only [Memory.write, List.mem_append, List.mem_filter] at hc
    rcases hc with (⟨hc, _⟩ | hc) | ⟨hc, _⟩
    · exact hm.2 c hc
    · have := mem_cellsAt hc
      rcases h with rfl | h
      · simp at hc
      · omega
    · exact hm.2 c hc

theorem Memory.wf_nil : Memory.wf [] := ⟨List.Pairwise.nil, by simp⟩

/-! ### Words -/

@[simp] theorem wordBytes_length (w : Word) : (wordBytes w).length = 4 := rfl

/-- A word is its four bytes, least significant first (20_memory R83). -/
theorem wordOfBytes_wordBytes (w : Word) :
    wordOfBytes (w.extractLsb' 0 8) (w.extractLsb' 8 8) (w.extractLsb' 16 8) (w.extractLsb' 24 8) = w := by
  unfold wordOfBytes
  apply BitVec.eq_of_getLsbD_eq
  intro i hi
  simp only [BitVec.getLsbD_append, BitVec.getLsbD_extractLsb']
  by_cases h0 : i < 8
  · simp [h0]
  · by_cases h1 : i < 16
    · simp [h0, show i - 8 < 8 by omega, show 8 + (i - 8) = i by omega]
    · by_cases h2 : i < 24
      · simp [h0, show ¬(i - 8 < 8) by omega, show i - 8 - 8 < 8 by omega, show 16 + (i - 8 - 8) = i by omega]
      · simp [h0, show ¬(i - 8 < 8) by omega, show ¬(i - 8 - 8 < 8) by omega, show i - 8 - 8 - 8 < 8 by omega,
          show 24 + (i - 8 - 8 - 8) = i by omega]

theorem wordOfBytes_toNat (b0 b1 b2 b3 : Byte) :
    (wordOfBytes b0 b1 b2 b3).toNat = b0.toNat + 2 ^ 8 * b1.toNat + 2 ^ 16 * b2.toNat + 2 ^ 24 * b3.toNat := by
  have h0 := b0.isLt
  have h1 := b1.isLt
  have h2 := b2.isLt
  simp only [wordOfBytes, BitVec.toNat_append]
  rw [← Nat.shiftLeft_add_eq_or_of_lt h0, ← Nat.shiftLeft_add_eq_or_of_lt h1, ← Nat.shiftLeft_add_eq_or_of_lt h2]
  simp only [Nat.shiftLeft_eq]
  omega

theorem flatMap_wordBytes_length (ws : List Word) : (ws.flatMap wordBytes).length = 4 * ws.length := by
  induction ws with
  | nil => rfl
  | cons w ws ih => simp only [List.flatMap_cons, List.length_append, ih, wordBytes_length, List.length_cons]; omega

theorem Memory.words_length (m : Memory) (base n : Nat) : (m.words base n).length = n := by simp [Memory.words]

theorem Memory.words_succ (m : Memory) (base n : Nat) :
    m.words base (n + 1) = m.readWord base :: m.words (base + 4) n := by
  simp only [Memory.words, List.range_succ_eq_map, List.map_cons, List.map_map, Nat.mul_zero, Nat.add_zero]
  congr 1
  apply List.map_congr_left
  intro i _
  simp only [Function.comp]
  congr 1
  omega

/-- Two memories that agree on the bytes of a range hold the same words there. -/
theorem Memory.words_congr {m m' : Memory} {base n : Nat}
    (h : ∀ a, base ≤ a → a < base + 4 * n → m.read a = m'.read a) : m.words base n = m'.words base n := by
  unfold Memory.words
  apply List.map_congr_left
  intro i hi
  have hi := List.mem_range.1 hi
  unfold Memory.readWord
  rw [h (base + 4 * i) (by omega) (by omega), h (base + 4 * i + 1) (by omega) (by omega),
    h (base + 4 * i + 2) (by omega) (by omega), h (base + 4 * i + 3) (by omega) (by omega)]

theorem getElem_flatMap_wordBytes (ws : List Word) (i k : Nat) (hi : i < ws.length) (hk : k < 4) :
    (ws.flatMap wordBytes)[4 * i + k]'(by rw [flatMap_wordBytes_length]; omega) =
      (wordBytes ws[i])[k]'(by simpa using hk) := by
  induction ws generalizing i with
  | nil => simp at hi
  | cons w ws ih =>
    cases i with
    | zero =>
      simp only [List.flatMap_cons, Nat.mul_zero, Nat.zero_add, List.getElem_cons_zero]
      rw [List.getElem_append_left]
    | succ i =>
      simp only [List.flatMap_cons, List.getElem_cons_succ]
      rw [List.getElem_append_right (by simp; omega)]
      simp only [wordBytes_length, show 4 * (i + 1) + k - 4 = 4 * i + k by omega]
      exact ih i (by simpa using hi)

/-- The words written are the words read (10_state R56, 20_memory R83). -/
theorem Memory.words_writeWords (m : Memory) (base : Nat) (ws : List Word) :
    (m.writeWords base ws).words base ws.length = ws := by
  apply List.ext_getElem
  · exact Memory.words_length _ _ _
  · intro i h1 h2
    have hr : ∀ k (hk : k < 4), (m.writeWords base ws).read (base + 4 * i + k) = (wordBytes ws[i])[k]'(by simpa using hk) := by
      intro k hk
      unfold Memory.writeWords
      have hl : 4 * i + k < (ws.flatMap wordBytes).length := by rw [flatMap_wordBytes_length]; omega
      rw [show base + 4 * i + k = base + (4 * i + k) by omega, Memory.read_write_at _ _ _ _ hl]
      exact getElem_flatMap_wordBytes ws i k h2 hk
    simp only [Memory.words, List.getElem_map, List.getElem_range, Memory.readWord]
    have h0 := hr 0 (by omega)
    rw [Nat.add_zero] at h0
    rw [h0, hr 1 (by omega), hr 2 (by omega), hr 3 (by omega)]
    exact wordOfBytes_wordBytes ws[i]

theorem Memory.read_writeWords_of_outside (m : Memory) (base : Nat) (ws : List Word) (x : Nat)
    (h : x < base ∨ base + 4 * ws.length ≤ x) : (m.writeWords base ws).read x = m.read x :=
  Memory.read_write_of_outside _ _ _ _ (by rw [flatMap_wordBytes_length]; exact h)

theorem Memory.wf_writeWords {m : Memory} (hm : m.wf) (base : Nat) (ws : List Word)
    (h : ws = [] ∨ base + 4 * ws.length ≤ 2 ^ 32) : (m.writeWords base ws).wf := by
  apply Memory.wf_write hm
  rcases h with rfl | h
  · exact .inl rfl
  · exact .inr (by rw [flatMap_wordBytes_length]; exact h)

/-! ### BACKED -/

theorem Params.backs_iff (p : Params) (a : Nat) :
    p.backs a = true ↔ ∃ r ∈ p.backed, r.base ≤ a ∧ a < r.base + r.size := by
  simp [Params.backs, Region.holds]

theorem firstUnbackedFrom_spec (p : Params) (fuel a stop : Nat) (hf : stop ≤ a + fuel) :
    (∀ x, firstUnbackedFrom p.backed fuel a stop = some x →
      a ≤ x ∧ x < stop ∧ p.backs x = false ∧ ∀ y, a ≤ y → y < x → p.backs y = true) ∧
    (firstUnbackedFrom p.backed fuel a stop = none → ∀ y, a ≤ y → y < stop → p.backs y = true) := by
  induction fuel generalizing a with
  | zero =>
    refine ⟨by simp [firstUnbackedFrom], fun _ y h1 h2 => ?_⟩
    omega
  | succ fuel ih =>
    unfold firstUnbackedFrom
    by_cases hlt : a < stop
    · rw [if_pos hlt]
      cases hfind : p.backed.find? (Region.holds a) with
      | none =>
        refine ⟨fun x hx => ?_, by simp⟩
        obtain rfl : a = x := by simpa using hx
        refine ⟨le_refl _, hlt, ?_, fun y _ _ => by omega⟩
        rw [List.find?_eq_none] at hfind
        simpa [Params.backs] using hfind
      | some r =>
        have hr := List.find?_some hfind
        have hmem := List.mem_of_find?_eq_some hfind
        simp only [Region.holds, Bool.and_eq_true, decide_eq_true_eq] at hr
        have hall : ∀ y, a ≤ y → y < r.base + r.size → p.backs y = true := fun y h1 h2 =>
          (p.backs_iff y).2 ⟨r, hmem, by omega, h2⟩
        obtain ⟨h1, h2⟩ := ih (r.base + r.size) (by omega)
        refine ⟨fun x hx => ?_, fun hn y ha hs => ?_⟩
        · obtain ⟨hx1, hx2, hx3, hx4⟩ := h1 x hx
          refine ⟨by omega, hx2, hx3, fun y ha hy => ?_⟩
          by_cases hy' : y < r.base + r.size
          · exact hall y ha hy'
          · exact hx4 y (by omega) hy
        · by_cases hy' : y < r.base + r.size
          · exact hall y ha hy'
          · exact h2 hn y (by omega) hs
    · rw [if_neg hlt]
      refine ⟨by simp, fun _ y h1 h2 => ?_⟩
      omega

/-- The search finds the first unbacked byte of `[a, a + n)` (60_exceptions R414). -/
theorem Params.firstUnbacked_some {p : Params} {a n x : Nat} (h : p.firstUnbacked a n = some x) :
    a ≤ x ∧ x < a + n ∧ p.backs x = false ∧ ∀ y, a ≤ y → y < x → p.backs y = true :=
  (firstUnbackedFrom_spec p n a (a + n) (by omega)).1 x h

theorem Params.firstUnbacked_none {p : Params} {a n : Nat} :
    p.firstUnbacked a n = none ↔ ∀ y, a ≤ y → y < a + n → p.backs y = true := by
  refine ⟨(firstUnbackedFrom_spec p n a (a + n) (by omega)).2, fun h => ?_⟩
  cases hf : p.firstUnbacked a n with
  | none => rfl
  | some x =>
    obtain ⟨h1, h2, h3, _⟩ := Params.firstUnbacked_some hf
    rw [h x h1 h2] at h3
    simp at h3

end Sys2Proof.Machine
end

