-- ==== Sys2Proof/Laws/State.lean ====
section
/-! SUPPORT. One lemma per field per update of State, so that no later proof unfolds a record update. -/

namespace Sys2Proof.Machine

/-! ### `scrambleDst`: The DST range becomes unspecified (20_memory R90). -/

@[simp] theorem State.scrambleDst_ieDone (c : Snapshot) (s : State) : (s.scrambleDst c).ieDone = s.ieDone := rfl
@[simp] theorem State.scrambleDst_ieErr (c : Snapshot) (s : State) : (s.scrambleDst c).ieErr = s.ieErr := rfl
@[simp] theorem State.scrambleDst_done (c : Snapshot) (s : State) : (s.scrambleDst c).done = s.done := rfl
@[simp] theorem State.scrambleDst_err (c : Snapshot) (s : State) : (s.scrambleDst c).err = s.err := rfl
@[simp] theorem State.scrambleDst_rej (c : Snapshot) (s : State) : (s.scrambleDst c).rej = s.rej := rfl
@[simp] theorem State.scrambleDst_cmdReadback (c : Snapshot) (s : State) : (s.scrambleDst c).cmdReadback = s.cmdReadback := rfl
@[simp] theorem State.scrambleDst_errKind (c : Snapshot) (s : State) : (s.scrambleDst c).errKind = s.errKind := rfl
@[simp] theorem State.scrambleDst_errCode (c : Snapshot) (s : State) : (s.scrambleDst c).errCode = s.errCode := rfl
@[simp] theorem State.scrambleDst_errPos (c : Snapshot) (s : State) : (s.scrambleDst c).errPos = s.errPos := rfl
@[simp] theorem State.scrambleDst_dstLen (c : Snapshot) (s : State) : (s.scrambleDst c).dstLen = s.dstLen := rfl
@[simp] theorem State.scrambleDst_srcAddr (c : Snapshot) (s : State) : (s.scrambleDst c).srcAddr = s.srcAddr := rfl
@[simp] theorem State.scrambleDst_srcLen (c : Snapshot) (s : State) : (s.scrambleDst c).srcLen = s.srcLen := rfl
@[simp] theorem State.scrambleDst_dstAddr (c : Snapshot) (s : State) : (s.scrambleDst c).dstAddr = s.dstAddr := rfl
@[simp] theorem State.scrambleDst_dstCap (c : Snapshot) (s : State) : (s.scrambleDst c).dstCap = s.dstCap := rfl
@[simp] theorem State.scrambleDst_maxOffset (c : Snapshot) (s : State) : (s.scrambleDst c).maxOffset = s.maxOffset := rfl
@[simp] theorem State.scrambleDst_maxLength (c : Snapshot) (s : State) : (s.scrambleDst c).maxLength = s.maxLength := rfl
@[simp] theorem State.scrambleDst_seq (c : Snapshot) (s : State) : (s.scrambleDst c).seq = s.seq := rfl
@[simp] theorem State.scrambleDst_rst (c : Snapshot) (s : State) : (s.scrambleDst c).rst = s.rst := rfl
@[simp] theorem State.scrambleDst_mem (c : Snapshot) (s : State) : (s.scrambleDst c).mem = s.mem.write c.dstAddr.toNat ((List.range c.dstBytes).map (scrambledByte s c)) := rfl
@[simp] theorem State.scrambleDst_params (c : Snapshot) (s : State) : (s.scrambleDst c).params = s.params := rfl
@[simp] theorem State.scrambleDst_host (c : Snapshot) (s : State) : (s.scrambleDst c).host = s.host := rfl
@[simp] theorem State.scrambleDst_hostData (c : Snapshot) (s : State) : (s.scrambleDst c).hostData = s.hostData := rfl
@[simp] theorem State.scrambleDst_handedOver (c : Snapshot) (s : State) : (s.scrambleDst c).handedOver = s.handedOver := rfl
@[simp] theorem State.scrambleDst_delays (c : Snapshot) (s : State) : (s.scrambleDst c).delays = s.delays := rfl
@[simp] theorem State.scrambleDst_delay (c : Snapshot) (s : State) : (s.scrambleDst c).delay = s.delay := rfl
@[simp] theorem State.scrambleDst_free (c : Snapshot) (s : State) : (s.scrambleDst c).free = s.free + c.dstBytes := rfl

/-! ### `resetRegisters`: Every register to its reset value (10_state R63). -/

@[simp] theorem State.resetRegisters_ieDone (s : State) : s.resetRegisters.ieDone = false := rfl
@[simp] theorem State.resetRegisters_ieErr (s : State) : s.resetRegisters.ieErr = false := rfl
@[simp] theorem State.resetRegisters_done (s : State) : s.resetRegisters.done = false := rfl
@[simp] theorem State.resetRegisters_err (s : State) : s.resetRegisters.err = false := rfl
@[simp] theorem State.resetRegisters_rej (s : State) : s.resetRegisters.rej = false := rfl
@[simp] theorem State.resetRegisters_cmdReadback (s : State) : s.resetRegisters.cmdReadback = 0 := rfl
@[simp] theorem State.resetRegisters_errKind (s : State) : s.resetRegisters.errKind = 0 := rfl
@[simp] theorem State.resetRegisters_errCode (s : State) : s.resetRegisters.errCode = 0 := rfl
@[simp] theorem State.resetRegisters_errPos (s : State) : s.resetRegisters.errPos = 0 := rfl
@[simp] theorem State.resetRegisters_dstLen (s : State) : s.resetRegisters.dstLen = 0 := rfl
@[simp] theorem State.resetRegisters_srcAddr (s : State) : s.resetRegisters.srcAddr = 0 := rfl
@[simp] theorem State.resetRegisters_srcLen (s : State) : s.resetRegisters.srcLen = 0 := rfl
@[simp] theorem State.resetRegisters_dstAddr (s : State) : s.resetRegisters.dstAddr = 0 := rfl
@[simp] theorem State.resetRegisters_dstCap (s : State) : s.resetRegisters.dstCap = 0 := rfl
@[simp] theorem State.resetRegisters_maxOffset (s : State) : s.resetRegisters.maxOffset = Config.maxOffsetReset := rfl
@[simp] theorem State.resetRegisters_maxLength (s : State) : s.resetRegisters.maxLength = Config.maxLengthReset := rfl
@[simp] theorem State.resetRegisters_seq (s : State) : s.resetRegisters.seq = .idle := rfl
@[simp] theorem State.resetRegisters_rst (s : State) : s.resetRegisters.rst = s.rst := rfl
@[simp] theorem State.resetRegisters_mem (s : State) : s.resetRegisters.mem = s.mem := rfl
@[simp] theorem State.resetRegisters_params (s : State) : s.resetRegisters.params = s.params := rfl
@[simp] theorem State.resetRegisters_host (s : State) : s.resetRegisters.host = s.host := rfl
@[simp] theorem State.resetRegisters_hostData (s : State) : s.resetRegisters.hostData = s.hostData := rfl
@[simp] theorem State.resetRegisters_handedOver (s : State) : s.resetRegisters.handedOver = [] := rfl
@[simp] theorem State.resetRegisters_delays (s : State) : s.resetRegisters.delays = s.delays := rfl
@[simp] theorem State.resetRegisters_delay (s : State) : s.resetRegisters.delay = 0 := rfl
@[simp] theorem State.resetRegisters_free (s : State) : s.resetRegisters.free = s.free := rfl

/-! ### `accept`: Command accept (10_state R55). -/

@[simp] theorem State.accept_ieDone (v : Word) (s : State) : (s.accept v).ieDone = s.ieDone := rfl
@[simp] theorem State.accept_ieErr (v : Word) (s : State) : (s.accept v).ieErr = s.ieErr := rfl
@[simp] theorem State.accept_done (v : Word) (s : State) : (s.accept v).done = false := rfl
@[simp] theorem State.accept_err (v : Word) (s : State) : (s.accept v).err = false := rfl
@[simp] theorem State.accept_rej (v : Word) (s : State) : (s.accept v).rej = s.rej := rfl
@[simp] theorem State.accept_cmdReadback (v : Word) (s : State) : (s.accept v).cmdReadback = v := rfl
@[simp] theorem State.accept_errKind (v : Word) (s : State) : (s.accept v).errKind = 0 := rfl
@[simp] theorem State.accept_errCode (v : Word) (s : State) : (s.accept v).errCode = 0 := rfl
@[simp] theorem State.accept_errPos (v : Word) (s : State) : (s.accept v).errPos = 0 := rfl
@[simp] theorem State.accept_dstLen (v : Word) (s : State) : (s.accept v).dstLen = 0 := rfl
@[simp] theorem State.accept_srcAddr (v : Word) (s : State) : (s.accept v).srcAddr = s.srcAddr := rfl
@[simp] theorem State.accept_srcLen (v : Word) (s : State) : (s.accept v).srcLen = s.srcLen := rfl
@[simp] theorem State.accept_dstAddr (v : Word) (s : State) : (s.accept v).dstAddr = s.dstAddr := rfl
@[simp] theorem State.accept_dstCap (v : Word) (s : State) : (s.accept v).dstCap = s.dstCap := rfl
@[simp] theorem State.accept_maxOffset (v : Word) (s : State) : (s.accept v).maxOffset = s.maxOffset := rfl
@[simp] theorem State.accept_maxLength (v : Word) (s : State) : (s.accept v).maxLength = s.maxLength := rfl
@[simp] theorem State.accept_seq (v : Word) (s : State) : (s.accept v).seq = .busy (s.sample v) := rfl
@[simp] theorem State.accept_rst (v : Word) (s : State) : (s.accept v).rst = s.rst := rfl
@[simp] theorem State.accept_mem (v : Word) (s : State) : (s.accept v).mem = s.mem := rfl
@[simp] theorem State.accept_params (v : Word) (s : State) : (s.accept v).params = s.params := rfl
@[simp] theorem State.accept_host (v : Word) (s : State) : (s.accept v).host = s.host := rfl
@[simp] theorem State.accept_hostData (v : Word) (s : State) : (s.accept v).hostData = s.hostData := rfl
@[simp] theorem State.accept_handedOver (v : Word) (s : State) : (s.accept v).handedOver = s.sample v :: s.handedOver := rfl
@[simp] theorem State.accept_delays (v : Word) (s : State) : (s.accept v).delays = s.delays.tail := rfl
@[simp] theorem State.accept_delay (v : Word) (s : State) : (s.accept v).delay = s.nextDelay := rfl
@[simp] theorem State.accept_free (v : Word) (s : State) : (s.accept v).free = s.free + 1 := rfl

/-! ### `errorEntry`: Error entry (60_exceptions R422). -/

@[simp] theorem State.errorEntry_ieDone (e : OpError) (s : State) : (s.errorEntry e).ieDone = s.ieDone := rfl
@[simp] theorem State.errorEntry_ieErr (e : OpError) (s : State) : (s.errorEntry e).ieErr = s.ieErr := rfl
@[simp] theorem State.errorEntry_done (e : OpError) (s : State) : (s.errorEntry e).done = s.done := rfl
@[simp] theorem State.errorEntry_err (e : OpError) (s : State) : (s.errorEntry e).err = true := rfl
@[simp] theorem State.errorEntry_rej (e : OpError) (s : State) : (s.errorEntry e).rej = s.rej := rfl
@[simp] theorem State.errorEntry_cmdReadback (e : OpError) (s : State) : (s.errorEntry e).cmdReadback = s.cmdReadback := rfl
@[simp] theorem State.errorEntry_errKind (e : OpError) (s : State) : (s.errorEntry e).errKind = e.name.kind := rfl
@[simp] theorem State.errorEntry_errCode (e : OpError) (s : State) : (s.errorEntry e).errCode = e.name.code := rfl
@[simp] theorem State.errorEntry_errPos (e : OpError) (s : State) : (s.errorEntry e).errPos = BitVec.ofNat 32 e.pos := rfl
@[simp] theorem State.errorEntry_dstLen (e : OpError) (s : State) : (s.errorEntry e).dstLen = 0 := rfl
@[simp] theorem State.errorEntry_srcAddr (e : OpError) (s : State) : (s.errorEntry e).srcAddr = s.srcAddr := rfl
@[simp] theorem State.errorEntry_srcLen (e : OpError) (s : State) : (s.errorEntry e).srcLen = s.srcLen := rfl
@[simp] theorem State.errorEntry_dstAddr (e : OpError) (s : State) : (s.errorEntry e).dstAddr = s.dstAddr := rfl
@[simp] theorem State.errorEntry_dstCap (e : OpError) (s : State) : (s.errorEntry e).dstCap = s.dstCap := rfl
@[simp] theorem State.errorEntry_maxOffset (e : OpError) (s : State) : (s.errorEntry e).maxOffset = s.maxOffset := rfl
@[simp] theorem State.errorEntry_maxLength (e : OpError) (s : State) : (s.errorEntry e).maxLength = s.maxLength := rfl
@[simp] theorem State.errorEntry_seq (e : OpError) (s : State) : (s.errorEntry e).seq = .idle := rfl
@[simp] theorem State.errorEntry_rst (e : OpError) (s : State) : (s.errorEntry e).rst = s.rst := rfl
@[simp] theorem State.errorEntry_mem (e : OpError) (s : State) : (s.errorEntry e).mem = s.mem := rfl
@[simp] theorem State.errorEntry_params (e : OpError) (s : State) : (s.errorEntry e).params = s.params := rfl
@[simp] theorem State.errorEntry_host (e : OpError) (s : State) : (s.errorEntry e).host = s.host := rfl
@[simp] theorem State.errorEntry_hostData (e : OpError) (s : State) : (s.errorEntry e).hostData = s.hostData := rfl
@[simp] theorem State.errorEntry_handedOver (e : OpError) (s : State) : (s.errorEntry e).handedOver = s.handedOver := rfl
@[simp] theorem State.errorEntry_delays (e : OpError) (s : State) : (s.errorEntry e).delays = s.delays := rfl
@[simp] theorem State.errorEntry_delay (e : OpError) (s : State) : (s.errorEntry e).delay = s.delay := rfl
@[simp] theorem State.errorEntry_free (e : OpError) (s : State) : (s.errorEntry e).free = s.free := rfl

/-! ### `succeed`: A successful completion (10_state R56). -/

@[simp] theorem State.succeed_ieDone (c : Snapshot) (out : List Word) (s : State) : (s.succeed c out).ieDone = s.ieDone := rfl
@[simp] theorem State.succeed_ieErr (c : Snapshot) (out : List Word) (s : State) : (s.succeed c out).ieErr = s.ieErr := rfl
@[simp] theorem State.succeed_done (c : Snapshot) (out : List Word) (s : State) : (s.succeed c out).done = true := rfl
@[simp] theorem State.succeed_err (c : Snapshot) (out : List Word) (s : State) : (s.succeed c out).err = s.err := rfl
@[simp] theorem State.succeed_rej (c : Snapshot) (out : List Word) (s : State) : (s.succeed c out).rej = s.rej := rfl
@[simp] theorem State.succeed_cmdReadback (c : Snapshot) (out : List Word) (s : State) : (s.succeed c out).cmdReadback = s.cmdReadback := rfl
@[simp] theorem State.succeed_errKind (c : Snapshot) (out : List Word) (s : State) : (s.succeed c out).errKind = s.errKind := rfl
@[simp] theorem State.succeed_errCode (c : Snapshot) (out : List Word) (s : State) : (s.succeed c out).errCode = s.errCode := rfl
@[simp] theorem State.succeed_errPos (c : Snapshot) (out : List Word) (s : State) : (s.succeed c out).errPos = s.errPos := rfl
@[simp] theorem State.succeed_dstLen (c : Snapshot) (out : List Word) (s : State) : (s.succeed c out).dstLen = BitVec.ofNat 32 out.length := rfl
@[simp] theorem State.succeed_srcAddr (c : Snapshot) (out : List Word) (s : State) : (s.succeed c out).srcAddr = s.srcAddr := rfl
@[simp] theorem State.succeed_srcLen (c : Snapshot) (out : List Word) (s : State) : (s.succeed c out).srcLen = s.srcLen := rfl
@[simp] theorem State.succeed_dstAddr (c : Snapshot) (out : List Word) (s : State) : (s.succeed c out).dstAddr = s.dstAddr := rfl
@[simp] theorem State.succeed_dstCap (c : Snapshot) (out : List Word) (s : State) : (s.succeed c out).dstCap = s.dstCap := rfl
@[simp] theorem State.succeed_maxOffset (c : Snapshot) (out : List Word) (s : State) : (s.succeed c out).maxOffset = s.maxOffset := rfl
@[simp] theorem State.succeed_maxLength (c : Snapshot) (out : List Word) (s : State) : (s.succeed c out).maxLength = s.maxLength := rfl
@[simp] theorem State.succeed_seq (c : Snapshot) (out : List Word) (s : State) : (s.succeed c out).seq = .idle := rfl
@[simp] theorem State.succeed_rst (c : Snapshot) (out : List Word) (s : State) : (s.succeed c out).rst = s.rst := rfl
@[simp] theorem State.succeed_mem (c : Snapshot) (out : List Word) (s : State) : (s.succeed c out).mem = s.mem.writeWords c.dstAddr.toNat out := rfl
@[simp] theorem State.succeed_params (c : Snapshot) (out : List Word) (s : State) : (s.succeed c out).params = s.params := rfl
@[simp] theorem State.succeed_host (c : Snapshot) (out : List Word) (s : State) : (s.succeed c out).host = s.host := rfl
@[simp] theorem State.succeed_hostData (c : Snapshot) (out : List Word) (s : State) : (s.succeed c out).hostData = s.hostData := rfl
@[simp] theorem State.succeed_handedOver (c : Snapshot) (out : List Word) (s : State) : (s.succeed c out).handedOver = s.handedOver := rfl
@[simp] theorem State.succeed_delays (c : Snapshot) (out : List Word) (s : State) : (s.succeed c out).delays = s.delays := rfl
@[simp] theorem State.succeed_delay (c : Snapshot) (out : List Word) (s : State) : (s.succeed c out).delay = s.delay := rfl
@[simp] theorem State.succeed_free (c : Snapshot) (out : List Word) (s : State) : (s.succeed c out).free = s.free := rfl

/-! ### `writeStatus`: A write to STATUS (10_state R38). -/

@[simp] theorem State.writeStatus_ieDone (v : Word) (s : State) : (s.writeStatus v).ieDone = s.ieDone := rfl
@[simp] theorem State.writeStatus_ieErr (v : Word) (s : State) : (s.writeStatus v).ieErr = s.ieErr := rfl
@[simp] theorem State.writeStatus_done (v : Word) (s : State) : (s.writeStatus v).done = (s.done && !v.getLsbD 1) := rfl
@[simp] theorem State.writeStatus_err (v : Word) (s : State) : (s.writeStatus v).err = (s.err && !v.getLsbD 2) := rfl
@[simp] theorem State.writeStatus_rej (v : Word) (s : State) : (s.writeStatus v).rej = (s.rej && !v.getLsbD 3) := rfl
@[simp] theorem State.writeStatus_cmdReadback (v : Word) (s : State) : (s.writeStatus v).cmdReadback = s.cmdReadback := rfl
@[simp] theorem State.writeStatus_errKind (v : Word) (s : State) : (s.writeStatus v).errKind = s.errKind := rfl
@[simp] theorem State.writeStatus_errCode (v : Word) (s : State) : (s.writeStatus v).errCode = s.errCode := rfl
@[simp] theorem State.writeStatus_errPos (v : Word) (s : State) : (s.writeStatus v).errPos = s.errPos := rfl
@[simp] theorem State.writeStatus_dstLen (v : Word) (s : State) : (s.writeStatus v).dstLen = s.dstLen := rfl
@[simp] theorem State.writeStatus_srcAddr (v : Word) (s : State) : (s.writeStatus v).srcAddr = s.srcAddr := rfl
@[simp] theorem State.writeStatus_srcLen (v : Word) (s : State) : (s.writeStatus v).srcLen = s.srcLen := rfl
@[simp] theorem State.writeStatus_dstAddr (v : Word) (s : State) : (s.writeStatus v).dstAddr = s.dstAddr := rfl
@[simp] theorem State.writeStatus_dstCap (v : Word) (s : State) : (s.writeStatus v).dstCap = s.dstCap := rfl
@[simp] theorem State.writeStatus_maxOffset (v : Word) (s : State) : (s.writeStatus v).maxOffset = s.maxOffset := rfl
@[simp] theorem State.writeStatus_maxLength (v : Word) (s : State) : (s.writeStatus v).maxLength = s.maxLength := rfl
@[simp] theorem State.writeStatus_seq (v : Word) (s : State) : (s.writeStatus v).seq = s.seq := rfl
@[simp] theorem State.writeStatus_rst (v : Word) (s : State) : (s.writeStatus v).rst = s.rst := rfl
@[simp] theorem State.writeStatus_mem (v : Word) (s : State) : (s.writeStatus v).mem = s.mem := rfl
@[simp] theorem State.writeStatus_params (v : Word) (s : State) : (s.writeStatus v).params = s.params := rfl
@[simp] theorem State.writeStatus_host (v : Word) (s : State) : (s.writeStatus v).host = s.host := rfl
@[simp] theorem State.writeStatus_hostData (v : Word) (s : State) : (s.writeStatus v).hostData = s.hostData := rfl
@[simp] theorem State.writeStatus_handedOver (v : Word) (s : State) : (s.writeStatus v).handedOver = s.handedOver := rfl
@[simp] theorem State.writeStatus_delays (v : Word) (s : State) : (s.writeStatus v).delays = s.delays := rfl
@[simp] theorem State.writeStatus_delay (v : Word) (s : State) : (s.writeStatus v).delay = s.delay := rfl
@[simp] theorem State.writeStatus_free (v : Word) (s : State) : (s.writeStatus v).free = s.free := rfl

/-! ### `taken`: The next host action is taken off the list. -/

@[simp] theorem State.taken_ieDone (rest : List HostOp) (s : State) : (s.taken rest).ieDone = s.ieDone := rfl
@[simp] theorem State.taken_ieErr (rest : List HostOp) (s : State) : (s.taken rest).ieErr = s.ieErr := rfl
@[simp] theorem State.taken_done (rest : List HostOp) (s : State) : (s.taken rest).done = s.done := rfl
@[simp] theorem State.taken_err (rest : List HostOp) (s : State) : (s.taken rest).err = s.err := rfl
@[simp] theorem State.taken_rej (rest : List HostOp) (s : State) : (s.taken rest).rej = s.rej := rfl
@[simp] theorem State.taken_cmdReadback (rest : List HostOp) (s : State) : (s.taken rest).cmdReadback = s.cmdReadback := rfl
@[simp] theorem State.taken_errKind (rest : List HostOp) (s : State) : (s.taken rest).errKind = s.errKind := rfl
@[simp] theorem State.taken_errCode (rest : List HostOp) (s : State) : (s.taken rest).errCode = s.errCode := rfl
@[simp] theorem State.taken_errPos (rest : List HostOp) (s : State) : (s.taken rest).errPos = s.errPos := rfl
@[simp] theorem State.taken_dstLen (rest : List HostOp) (s : State) : (s.taken rest).dstLen = s.dstLen := rfl
@[simp] theorem State.taken_srcAddr (rest : List HostOp) (s : State) : (s.taken rest).srcAddr = s.srcAddr := rfl
@[simp] theorem State.taken_srcLen (rest : List HostOp) (s : State) : (s.taken rest).srcLen = s.srcLen := rfl
@[simp] theorem State.taken_dstAddr (rest : List HostOp) (s : State) : (s.taken rest).dstAddr = s.dstAddr := rfl
@[simp] theorem State.taken_dstCap (rest : List HostOp) (s : State) : (s.taken rest).dstCap = s.dstCap := rfl
@[simp] theorem State.taken_maxOffset (rest : List HostOp) (s : State) : (s.taken rest).maxOffset = s.maxOffset := rfl
@[simp] theorem State.taken_maxLength (rest : List HostOp) (s : State) : (s.taken rest).maxLength = s.maxLength := rfl
@[simp] theorem State.taken_seq (rest : List HostOp) (s : State) : (s.taken rest).seq = s.seq := rfl
@[simp] theorem State.taken_rst (rest : List HostOp) (s : State) : (s.taken rest).rst = s.rst := rfl
@[simp] theorem State.taken_mem (rest : List HostOp) (s : State) : (s.taken rest).mem = s.mem := rfl
@[simp] theorem State.taken_params (rest : List HostOp) (s : State) : (s.taken rest).params = s.params := rfl
@[simp] theorem State.taken_host (rest : List HostOp) (s : State) : (s.taken rest).host = rest := rfl
@[simp] theorem State.taken_hostData (rest : List HostOp) (s : State) : (s.taken rest).hostData = s.hostData := rfl
@[simp] theorem State.taken_handedOver (rest : List HostOp) (s : State) : (s.taken rest).handedOver = s.handedOver := rfl
@[simp] theorem State.taken_delays (rest : List HostOp) (s : State) : (s.taken rest).delays = s.delays := rfl
@[simp] theorem State.taken_delay (rest : List HostOp) (s : State) : (s.taken rest).delay = s.delay - 1 := rfl
@[simp] theorem State.taken_free (rest : List HostOp) (s : State) : (s.taken rest).free = s.free := rfl

/-! ### What the updates do to the derived views -/

@[simp] theorem State.sample_cmd (v : Word) (s : State) : (s.sample v).cmd = v := rfl
@[simp] theorem State.sample_srcAddr (v : Word) (s : State) : (s.sample v).srcAddr = s.srcAddr := rfl
@[simp] theorem State.sample_srcLen (v : Word) (s : State) : (s.sample v).srcLen = s.srcLen := rfl
@[simp] theorem State.sample_dstAddr (v : Word) (s : State) : (s.sample v).dstAddr = s.dstAddr := rfl
@[simp] theorem State.sample_dstCap (v : Word) (s : State) : (s.sample v).dstCap = s.dstCap := rfl
@[simp] theorem State.sample_maxOffset (v : Word) (s : State) : (s.sample v).maxOffset = s.maxOffset := rfl
@[simp] theorem State.sample_maxLength (v : Word) (s : State) : (s.sample v).maxLength = s.maxLength := rfl

theorem State.busy_of_seq_busy {s : State} {c : Snapshot} (h : s.seq = .busy c) : s.busy = true := by
  simp [State.busy, h]

theorem State.busy_of_seq_idle {s : State} (h : s.seq = .idle) : s.busy = false := by
  simp [State.busy, h]

theorem State.busy_eq_false_iff {s : State} : s.busy = false ↔ s.seq = .idle := by
  unfold State.busy
  cases s.seq <;> simp

end Sys2Proof.Machine
end

