-- ==== Sys2Proof/Laws/Completion.lean ====
section
/-! SUPPORT. Everything the completion step, error entry and reset can do, said once. -/

namespace Sys2Proof.Machine

/-! ### Buffers -/

theorem Snapshot.inSrc_iff (c : Snapshot) (a : Nat) :
    c.inSrc a = true ↔ c.srcAddr.toNat ≤ a ∧ a < c.srcAddr.toNat + 4 * c.srcLen.toNat := by
  simp [Snapshot.inSrc]

theorem Snapshot.inDst_iff (c : Snapshot) (a : Nat) :
    c.inDst a = true ↔ c.dstAddr.toNat ≤ a ∧ a < c.dstAddr.toNat + 4 * c.dstCap.toNat := by
  simp [Snapshot.inDst]

/-- An unspecified DST range as the host reads it: free bytes in it, everything else as before (20_memory R90). -/
theorem State.read_scrambleDst (c : Snapshot) (s : State) (x : Nat) :
    (s.scrambleDst c).mem.read x =
      if c.inDst x = true ∧ x < 2 ^ 32 ∧ c.inSrc x = false then Config.freeByte (s.free + (x - c.dstAddr.toNat))
      else s.mem.read x := by
  rw [State.scrambleDst_mem, Memory.read_write]
  simp only [List.length_map, List.length_range, List.getElem_map, List.getElem_range]
  by_cases h : c.dstAddr.toNat ≤ x ∧ x < c.dstAddr.toNat + c.dstBytes
  · have hd : c.inDst x = true ∧ x < 2 ^ 32 := by
      rw [Snapshot.inDst_iff]
      unfold Snapshot.dstBytes at h
      omega
    have hx : c.dstAddr.toNat + (x - c.dstAddr.toNat) = x := by omega
    rw [dif_pos h, scrambledByte, hx]
    cases hs : c.inSrc x
    · rw [if_neg (by simp), if_pos ⟨hd.1, hd.2, rfl⟩]
    · rw [if_pos rfl, if_neg (by simp)]
  · rw [dif_neg h, if_neg]
    rintro ⟨hd, hx, _⟩
    rw [Snapshot.inDst_iff] at hd
    unfold Snapshot.dstBytes at h
    omega

theorem State.read_scrambleDst_of_not_inDst {c : Snapshot} {x : Nat} (s : State) (h : c.inDst x = false) :
    (s.scrambleDst c).mem.read x = s.mem.read x := by
  rw [State.read_scrambleDst, if_neg (by simp [h])]

theorem State.read_scrambleDst_of_inSrc {c : Snapshot} {x : Nat} (s : State) (h : c.inSrc x = true) :
    (s.scrambleDst c).mem.read x = s.mem.read x := by
  rw [State.read_scrambleDst, if_neg (by simp [h])]

theorem State.wf_scrambleDst {s : State} (h : s.mem.wf) (c : Snapshot) : (s.scrambleDst c).mem.wf := by
  rw [State.scrambleDst_mem]
  apply Memory.wf_write h
  right
  have := c.dstAddr.isLt
  simp only [List.length_map, List.length_range, Snapshot.dstBytes]
  omega

/-! ### Reset -/

/-- The two cases of a reset (70_reset_and_hazards R500, R502). -/
theorem State.blockReset_cases (s : State) :
    (s.seq = .idle ∧ s.blockReset = s.resetRegisters) ∨
      ∃ c, s.seq = .busy c ∧ s.blockReset = (s.scrambleDst c).resetRegisters := by
  unfold State.blockReset
  cases h : s.seq with
  | idle => exact .inl ⟨rfl, rfl⟩
  | busy c => exact .inr ⟨c, rfl, rfl⟩

theorem State.atReset_resetRegisters (s : State) : s.resetRegisters.AtReset := by
  constructor <;> simp [Config.maxOffsetReset, Config.maxLengthReset]

/-- A reset leaves every register at its reset value (10_state R63). -/
theorem State.atReset_blockReset (s : State) : s.blockReset.AtReset := by
  obtain ⟨_, h⟩ | ⟨c, _, h⟩ := s.blockReset_cases <;> rw [h] <;> exact State.atReset_resetRegisters _

theorem State.wf_blockReset {s : State} (h : s.mem.wf) : s.blockReset.mem.wf := by
  obtain ⟨_, e⟩ | ⟨c, _, e⟩ := s.blockReset_cases <;> rw [e]
  · exact h
  · exact State.wf_scrambleDst h c

/-! ### The checks -/

/-- Whether a command reads the LZ77 bounds. -/
def boundedBit (i : Instr) : Bool := decide (i = .lz77Enc ∨ i = .defEnc)

theorem boundedBit_iff (i : Instr) : boundedBit i = true ↔ Instr.Bounded i := by simp [boundedBit, Instr.Bounded]

/-- The checks find nothing exactly for an admitted snapshot (60_exceptions R420). -/
theorem preCheck_eq_none_iff (i : Instr) (p : Params) (c : Snapshot) :
    preCheck (boundedBit i) p c = none ↔ Admitted i p c := by
  have hconf : configCheck (boundedBit i) c = none ↔
      ((Instr.Bounded i → legalBound c.maxOffset ∧ legalBound c.maxLength) ∧
        c.srcAddr.toNat % 4 = 0 ∧ c.dstAddr.toNat % 4 = 0 ∧
        c.srcAddr.toNat + 4 * c.srcLen.toNat ≤ 2 ^ 32 ∧ c.dstAddr.toNat + 4 * c.dstCap.toNat ≤ 2 ^ 32 ∧
        ∀ a, ¬(c.inSrc a ∧ c.inDst a)) := by
    have hov : (∀ a, ¬(c.inSrc a ∧ c.inDst a)) ↔
        ¬(0 < c.srcLen.toNat ∧ 0 < c.dstCap.toNat ∧ c.srcAddr.toNat < c.dstAddr.toNat + 4 * c.dstCap.toNat ∧
          c.dstAddr.toNat < c.srcAddr.toNat + 4 * c.srcLen.toNat) := by
      simp only [Snapshot.inSrc_iff, Snapshot.inDst_iff]
      constructor
      · intro h ho
        exact h (max c.srcAddr.toNat c.dstAddr.toNat) (by omega)
      · intro h a ha
        omega
    rw [hov, ← boundedBit_iff]
    simp only [configCheck, Config.maxField, legalBound]
    cases hb : boundedBit i <;>
      simp only [Bool.false_eq_true, false_and, true_and, if_false, false_implies, true_implies] <;>
      (repeat' split) <;> simp <;> omega
  unfold preCheck
  cases hc : configCheck (boundedBit i) c with
  | some e =>
    simp only [reduceCtorEq, false_iff]
    intro ha
    rw [hconf.2 ⟨ha.bounds, ha.srcAlign, ha.dstAlign, ha.srcRange, ha.dstRange, ha.disjoint⟩] at hc
    simp at hc
  | none =>
    obtain ⟨h1, h2, h3, h4, h5, h6⟩ := hconf.1 hc
    simp only [Option.map_eq_none_iff, busCheck]
    constructor
    · intro hb
      cases hs : p.firstUnbacked c.srcAddr.toNat (4 * c.srcLen.toNat) with
      | some a => simp [hs] at hb
      | none =>
        rw [hs] at hb
        rw [Params.firstUnbacked_none] at hs hb
        refine ⟨h1, h2, h3, h4, h5, h6, fun a ha => ?_, fun a ha => ?_⟩
        · rw [Snapshot.inSrc_iff] at ha
          exact hs a ha.1 ha.2
        · rw [Snapshot.inDst_iff] at ha
          exact hb a ha.1 ha.2
    · intro ha
      rw [Params.firstUnbacked_none.2 fun y h h' => ha.srcBacked y ((c.inSrc_iff y).2 ⟨h, h'⟩)]
      exact Params.firstUnbacked_none.2 fun y h h' => ha.dstBacked y ((c.inDst_iff y).2 ⟨h, h'⟩)

/-- A check that fails is a configuration error or BUS_ERROR (60_exceptions R402). -/
theorem preCheck_some_name {i : Instr} {p : Params} {c : Snapshot} {e : OpError}
    (h : preCheck (boundedBit i) p c = some e) : ¬Admitted i p c := by
  rw [← preCheck_eq_none_iff, h]
  simp

/-! ### Completion -/

/-- Everything the completion step can do (10_state R56): a failed check, a failed operation or too long an output, or
success. -/
theorem State.complete_cases (bounded : Bool) (op : Operation) (c : Snapshot) (s : State) :
    (∃ e, preCheck bounded s.params c = some e ∧ s.complete bounded op c = s.errorEntry e) ∨
    (preCheck bounded s.params c = none ∧ ∃ e,
      (op c (s.input c) = .error e ∨
        ∃ out, op c (s.input c) = .ok out ∧ c.dstCap.toNat < out.length ∧ e = ⟨.cfgDstOverflow, 0⟩) ∧
      s.complete bounded op c = (s.scrambleDst c).errorEntry e) ∨
    (preCheck bounded s.params c = none ∧ ∃ out, op c (s.input c) = .ok out ∧ out.length ≤ c.dstCap.toNat ∧
      s.complete bounded op c = s.succeed c out) := by
  unfold State.complete
  cases hp : preCheck bounded s.params c with
  | some e => exact .inl ⟨e, rfl, rfl⟩
  | none =>
    refine .inr ?_
    cases ho : op c (s.input c) with
    | error e => exact .inl ⟨rfl, e, .inl rfl, rfl⟩
    | ok out =>
      by_cases hl : c.dstCap.toNat < out.length
      · exact .inl ⟨rfl, _, .inr ⟨out, rfl, hl, rfl⟩, by simp [hl]⟩
      · exact .inr ⟨rfl, out, rfl, by omega, by simp [hl]⟩

/-- `exec` is one shared operation at the command's own operation (60_exceptions R420). -/
theorem exec_eq_runCommand (i : Instr) (s : State) :
    exec i s = runCommand i (boundedBit i) (operationOf i s.params) s := by
  cases i <;> rfl

/-- `exec` on a running command is its completion step. -/
theorem exec_of_busy {s : State} {c : Snapshot} (h : s.seq = .busy c) (i : Instr) :
    exec i s = .next (s.complete (boundedBit i) (operationOf i s.params) c) := by
  rw [exec_eq_runCommand, runCommand, h]

/-- `exec` with no running command accepts the command's word first (log 11). -/
theorem exec_of_idle {s : State} (h : s.seq = .idle) (i : Instr) :
    exec i s = .next ((s.accept (encode i)).complete (boundedBit i) (operationOf i s.params)
      (s.sample (encode i))) := by
  rw [exec_eq_runCommand, runCommand, h]

/-- The success case of the completion step. -/
theorem State.complete_ok {i : Instr} {op : Operation} {c : Snapshot} {s : State} {out : List Word}
    (ha : Admitted i s.params c) (ho : op c (s.input c) = .ok out) (hl : out.length ≤ c.dstCap.toNat) :
    s.complete (boundedBit i) op c = s.succeed c out := by
  unfold State.complete
  rw [(preCheck_eq_none_iff i s.params c).2 ha, ho]
  simp [Nat.not_lt.2 hl]

/-- The failed-operation case of the completion step. -/
theorem State.complete_error {i : Instr} {op : Operation} {c : Snapshot} {s : State} {e : OpError}
    (ha : Admitted i s.params c) (ho : op c (s.input c) = .error e) :
    s.complete (boundedBit i) op c = (s.scrambleDst c).errorEntry e := by
  unfold State.complete
  rw [(preCheck_eq_none_iff i s.params c).2 ha, ho]

/-- The output-too-long case of the completion step (60_exceptions R411). -/
theorem State.complete_overflow {i : Instr} {op : Operation} {c : Snapshot} {s : State} {out : List Word}
    (ha : Admitted i s.params c) (ho : op c (s.input c) = .ok out) (hl : c.dstCap.toNat < out.length) :
    s.complete (boundedBit i) op c = (s.scrambleDst c).errorEntry ⟨.cfgDstOverflow, 0⟩ := by
  unfold State.complete
  rw [(preCheck_eq_none_iff i s.params c).2 ha, ho]
  simp [hl]

/-- The failed-check case of the completion step: memory is left alone (20_memory R90). -/
theorem State.complete_preCheck {bounded : Bool} {op : Operation} {c : Snapshot} {s : State} {e : OpError}
    (h : preCheck bounded s.params c = some e) : s.complete bounded op c = s.errorEntry e := by
  unfold State.complete
  rw [h]

/-- The completion step returns the sequencer to IDLE (10_state R56). -/
theorem State.complete_seq (bounded : Bool) (op : Operation) (c : Snapshot) (s : State) :
    (s.complete bounded op c).seq = .idle := by
  obtain ⟨e, _, h⟩ | ⟨_, e, _, h⟩ | ⟨_, out, _, _, h⟩ := s.complete_cases bounded op c <;> rw [h] <;> rfl

/-- The completion step keeps data memory in its canonical form. -/
theorem State.wf_complete {i : Instr} {s : State} (hm : s.mem.wf) (op : Operation) (c : Snapshot) :
    (s.complete (boundedBit i) op c).mem.wf := by
  obtain ⟨e, _, h⟩ | ⟨_, e, _, h⟩ | ⟨hp, out, _, hl, h⟩ := s.complete_cases (boundedBit i) op c <;> rw [h]
  · exact hm
  · exact State.wf_scrambleDst hm c
  · have ha := (preCheck_eq_none_iff i s.params c).1 hp
    have := ha.dstRange
    exact Memory.wf_writeWords hm _ _ (.inr (by omega))

/-- The completion step leaves every byte outside the DST range alone, and every byte of the SRC range (20_memory R90). -/
theorem State.read_complete_of_outside {i : Instr} {s : State} {c : Snapshot} {x : Nat} (op : Operation)
    (hx : c.inDst x = false ∨ c.inSrc x = true) :
    (s.complete (boundedBit i) op c).mem.read x = s.mem.read x := by
  obtain ⟨e, _, h⟩ | ⟨_, e, _, h⟩ | ⟨hp, out, _, hl, h⟩ := s.complete_cases (boundedBit i) op c <;> rw [h]
  · rfl
  · rw [State.errorEntry_mem]
    rcases hx with hx | hx
    · exact State.read_scrambleDst_of_not_inDst s hx
    · exact State.read_scrambleDst_of_inSrc s hx
  · have ha := (preCheck_eq_none_iff i s.params c).1 hp
    have hd : c.inDst x = false := by
      rcases hx with hx | hx
      · exact hx
      · have := ha.disjoint x
        simpa [hx] using this
    rw [State.succeed_mem]
    apply Memory.read_writeWords_of_outside
    have hn : ¬(c.inDst x = true) := by simp [hd]
    rw [Snapshot.inDst_iff] at hn
    omega

theorem errorName_kind_ne_zero (e : ErrName) : e.kind ≠ 0 := by cases e <;> decide

theorem errorName_legal (e : ErrName) : legalErrcode e.kind e.code := by
  cases e <;> unfold legalErrcode <;> decide

end Sys2Proof.Machine
end

