-- ==== Sys2Proof/Laws/Decode.lean ====
section
/-! SUPPORT. The fields of a command word as numbers (30_encoding R120, R125). -/

namespace Sys2Proof

theorem selField_toNat (v : Word) : (selField v).toNat = v.toNat / 16 % 16 := by
  simp [selField, BitVec.extractLsb'_toNat, Nat.shiftRight_eq_div_pow]

theorem dirField_toNat (v : Word) : (dirField v).toNat = v.toNat % 2 := by
  simp [dirField, BitVec.extractLsb'_toNat, Nat.shiftRight_eq_div_pow]

theorem reservedHigh_eq_zero_iff (v : Word) : reservedHigh v = 0 ↔ v.toNat / 256 = 0 := by
  rw [← BitVec.toNat_inj]
  have := v.isLt
  simp [reservedHigh, BitVec.extractLsb'_toNat, Nat.shiftRight_eq_div_pow]
  omega

theorem reservedLow_eq_zero_iff (v : Word) : reservedLow v = 0 ↔ v.toNat / 2 % 8 = 0 := by
  rw [← BitVec.toNat_inj]
  simp [reservedLow, BitVec.extractLsb'_toNat, Nat.shiftRight_eq_div_pow]

/-- SEL in the order of 30_encoding R121. -/
theorem codecOfSel_eq (sel : BitVec 4) : codecOfSel sel = [Codec.lz77, .lzw, .huffman, .deflate][sel.toNat]? := by
  revert sel
  decide

theorem directionOfDir_eq (dir : BitVec 1) : directionOfDir dir = if dir.toNat = 0 then .enc else .dec := by
  revert dir
  decide

end Sys2Proof
end

