-- ==== Sys2Proof/Laws/HuffmanTree.lean ====
section
/-! SUPPORT. The Huffman frequency table, queue, tree and code table (40_huffman R201 to R212). -/

namespace Sys2Proof.Machine

/-! ### Frequencies (R201) -/

theorem countSymbol_map (x : Word) (d : List Word) (c : Word → Nat) (hd : d.Nodup) :
    countSymbol x (d.map fun y => (y, c y)) =
      if x ∈ d then d.map (fun y => (y, c y + if y = x then 1 else 0)) else d.map (fun y => (y, c y)) ++ [(x, 1)] := by
  induction d with
  | nil => simp [countSymbol]
  | cons y d ih =>
    have hy := List.nodup_cons.1 hd
    by_cases h : y = x
    · subst h
      have hmap : d.map (fun y => (y, c y)) = d.map (fun z => (z, c z + if z = y then 1 else 0)) := by
        apply List.map_congr_left
        intro z hz
        rw [if_neg (by rintro rfl; exact hy.1 hz)]
        rfl
      simp [countSymbol, hmap]
    · have hx : x ∈ y :: d ↔ x ∈ d := by simp [Ne.symm h]
      rw [List.map_cons, countSymbol, if_neg h, ih hy.2]
      by_cases hm : x ∈ d
      · rw [if_pos hm, if_pos (hx.2 hm)]
        simp [h]
      · rw [if_neg hm, if_neg (fun g => hm (hx.1 g))]
        simp

theorem freqCount_append_singleton (s : List Word) (x : Word) : freqCount (s ++ [x]) = countSymbol x (freqCount s) := by
  simp [freqCount]

theorem nodup_eraseDups (s : List Word) : s.eraseDups.Nodup := by
  induction s using List.reverseRecOn with
  | nil => simp
  | append_singleton s x ih =>
    rw [List.eraseDups_append]
    by_cases h : x ∈ s
    · simpa [h, List.removeAll] using ih
    · have hx : [x].eraseDups = [x] := by simp [List.eraseDups_cons]
      simp only [List.removeAll, List.elem_eq_mem, h, decide_false, Bool.not_false, List.filter_cons_of_pos,
        List.filter_nil, hx]
      refine List.nodup_append.2 ⟨ih, by simp, fun y hy z hz e => ?_⟩
      rw [List.mem_singleton.1 hz] at e
      exact h (List.mem_eraseDups.1 (e ▸ hy))

/-- The distinct symbols in first-seen order, each with its number of occurrences (40_huffman R201). -/
theorem freqCount_eq (s : List Word) : freqCount s = s.eraseDups.map fun x => (x, s.count x) := by
  induction s using List.reverseRecOn with
  | nil => rfl
  | append_singleton s x ih =>
    rw [freqCount_append_singleton, ih, countSymbol_map x s.eraseDups _ (nodup_eraseDups s), List.eraseDups_append]
    have hc : ∀ y, (s ++ [x]).count y = s.count y + if y = x then 1 else 0 := by
      intro y
      rw [List.count_append, List.count_singleton]
      by_cases h : y = x
      · simp [h]
      · simp [h, Ne.symm h]
    simp only [hc, List.mem_eraseDups]
    by_cases h : x ∈ s
    · simp [h, List.removeAll]
    · have hs : s.eraseDups.map (fun y => (y, s.count y + if y = x then 1 else 0)) =
          s.eraseDups.map (fun y => (y, s.count y)) := by
        apply List.map_congr_left
        intro y hy
        rw [if_neg (by rintro rfl; exact h (List.mem_eraseDups.1 hy))]
        rfl
      have hx : [x].eraseDups = [x] := by simp [List.eraseDups_cons]
      simp [h, List.removeAll, hs, hx, List.count_eq_zero_of_not_mem h]

theorem freqCount_symbols (s : List Word) : (freqCount s).map Prod.fst = s.eraseDups := by
  rw [freqCount_eq, List.map_map]
  exact List.map_id' _

theorem countSymbol_sum (x : Word) (t : List (Word × Nat)) :
    ((countSymbol x t).map Prod.snd).sum = (t.map Prod.snd).sum + 1 := by
  induction t with
  | nil => rfl
  | cons p t ih =>
    rw [countSymbol]
    split
    · simp only [List.map_cons, List.sum_cons]
      omega
    · simp only [List.map_cons, List.sum_cons, ih]
      omega

/-- The frequencies add up to the number of symbols. -/
theorem freqCount_sum (s : List Word) : ((freqCount s).map Prod.snd).sum = s.length := by
  induction s using List.reverseRecOn with
  | nil => rfl
  | append_singleton s x ih => rw [freqCount_append_singleton, countSymbol_sum, ih, List.length_append]; rfl

/-! ### Trees (R206, R208) -/

/-- The symbols of a tree's leaves, left to right. -/
def Tree.leaves : Tree → List Word
  | .leaf x => [x]
  | .branch a b => a.leaves ++ b.leaves

/-- The total frequency of a tree's leaves. -/
def Tree.weight (f : Word → Nat) : Tree → Nat
  | .leaf x => f x
  | .branch a b => a.weight f + b.weight f

theorem Tree.weight_eq (f : Word → Nat) (t : Tree) : t.weight f = (t.leaves.map f).sum := by
  induction t with
  | leaf x => simp [Tree.weight, Tree.leaves]
  | branch a b iha ihb => simp [Tree.weight, Tree.leaves, iha, ihb]

theorem Tree.paths_symbols (t : Tree) : t.paths.map Prod.fst = t.leaves := by
  induction t with
  | leaf x => rfl
  | branch a b iha ihb => simp [Tree.paths, Tree.leaves, ← iha, ← ihb, List.map_map, Function.comp_def]

/-- No path of a tree is a prefix of another (40_huffman R211). -/
theorem Tree.paths_prefixFree (t : Tree) : ∀ p ∈ t.paths, ∀ q ∈ t.paths, p.2 <+: q.2 → p = q := by
  induction t with
  | leaf x => simp [Tree.paths]
  | branch a b iha ihb =>
    intro p hp q hq h
    simp only [Tree.paths, List.mem_append, List.mem_map] at hp hq
    rcases hp with ⟨p, hp, rfl⟩ | ⟨p, hp, rfl⟩ <;> rcases hq with ⟨q, hq, rfl⟩ | ⟨q, hq, rfl⟩
    · have := iha p hp q hq (List.cons_prefix_cons.1 h).2
      rw [this]
    · simp [List.cons_prefix_cons] at h
    · simp [List.cons_prefix_cons] at h
    · have := ihb p hp q hq (List.cons_prefix_cons.1 h).2
      rw [this]

/-! ### Depth (R212) -/

/-- The heavier child's weight; 0 for a leaf. -/
def Tree.childMax (f : Word → Nat) : Tree → Nat
  | .leaf _ => 0
  | .branch a b => max (a.weight f) (b.weight f)

/-- Every symbol occurs, and at each branch the children of one side are no heavier than the other side. -/
def Tree.Balanced (f : Word → Nat) : Tree → Prop
  | .leaf x => 1 ≤ f x
  | .branch a b => a.Balanced f ∧ b.Balanced f ∧ a.childMax f ≤ b.weight f ∧ b.childMax f ≤ a.weight f

theorem Tree.Balanced.weight_pos {f : Word → Nat} {t : Tree} (h : t.Balanced f) : 1 ≤ t.weight f := by
  induction t with
  | leaf x => exact h
  | branch a b iha ihb =>
    have := iha h.1
    simp only [Tree.weight]
    omega

/-- A leaf at depth `d` needs a total frequency of the Fibonacci number F(d + 2) (40_huffman R212). -/
theorem Tree.Balanced.fib_le {f : Word → Nat} {t : Tree} (h : t.Balanced f) : ∀ p ∈ t.paths,
    Nat.fib (p.2.length + 2) ≤ t.weight f ∧ Nat.fib (p.2.length + 1) ≤ max 1 (t.childMax f) := by
  induction t with
  | leaf x =>
    intro p hp
    simp only [Tree.paths, List.mem_singleton] at hp
    subst hp
    exact ⟨h, by simp⟩
  | branch a b iha ihb =>
    obtain ⟨ha, hb, hab, hba⟩ := h
    have pa := ha.weight_pos
    have pb := hb.weight_pos
    intro p hp
    simp only [Tree.paths, List.mem_append, List.mem_map] at hp
    simp only [Tree.weight, Tree.childMax]
    rcases hp with ⟨q, hq, rfl⟩ | ⟨q, hq, rfl⟩
    · obtain ⟨h1, h2⟩ := iha ha q hq
      have h3 : Nat.fib (q.2.length + 1 + 2) = Nat.fib (q.2.length + 1) + Nat.fib (q.2.length + 2) := Nat.fib_add_two
      have h4 : Nat.fib (q.2.length + 1 + 1) = Nat.fib (q.2.length + 2) := rfl
      simp only [List.length_cons]
      omega
    · obtain ⟨h1, h2⟩ := ihb hb q hq
      have h3 : Nat.fib (q.2.length + 1 + 2) = Nat.fib (q.2.length + 1) + Nat.fib (q.2.length + 2) := Nat.fib_add_two
      have h4 : Nat.fib (q.2.length + 1 + 1) = Nat.fib (q.2.length + 2) := rfl
      simp only [List.length_cons]
      omega

/-! ### The queue (R202 to R205) -/

theorem queueInsert_perm (e : QEntry) (q : List QEntry) : (queueInsert e q).Perm (e :: q) := by
  induction q with
  | nil => exact List.Perm.refl _
  | cons g q ih =>
    rw [queueInsert]
    split
    · exact List.Perm.refl _
    · exact (ih.cons g).trans (List.Perm.swap e g q)

theorem queueInsert_sorted {e : QEntry} {q : List QEntry} (h : q.Pairwise fun a b => a.freq ≤ b.freq) :
    (queueInsert e q).Pairwise fun a b => a.freq ≤ b.freq := by
  induction q with
  | nil => simp [queueInsert]
  | cons g q ih =>
    rw [List.pairwise_cons] at h
    rw [queueInsert]
    split
    · rename_i hb
      have he : e.freq ≤ g.freq := by
        simp only [QEntry.before, Bool.or_eq_true, Bool.and_eq_true, decide_eq_true_eq] at hb
        omega
      refine List.pairwise_cons.2 ⟨fun a ha => ?_, List.pairwise_cons.2 h⟩
      rcases List.mem_cons.1 ha with rfl | ha
      · exact he
      · exact he.trans (h.1 a ha)
    · rename_i hb
      have he : g.freq ≤ e.freq := by
        simp only [QEntry.before, Bool.or_eq_true, Bool.and_eq_true, decide_eq_true_eq] at hb
        omega
      refine List.pairwise_cons.2 ⟨fun a ha => ?_, ih h.2⟩
      rcases List.mem_cons.1 ((queueInsert_perm e q).mem_iff.1 ha) with rfl | ha
      · exact he
      · exact h.1 a ha

/-- What holds of the queue throughout (40_huffman R202, R204): frequencies are the weights of balanced trees, in rising
order, and no tree has a child heavier than an entry. -/
structure QueueInv (f : Word → Nat) (q : List QEntry) : Prop where
  weights : ∀ e ∈ q, e.freq = e.tree.weight f ∧ e.tree.Balanced f
  children : ∀ e ∈ q, ∀ g ∈ q, e.tree.childMax f ≤ g.freq
  sorted : q.Pairwise fun a b => a.freq ≤ b.freq

/-- The leaves of all entries. -/
def queueLeaves (q : List QEntry) : List Word := q.flatMap fun e => e.tree.leaves

theorem queueLeaves_insert (e : QEntry) (q : List QEntry) :
    (queueLeaves (queueInsert e q)).Perm (e.tree.leaves ++ queueLeaves q) := by
  have := (queueInsert_perm e q).flatMap_right fun e => e.tree.leaves
  simpa [queueLeaves] using this

theorem queueInsert_length (e : QEntry) (q : List QEntry) : (queueInsert e q).length = q.length + 1 := by
  simpa using (queueInsert_perm e q).length_eq

theorem seedQueue_spec (i : Nat) (t : List (Word × Nat)) (f : Word → Nat) (hf : ∀ p ∈ t, p.2 = f p.1 ∧ 1 ≤ p.2) :
    QueueInv f (seedQueue i t) ∧ (queueLeaves (seedQueue i t)).Perm (t.map Prod.fst) ∧
      (∀ e ∈ seedQueue i t, e.tree.childMax f = 0) ∧ (seedQueue i t).length = t.length := by
  induction t generalizing i with
  | nil => exact ⟨⟨by simp [seedQueue], by simp [seedQueue], by simp [seedQueue]⟩, by simp [seedQueue, queueLeaves],
      by simp [seedQueue], rfl⟩
  | cons p t ih =>
    obtain ⟨x, n⟩ := p
    obtain ⟨hinv, hl, hz, hn⟩ := ih (i + 1) fun p hp => hf p (List.mem_cons_of_mem _ hp)
    have hx := hf (x, n) List.mem_cons_self
    rw [seedQueue]
    have hmem : ∀ e ∈ queueInsert ⟨n, i, .leaf x⟩ (seedQueue (i + 1) t),
        e = ⟨n, i, .leaf x⟩ ∨ e ∈ seedQueue (i + 1) t :=
      fun e he => List.mem_cons.1 ((queueInsert_perm _ _).mem_iff.1 he)
    have hzero : ∀ e ∈ queueInsert ⟨n, i, .leaf x⟩ (seedQueue (i + 1) t), e.tree.childMax f = 0 := by
      intro e he
      rcases hmem e he with rfl | he
      · rfl
      · exact hz e he
    refine ⟨⟨fun e he => ?_, fun e he g _ => ?_, queueInsert_sorted hinv.sorted⟩, ?_, hzero, ?_⟩
    · rcases hmem e he with rfl | he
      · exact ⟨hx.1, by rw [Tree.Balanced, ← hx.1]; exact hx.2⟩
      · exact hinv.weights e he
    · rw [hzero e he]
      exact Nat.zero_le _
    · refine (queueLeaves_insert _ _).trans ?_
      exact hl.cons x
    · rw [queueInsert_length, hn]
      rfl

/-- With one step for each entry the builder ends in one balanced tree over all the leaves (40_huffman R204, R205). -/
theorem combine_spec (f : Word → Nat) (fuel next : Nat) (q : List QEntry) (hq : q ≠ []) (hfuel : q.length ≤ fuel)
    (h : QueueInv f q) :
    ∃ t, combine fuel next q = some t ∧ t.Balanced f ∧ t.leaves.Perm (queueLeaves q) := by
  induction fuel generalizing next q with
  | zero => exact absurd (List.eq_nil_of_length_eq_zero (Nat.le_zero.1 hfuel)) hq
  | succ fuel ih =>
    match q, hq with
    | [e], _ => exact ⟨e.tree, rfl, (h.weights e (List.mem_singleton.2 rfl)).2, by simp [queueLeaves]⟩
    | a :: b :: q, _ =>
      have ha := h.weights a (by simp)
      have hb := h.weights b (by simp)
      have hab := h.children a (by simp) b (by simp)
      have hba := h.children b (by simp) a (by simp)
      have hs := List.pairwise_cons.1 h.sorted
      have hs' := List.pairwise_cons.1 hs.2
      let n : QEntry := ⟨a.freq + b.freq, next, .branch a.tree b.tree⟩
      have hmem : ∀ e ∈ queueInsert n q, e = n ∨ e ∈ q :=
        fun e he => List.mem_cons.1 ((queueInsert_perm _ _).mem_iff.1 he)
      have hn : n.tree.childMax f = max a.freq b.freq := by rw [ha.1, hb.1]; rfl
      have hqmem : ∀ e ∈ q, e ∈ a :: b :: q := fun e he => List.mem_cons_of_mem _ (List.mem_cons_of_mem _ he)
      have hinv : QueueInv f (queueInsert n q) := by
        refine ⟨fun e he => ?_, fun e he g hg => ?_, queueInsert_sorted hs'.2⟩
        · rcases hmem e he with rfl | he
          · refine ⟨?_, ha.2, hb.2, ?_, ?_⟩
            · show a.freq + b.freq = a.tree.weight f + b.tree.weight f
              rw [ha.1, hb.1]
            · rw [← hb.1]
              exact hab
            · rw [← ha.1]
              exact hba
          · exact h.weights e (hqmem e he)
        · rcases hmem e he with rfl | he
          · rw [hn]
            rcases hmem g hg with rfl | hg
            · show max a.freq b.freq ≤ a.freq + b.freq
              omega
            · exact max_le (hs.1 g (List.mem_cons_of_mem _ hg)) (hs'.1 g hg)
          · rcases hmem g hg with rfl | hg
            · have := h.children e (hqmem e he) a (by simp)
              show _ ≤ a.freq + b.freq
              omega
            · exact h.children e (hqmem e he) g (hqmem g hg)
      obtain ⟨t, h1, h2, h3⟩ := ih (next + 1) (queueInsert n q)
        (by intro h0; have := queueInsert_length n q; rw [h0] at this; simp at this)
        (by rw [queueInsert_length]; simp at hfuel; omega) hinv
      refine ⟨t, h1, h2, h3.trans ?_⟩
      refine (queueLeaves_insert n q).trans ?_
      simp [queueLeaves, n, Tree.leaves]

/-! ### The tree and the table of an input -/

/-- A non-empty input has a tree over its distinct symbols, balanced by their counts (40_huffman R205, R206). -/
theorem buildTree_spec {s : List Word} (hs : s ≠ []) :
    ∃ t, buildTree (freqCount s) = some t ∧ t.Balanced (fun x => s.count x) ∧ t.leaves.Perm s.eraseDups := by
  have hf : ∀ p ∈ freqCount s, p.2 = s.count p.1 ∧ 1 ≤ p.2 := by
    intro p hp
    rw [freqCount_eq, List.mem_map] at hp
    obtain ⟨x, hx, rfl⟩ := hp
    exact ⟨rfl, List.count_pos_iff.2 (List.mem_eraseDups.1 hx)⟩
  obtain ⟨hinv, hl, _, hn⟩ := seedQueue_spec 0 (freqCount s) (fun x => s.count x) hf
  have hne : seedQueue 0 (freqCount s) ≠ [] := by
    intro h0
    rw [h0] at hn
    obtain ⟨x, hx⟩ := List.exists_mem_of_ne_nil s hs
    have : x ∈ (freqCount s).map Prod.fst := by rw [freqCount_symbols]; exact List.mem_eraseDups.2 hx
    rw [List.eq_nil_of_length_eq_zero hn.symm] at this
    simp at this
  obtain ⟨t, h1, h2, h3⟩ := combine_spec _ _ (freqCount s).length _ hne hn.le hinv
  exact ⟨t, h1, h2, h3.trans (by rw [← freqCount_symbols]; exact hl)⟩

/-- The table of a tree: its leaves, with codes of which none is empty and none is a prefix of another (40_huffman R208,
R209, R211). -/
theorem codeTable_spec (t : Tree) :
    (codeTable (some t)).map Prod.fst = t.leaves ∧ (∀ e ∈ codeTable (some t), e.2 ≠ []) ∧
      (∀ p ∈ codeTable (some t), ∀ q ∈ codeTable (some t), p.2 <+: q.2 → p = q) ∧
      ∀ e ∈ codeTable (some t), e.2.length ≤ 1 ∨ e ∈ t.paths := by
  cases t with
  | leaf x => simp [codeTable, Tree.leaves]
  | branch a b =>
    refine ⟨Tree.paths_symbols _, fun e he => ?_, Tree.paths_prefixFree _, fun e he => .inr he⟩
    simp only [codeTable, Tree.paths, List.mem_append, List.mem_map] at he
    rcases he with ⟨q, _, rfl⟩ | ⟨q, _, rfl⟩ <;> simp

theorem mem_of_lookup {l : CodeTable} {x : Word} {c : List Bool} (h : l.lookup x = some c) : (x, c) ∈ l := by
  induction l with
  | nil => simp at h
  | cons p l ih =>
    obtain ⟨y, d⟩ := p
    rw [List.lookup_cons] at h
    split at h
    · rename_i hxy
      simp only [beq_iff_eq] at hxy
      cases h
      subst hxy
      exact List.mem_cons_self
    · exact List.mem_cons_of_mem _ (ih h)

theorem codeOf_mem {l : CodeTable} {x : Word} (h : x ∈ l.map Prod.fst) : (x, codeOf l x) ∈ l := by
  unfold codeOf
  cases hl : l.lookup x with
  | some c => exact mem_of_lookup hl
  | none =>
    rw [List.lookup_eq_none_iff] at hl
    obtain ⟨p, hp, rfl⟩ := List.mem_map.1 h
    have := hl p hp
    simp at this

/-- The symbols of an input's table are its distinct symbols in first-seen order (40_huffman R210). -/
theorem tableOf_symbols (s : List Word) : (tableOf s).map Prod.fst = s.eraseDups := by
  rw [← freqCount_symbols]
  simp only [tableOf, List.map_map]
  rfl

/-- Every entry of an input's table is an entry of its tree's code table (40_huffman R208, R210). -/
theorem tableOf_mem {s : List Word} {e : Word × List Bool} (he : e ∈ tableOf s) :
    ∃ t, buildTree (freqCount s) = some t ∧ t.Balanced (fun x => s.count x) ∧ t.leaves.Perm s.eraseDups ∧
      e ∈ codeTable (some t) := by
  have hx : e.1 ∈ s.eraseDups := by rw [← tableOf_symbols]; exact List.mem_map_of_mem he
  have hs : s ≠ [] := by rintro rfl; simp at hx
  obtain ⟨t, h1, h2, h3⟩ := buildTree_spec hs
  refine ⟨t, h1, h2, h3, ?_⟩
  simp only [tableOf, h1, List.mem_map] at he
  obtain ⟨p, _, rfl⟩ := he
  apply codeOf_mem
  rw [(codeTable_spec t).1]
  exact h3.mem_iff.2 hx

/-- The code of a symbol of the input is its table entry's. -/
theorem codeOf_tableOf_mem {s : List Word} {x : Word} (hx : x ∈ s) : (x, codeOf (tableOf s) x) ∈ tableOf s :=
  codeOf_mem (by rw [tableOf_symbols]; exact List.mem_eraseDups.2 hx)

theorem tableOf_ne_nil {s : List Word} {e : Word × List Bool} (he : e ∈ tableOf s) : e.2 ≠ [] := by
  obtain ⟨t, _, _, _, h⟩ := tableOf_mem he
  exact (codeTable_spec t).2.1 e h

theorem tableOf_prefixFree {s : List Word} {e g : Word × List Bool} (he : e ∈ tableOf s) (hg : g ∈ tableOf s)
    (h : e.2 <+: g.2) : e = g := by
  obtain ⟨t, ht, _, _, h1⟩ := tableOf_mem he
  obtain ⟨t', ht', _, _, h2⟩ := tableOf_mem hg
  rw [ht] at ht'
  cases ht'
  exact (codeTable_spec t).2.2.1 e h1 g h2 h

/-- A code of `L` bits needs an input of at least F(L + 2) symbols, or is the single bit (40_huffman R212). -/
theorem tableOf_fib_le {s : List Word} {e : Word × List Bool} (he : e ∈ tableOf s) :
    e.2.length ≤ 1 ∨ Nat.fib (e.2.length + 2) ≤ s.length := by
  obtain ⟨t, _, hb, hp, h⟩ := tableOf_mem he
  rcases (codeTable_spec t).2.2.2 e h with h1 | h1
  · exact .inl h1
  · refine .inr ((hb.fib_le e h1).1.trans ?_)
    rw [Tree.weight_eq, (hp.map _).sum_eq, ← freqCount_sum, freqCount_eq, List.map_map]
    exact le_rfl

/-! ### The builder as the spec has it (R202 to R205) -/

theorem QEntry.before_iff (a b : QEntry) : a.before b = true ↔ a.keyLt b := by
  simp [QEntry.before, QEntry.keyLt]

/-- An insertion keeps the queue in strict key order, since no two entries share an insertion index (40_huffman R202). -/
theorem queueInsert_keyLt {e : QEntry} {q : List QEntry} (h : q.Pairwise QEntry.keyLt) (hi : ∀ g ∈ q, g.idx ≠ e.idx) :
    (queueInsert e q).Pairwise QEntry.keyLt := by
  induction q with
  | nil => simp [queueInsert]
  | cons g q ih =>
    rw [List.pairwise_cons] at h
    have hg := hi g List.mem_cons_self
    rw [queueInsert]
    split
    · rename_i hb
      rw [QEntry.before_iff] at hb
      refine List.pairwise_cons.2 ⟨fun a ha => ?_, List.pairwise_cons.2 h⟩
      rcases List.mem_cons.1 ha with rfl | ha
      · exact hb
      · have := h.1 a ha
        unfold QEntry.keyLt at *
        omega
    · rename_i hb
      rw [QEntry.before_iff] at hb
      refine List.pairwise_cons.2 ⟨fun a ha => ?_, ih h.2 fun a ha => hi a (List.mem_cons_of_mem _ ha)⟩
      rcases List.mem_cons.1 ((queueInsert_perm e q).mem_iff.1 ha) with rfl | ha
      · unfold QEntry.keyLt at *
        omega
      · exact h.1 a ha

/-- The builder's loop on a queue in key order is the spec's, on the same entries in any order (40_huffman R204). -/
theorem combine_builds {fuel next : Nat} {q q' : List QEntry} {t : Tree} (h : combine fuel next q = some t)
    (hs : q.Pairwise QEntry.keyLt) (hi : ∀ e ∈ q, e.idx < next) (hp : q'.Perm q) : HufBuilds next q' t := by
  induction fuel generalizing next q q' with
  | zero =>
    match q, h with
    | [e], h =>
      cases h
      rw [List.perm_singleton.1 hp]
      exact .root next e
  | succ fuel ih =>
    match q, h with
    | [e], h =>
      cases h
      rw [List.perm_singleton.1 hp]
      exact .root next e
    | a :: b :: q, h =>
      rw [combine] at h
      obtain ⟨h1, h2⟩ := List.pairwise_cons.1 hs
      obtain ⟨h3, h4⟩ := List.pairwise_cons.1 h2
      have hq : ∀ e ∈ q, e.idx < next := fun e he => hi e (List.mem_cons_of_mem _ (List.mem_cons_of_mem _ he))
      refine .combine next q' a b q t hp h1 h3
        (ih h (queueInsert_keyLt h4 fun e he => (hq e he).ne) (fun e he => ?_) (queueInsert_perm _ _).symm)
      rcases List.mem_cons.1 ((queueInsert_perm _ _).mem_iff.1 he) with rfl | he
      · exact Nat.lt_succ_self next
      · exact (hq e he).trans (Nat.lt_succ_self next)

/-- The queue at the start, in key order (40_huffman R203). -/
theorem seedQueue_keys (i : Nat) (t : List (Word × Nat)) :
    (seedQueue i t).Pairwise QEntry.keyLt ∧
      ((t.zipIdx i).map fun p => (⟨p.1.2, p.2, .leaf p.1.1⟩ : QEntry)).Perm (seedQueue i t) ∧
      ∀ e ∈ seedQueue i t, i ≤ e.idx ∧ e.idx < i + t.length := by
  induction t generalizing i with
  | nil => simp [seedQueue]
  | cons p t ih =>
    obtain ⟨x, n⟩ := p
    obtain ⟨h1, h2, h3⟩ := ih (i + 1)
    rw [seedQueue]
    refine ⟨queueInsert_keyLt h1 fun e he => ?_, ?_, fun e he => ?_⟩
    · have := h3 e he
      simp only
      omega
    · rw [List.zipIdx_cons, List.map_cons]
      exact (h2.cons _).trans (queueInsert_perm _ _).symm
    · simp only [List.length_cons]
      rcases List.mem_cons.1 ((queueInsert_perm _ _).mem_iff.1 he) with rfl | he
      · simp only
        omega
      · have := h3 e he
        omega

/-- The tree of an input is the one 40_huffman R203 to R205 build. -/
theorem buildTree_builds {s : List Word} {t : Tree} (h : buildTree (freqCount s) = some t) :
    HufBuilds s.eraseDups.length (hufLeaves s) t := by
  obtain ⟨h1, h2, h3⟩ := seedQueue_keys 0 (freqCount s)
  have hl : (freqCount s).length = s.eraseDups.length := by rw [freqCount_eq, List.length_map]
  have hq : hufLeaves s = ((freqCount s).zipIdx 0).map fun p => (⟨p.1.2, p.2, .leaf p.1.1⟩ : QEntry) := by
    rw [freqCount_eq, List.zipIdx_map, List.map_map]
    rfl
  rw [hq, ← hl]
  exact combine_builds h h1 (fun e he => by simpa using (h3 e he).2) h2

/-- A path of the tree leads to its leaf (40_huffman R208). -/
theorem Tree.leafAt_of_mem_paths {t : Tree} {e : Word × List Bool} (h : e ∈ t.paths) : t.leafAt e.2 = some e.1 := by
  induction t generalizing e with
  | leaf x =>
    simp only [Tree.paths, List.mem_singleton] at h
    subst h
    rfl
  | branch a b iha ihb =>
    simp only [Tree.paths, List.mem_append, List.mem_map] at h
    rcases h with ⟨p, hp, rfl⟩ | ⟨p, hp, rfl⟩
    · exact iha hp
    · exact ihb hp

/-- The codes of an input's table are paths of its tree; one symbol alone has the code "0" (40_huffman R208, R209). -/
theorem tableOf_paths {s : List Word} {t : Tree} (h : buildTree (freqCount s) = some t) {e : Word × List Bool}
    (he : e ∈ tableOf s) :
    (s.eraseDups.length = 1 → e.2 = [false]) ∧ (2 ≤ s.eraseDups.length → t.leafAt e.2 = some e.1) := by
  obtain ⟨t', h1, _, h3, h4⟩ := tableOf_mem he
  rw [h] at h1
  cases h1
  cases t with
  | leaf x =>
    have := h3.length_eq
    simp only [Tree.leaves, List.length_singleton] at this
    simp only [codeTable, List.mem_singleton] at h4
    subst h4
    exact ⟨fun _ => rfl, fun h => by omega⟩
  | branch a b =>
    have := h3.length_eq
    have ha : ∀ t : Tree, 1 ≤ t.leaves.length := by
      intro t
      induction t with
      | leaf x => simp [Tree.leaves]
      | branch a b iha _ =>
        simp only [Tree.leaves, List.length_append]
        omega
    have h5 := ha a
    have h6 := ha b
    simp only [Tree.leaves, List.length_append] at this
    exact ⟨fun h => by omega, fun _ => Tree.leafAt_of_mem_paths h4⟩

end Sys2Proof.Machine
end

