-- ==== Sys2Proof/Laws/HuffmanCode.lean ====
section
/-! SUPPORT. The Huffman artifact, the table checks and the encoder and decoder loops (40_huffman R213 to R218). -/

namespace Sys2Proof.Machine

/-! ### Encoder (R213) -/

theorem encodeBits_ok {table : CodeTable} {i n : Nat} {s : List Word}
    (h : n + (s.flatMap (codeOf table)).length ≤ Config.hufMaxBits) :
    encodeBits table i n s = .ok (s.flatMap (codeOf table)) := by
  induction s generalizing i n with
  | nil => rfl
  | cons x s ih =>
    rw [List.flatMap_cons, List.length_append] at h
    rw [encodeBits, if_neg (by omega), ih (by omega)]
    rfl

theorem encodeBits_eq {table : CodeTable} {i n : Nat} {s : List Word} {bits : List Bool}
    (h : encodeBits table i n s = .ok bits) :
    bits = s.flatMap (codeOf table) ∧ (s = [] ∨ n + bits.length ≤ Config.hufMaxBits) := by
  induction s generalizing i n bits with
  | nil =>
    cases h
    exact ⟨rfl, .inl rfl⟩
  | cons x s ih =>
    rw [encodeBits] at h
    split at h
    · cases h
    · rename_i hle
      split at h
      · cases h
      · rename_i rest hrest
        cases h
        obtain ⟨rfl, h2⟩ := ih hrest
        refine ⟨rfl, .inr ?_⟩
        rw [List.length_append]
        rcases h2 with rfl | h2
        · simp only [List.flatMap_nil, List.length_nil]
          omega
        · omega

/-- The bitstring of an input: the codes of its symbols in order (40_huffman R213). -/
def bitsOf (s : List Word) : List Bool := s.flatMap (codeOf (tableOf s))

theorem tableLengths_iff (table : CodeTable) :
    table.findIdx? (fun e => decide (Config.hufMaxCode < e.2.length)) = none ↔ ∀ e ∈ table, e.2.length ≤ 64 := by
  rw [List.findIdx?_eq_none_iff]
  simp only [decide_eq_false_iff_not, Nat.not_lt]
  rfl

/-- When encoding succeeds, and with what (40_huffman R212, R213). -/
theorem hufEncode_eq_ok_iff (s w : List Word) :
    hufEncode s = .ok w ↔
      (∀ e ∈ tableOf s, e.2.length ≤ 64) ∧ (bitsOf s).length ≤ Config.hufMaxBits ∧ w = hufArtifact (tableOf s) (bitsOf s) := by
  unfold hufEncode
  dsimp only
  constructor
  · intro h
    split at h
    · cases h
    · rename_i hl
      rw [tableLengths_iff] at hl
      split at h
      · cases h
      · rename_i bits hb
        cases h
        obtain ⟨rfl, h2⟩ := encodeBits_eq hb
        refine ⟨hl, ?_, rfl⟩
        rcases h2 with rfl | h2
        · simp [bitsOf]
        · simpa [bitsOf] using h2
  · rintro ⟨hl, hb, rfl⟩
    rw [(tableLengths_iff _).2 hl]
    dsimp only
    rw [encodeBits_ok (by simpa [bitsOf] using hb)]
    rfl

/-! ### Artifact layout (30_encoding R133 to R138) -/

/-- A table entry as the decoder reads it. -/
def rawOf (e : Word × List Bool) : RawEntry := { symbol := e.1, len := e.2.length, code := bitsToNat e.2 }

theorem rawOf_bits (e : Word × List Bool) : (rawOf e).bits = e.2 := natBits_bitsToNat e.2

theorem flatMap_entryWords_length (table : CodeTable) : (table.flatMap entryWords).length = 4 * table.length := by
  induction table with
  | nil => rfl
  | cons e t ih =>
    rw [List.flatMap_cons, List.length_append, ih]
    simp only [entryWords, List.length_cons, List.length_nil]
    omega

/-- The entries of an artifact read back as they were written, for codes of at most 64 bits (30_encoding R134, R135). -/
theorem rawEntries_entryWords (table : CodeTable) (rest : List Word) (h : ∀ e ∈ table, e.2.length ≤ 64) :
    rawEntries table.length (table.flatMap entryWords ++ rest) = table.map rawOf := by
  induction table with
  | nil => simp [rawEntries]
  | cons e t ih =>
    have he := h e List.mem_cons_self
    have hlt := (bitsToNat_lt e.2).trans_le (Nat.pow_le_pow_right (by omega) he)
    have h1 : (BitVec.ofNat 32 e.2.length).toNat = e.2.length := by
      rw [BitVec.toNat_ofNat, Nat.mod_eq_of_lt (by omega)]
    have h2 : (BitVec.ofNat 32 (bitsToNat e.2)).toNat + 2 ^ 32 * (BitVec.ofNat 32 (bitsToNat e.2 / 2 ^ 32)).toNat =
        bitsToNat e.2 := by
      rw [BitVec.toNat_ofNat, BitVec.toNat_ofNat]
      omega
    simp only [List.length_cons, List.flatMap_cons, entryWords, List.cons_append, List.nil_append, rawEntries, h1, h2,
      List.map_cons]
    rw [ih fun e he => h e (List.mem_cons_of_mem _ he)]
    rfl

theorem rawEntries_length (n : Nat) (ws : List Word) (h : 4 * n ≤ ws.length) : (rawEntries n ws).length = n := by
  induction n generalizing ws with
  | zero => simp [rawEntries]
  | succ n ih =>
    match ws, h with
    | w0 :: w1 :: w2 :: w3 :: rest, h =>
      simp only [rawEntries, List.length_cons] at h ⊢
      rw [ih rest (by omega)]
    | [], h => simp at h
    | [_], h => simp at h; omega
    | [_, _], h => simp at h; omega
    | [_, _, _], h => simp at h; omega

/-- Entry `e` from its four words (30_encoding R134). -/
theorem rawEntries_getElem? (n : Nat) (ws : List Word) (h : 4 * n ≤ ws.length) (e : Nat) (he : e < n) :
    (rawEntries n ws)[e]? = some
      { symbol := ws.getD (4 * e) 0, len := (ws.getD (4 * e + 1) 0).toNat
        code := (ws.getD (4 * e + 2) 0).toNat + 2 ^ 32 * (ws.getD (4 * e + 3) 0).toNat } := by
  induction n generalizing ws e with
  | zero => omega
  | succ n ih =>
    match ws, h with
    | w0 :: w1 :: w2 :: w3 :: rest, h =>
      cases e with
      | zero => simp [rawEntries]
      | succ e =>
        simp only [rawEntries, List.getElem?_cons_succ, List.length_cons] at h ⊢
        rw [ih rest (by omega) e (by omega)]
        rfl
    | [], h => simp at h
    | [_], h => simp at h; omega
    | [_, _], h => simp at h; omega
    | [_, _, _], h => simp at h; omega

/-! ### Table validation (R217) -/

/-- The check finds nothing when every entry passes against the entries before it. -/
theorem firstBadEntry_none {earlier l : List RawEntry}
    (h : ∀ a e b, l = a ++ e :: b → badEntry (earlier ++ a) e = false) : firstBadEntry earlier l = none := by
  induction l generalizing earlier with
  | nil => rfl
  | cons e l ih =>
    rw [firstBadEntry]
    have := h [] e l rfl
    rw [List.append_nil] at this
    rw [this, if_neg (by simp)]
    refine ih fun a f b hl => ?_
    have := h (e :: a) f b (by rw [hl]; rfl)
    simpa using this

/-- The check finds the first entry that fails against the entries before it. -/
theorem firstBadEntry_some {earlier a b : List RawEntry} {e : RawEntry} (he : badEntry (earlier ++ a) e = true)
    (h : ∀ a' f b', a = a' ++ f :: b' → badEntry (earlier ++ a') f = false) :
    firstBadEntry earlier (a ++ e :: b) = some (earlier.length + a.length) := by
  induction a generalizing earlier with
  | nil =>
    rw [List.append_nil] at he
    simp [firstBadEntry, he]
  | cons f a ih =>
    have hf := h [] f a rfl
    rw [List.append_nil] at hf
    rw [List.cons_append, firstBadEntry, hf, if_neg (by simp), ih (by simpa using he)]
    · simp only [List.length_append, List.length_cons, List.length_nil]
      congr 1
      omega
    · intro a' g b' ha
      have := h (f :: a') g b' (by rw [ha]; rfl)
      simpa using this

/-- When one entry fails against another (40_huffman R217). -/
theorem badEntry_eq_true_iff (earlier : List RawEntry) (e : RawEntry) :
    badEntry earlier e = true ↔
      e.len < 1 ∨ 64 < e.len ∨ 2 ^ e.len ≤ e.code ∨
        ∃ f ∈ earlier, f.symbol = e.symbol ∨ f.code % 2 ^ min f.len e.len = e.code % 2 ^ min f.len e.len := by
  simp only [badEntry, Bool.or_eq_true, decide_eq_true_eq, List.any_eq_true]
  simp only [Config.hufMaxCode]
  rw [or_assoc, or_assoc]

/-- Two codes agree on their common length exactly when one is a prefix of the other (30_encoding R135). -/
theorem codes_agree_iff (a b : List Bool) :
    bitsToNat a % 2 ^ min a.length b.length = bitsToNat b % 2 ^ min a.length b.length ↔ a <+: b ∨ b <+: a := by
  rw [bitsToNat_mod_eq_iff a b _ (Nat.min_le_left _ _) (Nat.min_le_right _ _)]
  rcases Nat.le_total a.length b.length with h | h
  · rw [Nat.min_eq_left h, List.take_length]
    constructor
    · intro g
      rw [g]
      exact .inl (List.take_prefix _ _)
    · rintro (g | g)
      · rw [List.prefix_iff_eq_take] at g
        exact g
      · have := g.eq_of_length_le h
        rw [this, List.take_length]
  · rw [Nat.min_eq_right h, List.take_length]
    constructor
    · intro g
      rw [← g]
      exact .inr (List.take_prefix _ _)
    · rintro (g | g)
      · have := g.eq_of_length_le h
        rw [this, List.take_length]
      · rw [List.prefix_iff_eq_take] at g
        exact g.symm

/-- A prefix code with distinct symbols and codes of 1 to 64 bits passes validation (40_huffman R217, R220). -/
theorem firstBadEntry_rawOf {table : CodeTable} (hs : (table.map Prod.fst).Nodup) (hn : ∀ e ∈ table, e.2 ≠ [])
    (hl : ∀ e ∈ table, e.2.length ≤ 64) (hp : ∀ e ∈ table, ∀ f ∈ table, e.2 <+: f.2 → e = f) :
    firstBadEntry [] (table.map rawOf) = none := by
  apply firstBadEntry_none
  intro a e b hab
  rw [List.nil_append]
  by_contra hbad
  rw [Bool.not_eq_false, badEntry_eq_true_iff] at hbad
  obtain ⟨a', t1, hta, rfl, ht1⟩ := List.map_eq_append_iff.1 hab
  obtain ⟨e', b', rfl, rfl, rfl⟩ := List.map_eq_cons_iff.1 ht1
  subst hta
  have he : e' ∈ a' ++ e' :: b' := by simp
  have hne : 0 < e'.2.length := List.length_pos_iff.2 (hn e' he)
  have hle := hl e' he
  have hlt := bitsToNat_lt e'.2
  rcases hbad with h | h | h | ⟨f, hf, h⟩
  · simp only [rawOf] at h
    omega
  · simp only [rawOf] at h
    omega
  · simp only [rawOf] at h
    omega
  · obtain ⟨f', hf', rfl⟩ := List.mem_map.1 hf
    have hfm : f' ∈ a' ++ e' :: b' := List.mem_append_left _ hf'
    rw [List.map_append, List.map_cons] at hs
    have hd := (List.nodup_append.1 hs).2.2 f'.1 (List.mem_map_of_mem hf') e'.1 List.mem_cons_self
    rcases h with h | h
    · exact hd h
    · rcases (codes_agree_iff f'.2 e'.2).1 h with h | h
      · exact hd (by rw [hp f' hfm e' he h])
      · exact hd (by rw [hp e' he f' hfm h])

/-! ### Decoder loop (R218) -/

theorem decodeBits_skip (table : List RawEntry) (p k : Nat) (bits : List Bool) :
    decodeBits table p k bits = decodeBits table (p + k) 0 (bits.drop k) := by
  induction k generalizing p bits with
  | zero => rfl
  | succ k ih =>
    cases bits with
    | nil => simp [decodeBits]
    | cons b bits =>
      rw [decodeBits, ih, List.drop_succ_cons]
      congr 1
      omega

/-- One symbol: the entry whose code the rest begins with (40_huffman R218). -/
theorem decodeBits_match {table : List RawEntry} {p : Nat} {bits : List Bool} {e : RawEntry} (hb : bits ≠ [])
    (he : 1 ≤ e.len) (h : table.find? (fun e => e.bits.isPrefixOf bits) = some e) :
    decodeBits table p 0 bits =
      match decodeBits table (p + e.len) 0 (bits.drop e.len) with
      | .error err => .error err
      | .ok out => .ok (e.symbol :: out) := by
  cases bits with
  | nil => exact absurd rfl hb
  | cons b bits =>
    rw [decodeBits, h]
    dsimp only
    rw [decodeBits_skip, show p + 1 + (e.len - 1) = p + e.len by omega]
    obtain ⟨n, hn⟩ : ∃ n, e.len = n + 1 := ⟨e.len - 1, by omega⟩
    rw [hn, List.drop_succ_cons, Nat.add_sub_cancel]
    all_goals rfl

/-- No two entries agree (40_huffman R217): then at most one matches (R218). -/
def NoClash (table : List RawEntry) : Prop :=
  table.Pairwise fun f e => f.code % 2 ^ min f.len e.len ≠ e.code % 2 ^ min f.len e.len

theorem isPrefixOf_bits_iff (e : RawEntry) (bits : List Bool) :
    e.bits.isPrefixOf bits = true ↔ e.len ≤ bits.length ∧ ∀ i, i < e.len → bits[i]? = some (e.code.testBit i) := by
  rw [List.isPrefixOf_iff_prefix, List.prefix_iff_getElem?]
  simp only [RawEntry.bits, natBits_length]
  constructor
  · intro h
    have h1 : ∀ i, i < e.len → bits[i]? = some (e.code.testBit i) := by
      intro i hi
      have := h i hi
      rw [this]
      simp [natBits]
    refine ⟨?_, h1⟩
    by_contra hlt
    have := h1 (e.len - 1) (by omega)
    rw [List.getElem?_eq_none (by omega)] at this
    cases this
  · rintro ⟨_, h⟩ i hi
    rw [h i hi]
    simp [natBits]

theorem codes_agree_of_match {f e : RawEntry} {bits : List Bool} (hf : f.bits.isPrefixOf bits = true)
    (he : e.bits.isPrefixOf bits = true) : f.code % 2 ^ min f.len e.len = e.code % 2 ^ min f.len e.len := by
  rw [isPrefixOf_bits_iff] at hf he
  apply Nat.eq_of_testBit_eq
  intro i
  rw [Nat.testBit_mod_two_pow, Nat.testBit_mod_two_pow]
  by_cases hi : i < min f.len e.len
  · have h1 := hf.2 i (by omega)
    have h2 := he.2 i (by omega)
    rw [h1] at h2
    cases hb : e.code.testBit i <;> simp_all
  · simp [hi]

/-- Over a table without clashes the search finds the entry that matches (40_huffman R218, "at most one"). -/
theorem find?_of_match {table : List RawEntry} (hc : NoClash table) {e : RawEntry} (he : e ∈ table) {bits : List Bool}
    (h : e.bits.isPrefixOf bits = true) : table.find? (fun e => e.bits.isPrefixOf bits) = some e := by
  induction table with
  | nil => simp at he
  | cons f table ih =>
    unfold NoClash at hc
    rw [List.pairwise_cons] at hc
    rcases List.mem_cons.1 he with rfl | he'
    · rw [List.find?_cons, h]
    · have hf : f.bits.isPrefixOf bits = false := by
        by_contra hf
        rw [Bool.not_eq_false] at hf
        exact hc.1 e he' (codes_agree_of_match hf h)
      rw [List.find?_cons, hf]
      exact ih hc.2 he'

/-! ### An artifact by its words -/

/-- The table of an artifact, as the decoder reads it. -/
def tableIn (w : List Word) : List RawEntry := rawEntries (w.getD 1 0).toNat (w.drop 2)

/-- The bitstring of an artifact (30_encoding R136). -/
def bitsIn (w : List Word) : List Bool :=
  (unpackBits ((w.drop 2).drop (4 * (w.getD 1 0).toNat))).take (w.getD 0 0).toNat

/-- The decoder on an artifact of the right shape (40_huffman R216 to R218). -/
theorem hufDecode_of_shape {w : List Word} (h : hufShape w) :
    hufDecode w =
      match firstBadEntry [] (tableIn w) with
      | some e => .error ⟨.decHufTableInvalid, e⟩
      | none => decodeBits (tableIn w) 0 0 (bitsIn w) := by
  obtain ⟨h2, hl⟩ := h
  match w, h2, hl with
  | nb :: ne :: body, _, hl =>
    simp only [List.getD_cons_zero, List.getD_cons_succ] at hl
    unfold hufDecode
    dsimp only
    have hneed : (nb :: ne :: body).length = hufLen nb.toNat ne.toNat := hl
    rw [if_neg (by omega), if_neg (by omega)]
    rfl

theorem tableIn_length {w : List Word} (h : hufShape w) : (tableIn w).length = (w.getD 1 0).toNat := by
  obtain ⟨h2, hl⟩ := h
  apply rawEntries_length
  rw [List.length_drop]
  omega

theorem tableIn_getElem? {w : List Word} (h : hufShape w) {e : Nat} (he : e < (w.getD 1 0).toNat) :
    (tableIn w)[e]? = some { symbol := tableSymbol w e, len := tableLen w e, code := tableCode w e } := by
  obtain ⟨h2, hl⟩ := h
  rw [tableIn, rawEntries_getElem? _ _ (by rw [List.length_drop]; omega) e he]
  simp only [tableSymbol, tableLen, tableCode, List.getD_eq_getElem?_getD, List.getElem?_drop]
  rw [show 2 + (4 * e + 1) = 3 + 4 * e by omega, show 2 + (4 * e + 2) = 4 + 4 * e by omega,
    show 2 + (4 * e + 3) = 5 + 4 * e by omega]

theorem bitsIn_length {w : List Word} (h : hufShape w) : (bitsIn w).length = (w.getD 0 0).toNat := by
  obtain ⟨h2, hl⟩ := h
  have := le_ceilDiv_mul (w.getD 0 0).toNat 32 (by omega)
  simp only [bitsIn, List.length_take, unpackBits_length, List.length_drop]
  omega

theorem getElem?_eq_getD (w : List Word) {k : Nat} (h : k < w.length) : w[k]? = some (w.getD k 0) := by
  rw [List.getElem?_eq_getElem h, List.getD_eq_getElem _ _ h]

theorem bitsIn_getElem? {w : List Word} (h : hufShape w) {k : Nat} (hk : k < (w.getD 0 0).toNat) :
    (bitsIn w)[k]? = some (tableBit w k) := by
  obtain ⟨h2, hl⟩ := h
  have := le_ceilDiv_mul (w.getD 0 0).toNat 32 (by omega)
  have hlt : 2 + 4 * (w.getD 1 0).toNat + k / 32 < w.length := by omega
  have hget : w[2 + 4 * (w.getD 1 0).toNat + k / 32]? = some (w.getD (2 + 4 * (w.getD 1 0).toNat + k / 32) 0) :=
    getElem?_eq_getD w hlt
  rw [bitsIn, List.getElem?_take, if_pos hk, unpackBits_getElem?, List.getElem?_drop, List.getElem?_drop, ← Nat.add_assoc,
    hget]
  rfl

/-- Entry `e` fails against the entries before it, in the artifact's words (40_huffman R217). -/
theorem badEntry_tableIn {w : List Word} (h : hufShape w) {a b : List RawEntry} {e : RawEntry}
    (hab : tableIn w = a ++ e :: b) : badEntry a e = true ↔ tableEntryFails w a.length := by
  have hlen := tableIn_length h
  have hae : a.length < (w.getD 1 0).toNat := by
    rw [← hlen, hab, List.length_append, List.length_cons]
    omega
  have he : e = { symbol := tableSymbol w a.length, len := tableLen w a.length, code := tableCode w a.length } := by
    have h1 := tableIn_getElem? h hae
    rw [hab, List.getElem?_append_right (Nat.le_refl _), Nat.sub_self] at h1
    simpa using h1
  rw [badEntry_eq_true_iff, he]
  have hex : ∀ P : RawEntry → Prop, (∃ f ∈ a, P f) ↔
      ∃ j, j < a.length ∧ P { symbol := tableSymbol w j, len := tableLen w j, code := tableCode w j } := by
    intro P
    have hj : ∀ j, j < a.length →
        a[j]? = some { symbol := tableSymbol w j, len := tableLen w j, code := tableCode w j } := by
      intro j hj
      have h1 := tableIn_getElem? h (e := j) (by omega)
      rwa [hab, List.getElem?_append_left hj] at h1
    constructor
    · rintro ⟨f, hf, hP⟩
      obtain ⟨j, hj', hg⟩ := List.getElem_of_mem hf
      refine ⟨j, hj', ?_⟩
      have := hj j hj'
      rw [List.getElem?_eq_getElem hj', hg] at this
      cases this
      exact hP
    · rintro ⟨j, hj', hP⟩
      exact ⟨_, List.mem_of_getElem? (hj j hj'), hP⟩
  rw [hex fun f => f.symbol = tableSymbol w a.length ∨
    f.code % 2 ^ min f.len (tableLen w a.length) = tableCode w a.length % 2 ^ min f.len (tableLen w a.length)]
  rfl

/-- A match at bit `p`, in the artifact's words (40_huffman R218). -/
theorem tableMatches_iff {w : List Word} (h : hufShape w) {e p : Nat} (he : e < (w.getD 1 0).toNat)
    (hp : p ≤ (w.getD 0 0).toNat) :
    tableMatches w e p ↔
      (RawEntry.bits { symbol := tableSymbol w e, len := tableLen w e, code := tableCode w e }).isPrefixOf
        ((bitsIn w).drop p) = true := by
  have hl := bitsIn_length h
  rw [isPrefixOf_bits_iff]
  simp only [tableMatches, List.length_drop, hl, List.getElem?_drop]
  constructor
  · rintro ⟨_, h1, h2⟩
    refine ⟨by omega, fun i hi => ?_⟩
    rw [bitsIn_getElem? h (by omega), h2 i hi]
  · rintro ⟨h1, h2⟩
    refine ⟨he, by omega, fun i hi => ?_⟩
    have := h2 i hi
    rw [bitsIn_getElem? h (by omega)] at this
    exact Option.some.inj this

/-- Over a valid table: no clash, and every code has a bit (40_huffman R217). -/
theorem valid_tableIn {w : List Word} (h : hufShape w) (hv : ∀ e, e < (w.getD 1 0).toNat → ¬tableEntryFails w e) :
    firstBadEntry [] (tableIn w) = none ∧ NoClash (tableIn w) ∧ ∀ e, e < (w.getD 1 0).toNat → 1 ≤ tableLen w e := by
  have hlen := tableIn_length h
  refine ⟨firstBadEntry_none fun a e b hab => ?_, ?_, fun e he => ?_⟩
  · rw [List.nil_append]
    by_contra hb
    rw [Bool.not_eq_false, badEntry_tableIn h hab] at hb
    refine hv _ ?_ hb
    rw [← hlen, hab, List.length_append, List.length_cons]
    omega
  · unfold NoClash
    rw [List.pairwise_iff_getElem]
    intro j e hj he hje heq
    have h1 := tableIn_getElem? h (e := j) (by omega)
    have h2 := tableIn_getElem? h (e := e) (by omega)
    rw [List.getElem?_eq_getElem hj] at h1
    rw [List.getElem?_eq_getElem he] at h2
    rw [Option.some.inj h1, Option.some.inj h2] at heq
    exact hv e (by omega) (.inr (.inr (.inr ⟨j, hje, .inr heq⟩)))
  · by_contra hc
    exact hv e he (.inl (by omega))

theorem DecodesTo.le {w : List Word} {p q : Nat} {out : List Word} (hd : DecodesTo w p out q) (hp : p ≤ (w.getD 0 0).toNat) :
    q ≤ (w.getD 0 0).toNat := by
  induction out generalizing p with
  | nil => exact hd ▸ hp
  | cons x out ih =>
    obtain ⟨e, hm, _, hd⟩ := hd
    exact ih hd hm.2.1

/-- The loop over a run of matches (40_huffman R218). -/
theorem decodeBits_of_decodesTo {w : List Word} (h : hufShape w)
    (hv : ∀ e, e < (w.getD 1 0).toNat → ¬tableEntryFails w e) {p q : Nat} {out : List Word}
    (hp : p ≤ (w.getD 0 0).toNat) (hd : DecodesTo w p out q) :
    decodeBits (tableIn w) p 0 ((bitsIn w).drop p) =
      match decodeBits (tableIn w) q 0 ((bitsIn w).drop q) with
      | .error e => .error e
      | .ok rest => .ok (out ++ rest) := by
  obtain ⟨_, hc, h1⟩ := valid_tableIn h hv
  induction out generalizing p with
  | nil =>
    cases hd
    cases decodeBits (tableIn w) q 0 ((bitsIn w).drop q) <;> rfl
  | cons x out ih =>
    obtain ⟨e, hm, hx, hd⟩ := hd
    have hfind := find?_of_match hc (List.mem_of_getElem? (tableIn_getElem? h hm.1)) ((tableMatches_iff h hm.1 hp).1 hm)
    have hlen := h1 e hm.1
    have hne : (bitsIn w).drop p ≠ [] := by
      rw [← List.length_pos_iff, List.length_drop, bitsIn_length h]
      have := hm.2.1
      omega
    rw [decodeBits_match hne hlen hfind, List.drop_drop, ih hm.2.1 hd, hx]
    cases decodeBits (tableIn w) q 0 ((bitsIn w).drop q) <;> rfl

/-- The loop where no entry matches (40_huffman R218). -/
theorem decodeBits_noMatch {w : List Word} (h : hufShape w) {p : Nat} (hp : p < (w.getD 0 0).toNat)
    (hn : ∀ e, ¬tableMatches w e p) :
    decodeBits (tableIn w) p 0 ((bitsIn w).drop p) = .error ⟨.decHufNoMatch, p⟩ := by
  have hfind : (tableIn w).find? (fun e => e.bits.isPrefixOf ((bitsIn w).drop p)) = none := by
    rw [List.find?_eq_none]
    intro r hr hm
    obtain ⟨e, he, rfl⟩ := List.getElem_of_mem hr
    have hen : e < (w.getD 1 0).toNat := by rw [← tableIn_length h]; exact he
    have hg := tableIn_getElem? h hen
    rw [List.getElem?_eq_getElem he] at hg
    rw [Option.some.inj hg] at hm
    exact hn e ((tableMatches_iff h hen (Nat.le_of_lt hp)).2 hm)
  have hne : (bitsIn w).drop p ≠ [] := by
    rw [← List.length_pos_iff, List.length_drop, bitsIn_length h]
    omega
  cases hb : (bitsIn w).drop p with
  | nil => exact absurd hb hne
  | cons b bits =>
    rw [hb] at hfind
    rw [decodeBits, hfind]

/-! ### The artifact of an encoding -/

/-- An artifact read back: its counts, its table and its bitstring (30_encoding R133 to R138). -/
theorem hufArtifact_spec {table : CodeTable} {bits : List Bool} (hl : ∀ e ∈ table, e.2.length ≤ 64)
    (hb : bits.length ≤ Config.hufMaxBits) (ht : table.length ≤ bits.length) :
    hufShape (hufArtifact table bits) ∧ ((hufArtifact table bits).getD 0 0).toNat = bits.length ∧
      ((hufArtifact table bits).getD 1 0).toNat = table.length ∧
      tableIn (hufArtifact table bits) = table.map rawOf ∧ bitsIn (hufArtifact table bits) = bits := by
  have hm : Config.hufMaxBits < 2 ^ 32 := by decide
  have h0 : ((hufArtifact table bits).getD 0 0).toNat = bits.length := by
    simp [hufArtifact]
    omega
  have h1 : ((hufArtifact table bits).getD 1 0).toNat = table.length := by
    simp [hufArtifact]
    omega
  have hlen : (hufArtifact table bits).length = 2 + 4 * table.length + ceilDiv bits.length 32 := by
    simp only [hufArtifact, List.length_cons, List.length_append, flatMap_entryWords_length, packBits_length]
    omega
  refine ⟨⟨by omega, by rw [h0, h1, hlen]⟩, h0, h1, ?_, ?_⟩
  · unfold tableIn
    rw [h1]
    simp only [hufArtifact, List.drop_succ_cons, List.drop_zero]
    exact rawEntries_entryWords table _ hl
  · unfold bitsIn
    rw [h1, h0]
    simp only [hufArtifact, List.drop_succ_cons, List.drop_zero]
    rw [← flatMap_entryWords_length table, List.drop_left, take_unpackBits_packBits]

theorem length_le_flatMap_codeOf {s l : List Word} (h : ∀ x ∈ l, x ∈ s) :
    l.length ≤ (l.flatMap (codeOf (tableOf s))).length := by
  induction l with
  | nil => simp
  | cons x l ih =>
    have h1 := List.length_pos_iff.2 (tableOf_ne_nil (codeOf_tableOf_mem (h x List.mem_cons_self)))
    have h2 := ih fun y hy => h y (List.mem_cons_of_mem _ hy)
    dsimp only at h1
    simp only [List.flatMap_cons, List.length_append, List.length_cons]
    omega

theorem length_eraseDups_le (s : List Word) : s.eraseDups.length ≤ s.length := by
  have h : s.eraseDups.length ≤ s.toFinset.card := by
    have : s.eraseDups.toFinset = s.toFinset := by
      ext x
      simp
    rw [← this, List.toFinset_card_of_nodup (nodup_eraseDups s)]
  exact h.trans (List.toFinset_card_le s)

/-- Every distinct symbol has at least one bit in the bitstring, so NENT is at most NBITS. -/
theorem tableOf_length_le (s : List Word) : (tableOf s).length ≤ (bitsOf s).length := by
  have h1 : (tableOf s).length = s.eraseDups.length := by rw [← tableOf_symbols, List.length_map]
  rw [h1]
  exact (length_eraseDups_le s).trans (length_le_flatMap_codeOf fun _ h => h)

theorem bitsOf_length_le {s : List Word} {b : Nat} (h : ∀ e ∈ tableOf s, e.2.length ≤ b) :
    (bitsOf s).length ≤ b * s.length := by
  have key : ∀ l : List Word, (∀ x ∈ l, x ∈ s) → (l.flatMap (codeOf (tableOf s))).length ≤ b * l.length := by
    intro l hl
    induction l with
    | nil => simp
    | cons x l ih =>
      have h1 := h _ (codeOf_tableOf_mem (hl x List.mem_cons_self))
      have h2 := ih fun y hy => hl y (List.mem_cons_of_mem _ hy)
      dsimp only at h1
      simp only [List.flatMap_cons, List.length_append, List.length_cons, Nat.mul_add]
      omega
  exact key s fun _ h => h

/-- A bitstring made of the codes of table entries decodes to their symbols (40_huffman R218). -/
theorem decodesTo_of_codes {w : List Word} (h : hufShape w) {table : CodeTable} (ht : tableIn w = table.map rawOf)
    (g : Word → List Bool) {s : List Word} (hs : ∀ x ∈ s, (x, g x) ∈ table) {pre : List Bool}
    (hp : bitsIn w = pre ++ s.flatMap g) : DecodesTo w pre.length s (w.getD 0 0).toNat := by
  have hbl := bitsIn_length h
  induction s generalizing pre with
  | nil =>
    rw [hp] at hbl
    simpa [DecodesTo] using hbl
  | cons x s ih =>
    obtain ⟨e, he, hx⟩ := List.getElem_of_mem (hs x List.mem_cons_self)
    have hl := tableIn_length h
    rw [ht, List.length_map] at hl
    have hg := tableIn_getElem? h (e := e) (by omega)
    rw [ht, List.getElem?_map, List.getElem?_eq_getElem he, hx] at hg
    have hraw := Option.some.inj hg
    have hsym : tableSymbol w e = x := (congrArg RawEntry.symbol hraw).symm
    have hlen : tableLen w e = (g x).length := (congrArg RawEntry.len hraw).symm
    refine ⟨e, ?_, hsym, ?_⟩
    · rw [tableMatches_iff h (by omega) (by rw [← hbl, hp]; simp), ← hraw, rawOf_bits, hp]
      simp
    · rw [hlen]
      have := ih (fun y hy => hs y (List.mem_cons_of_mem _ hy)) (pre := pre ++ g x) (by rw [hp]; simp)
      simpa using this

/-- The artifact of an encoding: its shape and counts, its table and bits, and that its table passes validation
(40_huffman R213, R220). -/
theorem hufEncode_artifact {s w : List Word} (h : hufEncode s = .ok w) :
    hufShape w ∧ (w.getD 0 0).toNat = (bitsOf s).length ∧ (w.getD 1 0).toNat = (tableOf s).length ∧
      tableIn w = (tableOf s).map rawOf ∧ bitsIn w = bitsOf s ∧ firstBadEntry [] (tableIn w) = none := by
  obtain ⟨h1, h2, rfl⟩ := (hufEncode_eq_ok_iff s w).1 h
  obtain ⟨a, b, c, d, e⟩ := hufArtifact_spec h1 h2 (tableOf_length_le s)
  refine ⟨a, b, c, d, e, ?_⟩
  rw [d]
  exact firstBadEntry_rawOf (by rw [tableOf_symbols]; exact nodup_eraseDups s) (fun e he => tableOf_ne_nil he) h1
    (fun e he f hf hp => tableOf_prefixFree he hf hp)

/-- An input short enough for its codes to fit 64 bits each encodes (40_huffman R212, R213). -/
theorem hufEncode_of_length {s : List Word} (h : 64 * s.length ≤ Config.hufMaxBits) :
    hufEncode s = .ok (hufArtifact (tableOf s) (bitsOf s)) := by
  have hm : Config.hufMaxBits = 4294967295 := by decide
  have hl : ∀ e ∈ tableOf s, e.2.length ≤ 64 := by
    intro e he
    rcases tableOf_fib_le he with h1 | h1
    · omega
    · by_contra hc
      have h2 : Nat.fib 46 ≤ Nat.fib (e.2.length + 2) := Nat.fib_mono (by omega)
      have h3 : Nat.fib 46 = 1836311903 := by norm_num
      omega
  exact (hufEncode_eq_ok_iff s _).2 ⟨hl, (bitsOf_length_le hl).trans h, rfl⟩

end Sys2Proof.Machine
end

