-- ==== Sys2Proof/Laws/Lz77.lean ====
section
/-! SUPPORT. The LZ77 match search, the copy, and the encoder and decoder loops (41_lz77). -/

namespace Sys2Proof.Machine

/-! ### Match length -/

/-- The common prefix is the largest agreement within the bound (41_lz77 R244). -/
theorem le_commonPrefix_iff (ml m : Nat) (u v : List Word) :
    m ≤ commonPrefix ml u v ↔ m ≤ ml ∧ m ≤ u.length ∧ m ≤ v.length ∧ u.take m = v.take m := by
  induction ml generalizing m u v with
  | zero => simp [commonPrefix]; rintro rfl; simp
  | succ ml ih =>
    cases u with
    | nil => cases m <;> simp [commonPrefix]
    | cons x u =>
      cases v with
      | nil => cases m <;> simp [commonPrefix]
      | cons y v =>
        cases m with
        | zero => simp
        | succ m =>
          simp only [commonPrefix, List.length_cons, List.take_succ_cons, List.cons.injEq]
          by_cases hxy : x = y
          · rw [if_pos hxy, Nat.add_le_add_iff_right, ih]
            simp [hxy]
          · simp [hxy]

theorem commonPrefix_le (ml : Nat) (u v : List Word) : commonPrefix ml u v ≤ ml :=
  ((le_commonPrefix_iff ml _ u v).1 (le_refl _)).1

/-- The input seen from distance `d` before the cursor. -/
def fromDistance (before rest : List Word) (d : Nat) : List Word := (before.take d).reverse ++ rest

/-- The match length at distance `d` (41_lz77 R244). -/
def matchLen (ml : Nat) (before rest : List Word) (d : Nat) : Nat := commonPrefix ml (fromDistance before rest d) rest

/-- Everything the search can answer: the best so far, or the first strictly better distance that nothing beats. -/
theorem bestMatch_spec (ml : Nat) (rest window : List Word) (d : Nat) (cand : List Word) (best bd : Nat) :
    (bestMatch ml rest window d cand best bd = (best, bd) ∧
      ∀ k < window.length, commonPrefix ml ((window.take (k + 1)).reverse ++ cand) rest ≤ best) ∨
    ∃ k < window.length, ∃ b, best < b ∧ bestMatch ml rest window d cand best bd = (b, d + k) ∧
      b = commonPrefix ml ((window.take (k + 1)).reverse ++ cand) rest ∧
      (∀ j < k, commonPrefix ml ((window.take (j + 1)).reverse ++ cand) rest < b) ∧
      ∀ j < window.length, commonPrefix ml ((window.take (j + 1)).reverse ++ cand) rest ≤ b := by
  induction window generalizing d cand best bd with
  | nil => exact .inl ⟨rfl, by simp⟩
  | cons x window ih =>
    have hshift : ∀ k, commonPrefix ml (((x :: window).take (k + 1 + 1)).reverse ++ cand) rest =
        commonPrefix ml ((window.take (k + 1)).reverse ++ (x :: cand)) rest := by
      intro k
      simp
    have hzero : commonPrefix ml (((x :: window).take (0 + 1)).reverse ++ cand) rest =
        commonPrefix ml (x :: cand) rest := by simp
    unfold bestMatch
    simp only
    split
    · rename_i hlt
      obtain ⟨he, hall⟩ | ⟨k, hk, b, hb, he, hbk, hfirst, hall⟩ :=
        ih (d + 1) (x :: cand) (commonPrefix ml (x :: cand) rest) d
      · refine .inr ⟨0, by simp, _, hlt, by rw [he, Nat.add_zero], hzero.symm, by simp, fun j hj => ?_⟩
        cases j with
        | zero => rw [hzero]
        | succ j =>
          rw [hshift]
          exact hall j (by simpa using hj)
      · refine .inr ⟨k + 1, by simpa using hk, b, by omega, ?_, ?_, fun j hj => ?_, fun j hj => ?_⟩
        · rw [he]
          congr 1
          omega
        · rw [hshift]
          exact hbk
        · cases j with
          | zero => rw [hzero]; exact hb
          | succ j => rw [hshift]; exact hfirst j (by omega)
        · cases j with
          | zero => rw [hzero]; omega
          | succ j => rw [hshift]; exact hall j (by simpa using hj)
    · rename_i hnlt
      obtain ⟨he, hall⟩ | ⟨k, hk, b, hb, he, hbk, hfirst, hall⟩ := ih (d + 1) (x :: cand) best bd
      · refine .inl ⟨he, fun j hj => ?_⟩
        cases j with
        | zero => rw [hzero]; omega
        | succ j => rw [hshift]; exact hall j (by simpa using hj)
      · refine .inr ⟨k + 1, by simpa using hk, b, hb, ?_, ?_, fun j hj => ?_, fun j hj => ?_⟩
        · rw [he]
          congr 1
          omega
        · rw [hshift]
          exact hbk
        · cases j with
          | zero => rw [hzero]; omega
          | succ j => rw [hshift]; exact hfirst j (by omega)
        · cases j with
          | zero => rw [hzero]; omega
          | succ j => rw [hshift]; exact hall j (by simpa using hj)

/-- The match search in the spec's terms (41_lz77 R245): no match at all, or the longest match at its least distance. -/
theorem findMatch_cases (mo ml : Nat) (before rest : List Word) :
    (findMatch mo ml before rest = (0, 0) ∧
      ∀ d, 1 ≤ d → d ≤ mo → d ≤ before.length → matchLen ml before rest d = 0) ∨
    ∃ d b, findMatch mo ml before rest = (b, d) ∧ 1 ≤ b ∧ 1 ≤ d ∧ d ≤ mo ∧ d ≤ before.length ∧
      matchLen ml before rest d = b ∧
      (∀ e, 1 ≤ e → e < d → matchLen ml before rest e < b) ∧
      ∀ e, 1 ≤ e → e ≤ mo → e ≤ before.length → matchLen ml before rest e ≤ b := by
  have htake : ∀ d, d ≤ mo → commonPrefix ml (((before.take mo).take d).reverse ++ rest) rest =
      matchLen ml before rest d := by
    intro d hd
    rw [matchLen, fromDistance, List.take_take, Nat.min_eq_left hd]
  obtain ⟨he, hall⟩ | ⟨k, hk, b, hb, he, hbk, hfirst, hall⟩ := bestMatch_spec ml rest (before.take mo) 1 rest 0 0
  · refine .inl ⟨he, fun d h1 h2 h3 => ?_⟩
    have := hall (d - 1) (by rw [List.length_take]; omega)
    rw [show d - 1 + 1 = d by omega, htake d h2] at this
    omega
  · rw [List.length_take] at hk
    refine .inr ⟨1 + k, b, he, hb, by omega, by omega, by omega, ?_, fun e h1 h2 => ?_, fun e h1 h2 h3 => ?_⟩
    · rw [← htake (1 + k) (by omega), Nat.add_comm 1 k]
      exact hbk.symm
    · have := hfirst (e - 1) (by omega)
      rwa [show e - 1 + 1 = e by omega, htake e (by omega)] at this
    · have := hall (e - 1) (by rw [List.length_take]; omega)
      rwa [show e - 1 + 1 = e by omega, htake e h2] at this

/-! ### Copy -/

@[simp] theorem lz77Literal_eq (n : Nat) (l : Word) (out : List Word) :
    lz77Literal n l out = List.replicate n l ++ out := by
  induction n generalizing out with
  | zero => rfl
  | succ n ih => simp [lz77Literal, ih, List.replicate_succ']

theorem lz77Copy_length (n o : Nat) (out : List Word) : (lz77Copy n o out).length = n + out.length := by
  induction n generalizing out with
  | zero => simp [lz77Copy]
  | succ n ih =>
    simp only [lz77Copy, ih, List.length_cons]
    omega

theorem fromDistance_succ (x : Word) (before rest : List Word) (d : Nat) :
    fromDistance (x :: before) rest (d + 1) = fromDistance before (x :: rest) d := by
  simp [fromDistance]

theorem fromDistance_eq_cons (before rest : List Word) {d : Nat} (h : d < before.length) :
    fromDistance before rest (d + 1) = before.getD d 0 :: fromDistance before rest d := by
  have : before.take (d + 1) = before.take d ++ [before.getD d 0] := by
    rw [List.take_add_one, List.getElem?_eq_getElem h, List.getD_eq_getElem _ _ h]
    rfl
  simp [fromDistance, this]

/-- The copy reproduces the input wherever the input repeats itself at that distance (41_lz77 R253). -/
theorem lz77Copy_eq (m d : Nat) (before rest : List Word) (h1 : 1 ≤ d) (hd : d ≤ before.length) (hm : m ≤ rest.length)
    (h : (fromDistance before rest d).take m = rest.take m) :
    lz77Copy m d before = (rest.take m).reverse ++ before := by
  induction m generalizing before rest with
  | zero => simp [lz77Copy]
  | succ m ih =>
    obtain ⟨e, rfl⟩ : ∃ e, d = e + 1 := ⟨d - 1, by omega⟩
    cases rest with
    | nil => simp at hm
    | cons x rest =>
      rw [fromDistance_eq_cons _ _ (by omega)] at h
      simp only [List.take_succ_cons, List.cons.injEq] at h
      rw [lz77Copy, Nat.add_sub_cancel, h.1,
        ih (x :: before) rest (by simp; omega) (by simpa using hm) (by rw [fromDistance_succ]; exact h.2)]
      simp

/-! ### The loops -/

/-- What a match found by the encoder gives the decoder: a legal back-reference that reproduces the input. -/
theorem findMatch_copy {mo ml : Nat} {before rest : List Word} {b d : Nat} (h : findMatch mo ml before rest = (b + 1, d)) :
    1 ≤ d ∧ d ≤ mo ∧ d ≤ before.length ∧ b + 1 ≤ ml ∧ b + 1 ≤ rest.length ∧
      lz77Copy (b + 1) d before = (rest.take (b + 1)).reverse ++ before := by
  obtain ⟨he, _⟩ | ⟨d', b', he, _, h1, h2, h3, h4, _, _⟩ := findMatch_cases mo ml before rest
  · rw [he] at h
    cases h
  · rw [he] at h
    cases h
    obtain ⟨k1, _, k3, k4⟩ := (le_commonPrefix_iff ml _ _ _).1 (le_of_eq h4.symm)
    exact ⟨h1, h2, h3, k1, k3, lz77Copy_eq _ _ _ _ h1 h3 k3 k4⟩

/-- The decoder's loop undoes the encoder's, from any cursor (41_lz77 R248, R254). -/
theorem lz77DecodeFrom_encodeFrom (mo ml j skip : Nat) (before rest : List Word) :
    lz77DecodeFrom j ((rest.take skip).reverse ++ before) (lz77EncodeFrom mo ml skip before rest) =
      .ok (before.reverse ++ rest) := by
  induction rest generalizing j skip before with
  | nil => simp [lz77EncodeFrom, lz77DecodeFrom]
  | cons x rest ih =>
    cases skip with
    | succ skip =>
      have := ih j skip (x :: before)
      simpa [lz77EncodeFrom] using this
    | zero =>
      rw [lz77EncodeFrom]
      split
      · have := ih (j + 1) 0 (x :: before)
        simpa [lz77DecodeFrom] using this
      · rename_i best bd hm
        obtain ⟨h1, _, h3, _, _, hcopy⟩ := findMatch_copy hm
        have := ih (j + 1) best (x :: before)
        rw [List.take_zero, List.reverse_nil, List.nil_append, lz77DecodeFrom, if_neg (by simp; omega), if_neg (by simp; omega)]
        simp only
        rw [hcopy]
        simpa using this

/-- Every codeword of the encoder: a literal of length 1, or a match within the bounds (41_lz77 R246 to R248). -/
theorem lz77EncodeFrom_mem {mo ml skip : Nat} {before rest : List Word} {c : Codeword}
    (h : c ∈ lz77EncodeFrom mo ml skip before rest) :
    (c.offset = 0 ∧ c.length = 1) ∨ (1 ≤ c.offset ∧ c.offset ≤ mo ∧ 1 ≤ c.length ∧ c.length ≤ ml) := by
  induction rest generalizing skip before with
  | nil => simp [lz77EncodeFrom] at h
  | cons x rest ih =>
    cases skip with
    | succ skip => exact ih h
    | zero =>
      rw [lz77EncodeFrom] at h
      split at h
      · rcases List.mem_cons.1 h with rfl | h
        · exact .inl ⟨rfl, rfl⟩
        · exact ih h
      · rename_i best bd hm
        obtain ⟨h1, h2, _, h4, _, _⟩ := findMatch_copy hm
        rcases List.mem_cons.1 h with rfl | h
        · exact .inr ⟨h1, h2, by simp, h4⟩
        · exact ih h

/-- At most one codeword per symbol (41_lz77 R248). -/
theorem lz77EncodeFrom_length (mo ml skip : Nat) (before rest : List Word) :
    (lz77EncodeFrom mo ml skip before rest).length ≤ rest.length - skip := by
  induction rest generalizing skip before with
  | nil => simp [lz77EncodeFrom]
  | cons x rest ih =>
    cases skip with
    | succ skip =>
      have := ih skip (x :: before)
      simpa [lz77EncodeFrom] using this
    | zero =>
      rw [lz77EncodeFrom]
      split
      · have := ih 0 (x :: before)
        simpa using this
      · rename_i best bd hm
        have := ih best (x :: before)
        simp only [List.length_cons]
        omega

/-! ### Codeword words -/

/-- A codeword whose fields fit is what its two words say (30_encoding R130). -/
theorem Codeword.ofWords_words {c : Codeword} (ho : c.offset ≤ 65535) (hl : c.length ≤ 65535) :
    Codeword.ofWords (BitVec.ofNat 32 (c.offset + 2 ^ 16 * c.length)) c.literal = c := by
  have h : (BitVec.ofNat 32 (c.offset + 2 ^ 16 * c.length)).toNat = c.offset + 2 ^ 16 * c.length := by
    rw [BitVec.toNat_ofNat, Nat.mod_eq_of_lt (by omega)]
  cases c
  simp only [Codeword.ofWords, h, Codeword.mk.injEq, and_true] at *
  omega

theorem codewordsOf_flatMap_words {cw : List Codeword} (h : ∀ c ∈ cw, c.offset ≤ 65535 ∧ c.length ≤ 65535) :
    codewordsOf (cw.flatMap Codeword.words) = cw := by
  induction cw with
  | nil => rfl
  | cons c cw ih =>
    obtain ⟨ho, hl⟩ := h c (by simp)
    simp only [List.flatMap_cons, Codeword.words, List.cons_append, List.nil_append, codewordsOf,
      Codeword.ofWords_words ho hl, ih fun d hd => h d (List.mem_cons_of_mem _ hd)]

theorem flatMap_words_length (cw : List Codeword) : (cw.flatMap Codeword.words).length = 2 * cw.length := by
  induction cw with
  | nil => rfl
  | cons c cw ih =>
    simp only [List.flatMap_cons, List.length_append, ih, Codeword.words, List.length_cons, List.length_nil]
    omega

/-! ### The match length in the spec's terms -/

theorem fromDistance_getElem? (before rest : List Word) (d j : Nat) :
    (fromDistance before rest d)[j]? = (before.reverse ++ rest)[before.length - d + j]? := by
  have h : before.reverse ++ rest = (before.drop d).reverse ++ fromDistance before rest d := by
    unfold fromDistance
    rw [← List.append_assoc, ← List.reverse_append, List.take_append_drop]
  rw [h, List.getElem?_append_right (by simp)]
  congr 1
  simp

/-- A match of length `m` at distance `d` (41_lz77 R244): the bounds, and agreement of the input with itself. -/
theorem le_matchLen_iff {ml m d : Nat} {before rest : List Word} (hd : d ≤ before.length) :
    m ≤ matchLen ml before rest d ↔
      m ≤ ml ∧ m ≤ rest.length ∧ matchesAt (before.reverse ++ rest) before.length d m := by
  have hv : ∀ j : Nat, rest[j]? = (before.reverse ++ rest)[before.length + j]? := by
    intro j
    rw [List.getElem?_append_right (by simp)]
    simp
  have hlen : (fromDistance before rest d).length = d + rest.length := by
    simp [fromDistance]
    omega
  unfold matchLen matchesAt
  rw [le_commonPrefix_iff]
  constructor
  · rintro ⟨a, b, c, e⟩
    refine ⟨a, c, fun j hj => ?_⟩
    rw [← fromDistance_getElem? before rest, ← hv]
    have := congrArg (fun l => l[j]?) e
    simpa [List.getElem?_take, hj] using this
  · rintro ⟨a, c, e⟩
    refine ⟨a, by omega, c, ?_⟩
    apply List.ext_getElem?
    intro j
    rw [List.getElem?_take, List.getElem?_take]
    split
    · rename_i hj
      rw [fromDistance_getElem? before rest, hv]
      exact e j hj
    · rfl

/-- The prefixes of two runs of one symbol agree as far as both go. -/
theorem commonPrefix_replicate (ml a b : Nat) (x : Word) :
    commonPrefix ml (List.replicate a x) (List.replicate b x) = min ml (min a b) := by
  induction ml generalizing a b with
  | zero => cases a <;> cases b <;> simp [commonPrefix]
  | succ ml ih =>
    cases a with
    | zero => simp [commonPrefix]
    | succ a =>
      cases b with
      | zero => simp [commonPrefix]
      | succ b =>
        simp only [List.replicate_succ, commonPrefix, ih, if_true]
        omega

/-! ### Decoding piece by piece -/

/-- Decoding goes on from the output so far (41_lz77 R254). -/
theorem lz77DecodeFrom_append (cw rest : List Codeword) (j : Nat) (out : List Word) :
    lz77DecodeFrom j out (cw ++ rest) =
      match lz77DecodeFrom j out cw with
      | .error e => .error e
      | .ok s => lz77DecodeFrom (j + cw.length) s.reverse rest := by
  induction cw generalizing j out with
  | nil => simp [lz77DecodeFrom]
  | cons c cw ih =>
    simp only [List.cons_append, lz77DecodeFrom, ih]
    split
    · simp [Nat.add_assoc, Nat.add_comm 1]
    · split
      · rfl
      · simp [Nat.add_assoc, Nat.add_comm 1]

/-- Each copied symbol is the one `o` back in the output, also where it was just written (41_lz77 R253). -/
theorem lz77Copy_spec (m o : Nat) (out : List Word) (ho : 1 ≤ o) (hl : o ≤ out.length) :
    ∃ c, (lz77Copy m o out).reverse = out.reverse ++ c ∧ c.length = m ∧
      ∀ t, t < m → (out.reverse ++ c)[out.length + t]? = (out.reverse ++ c)[out.length + t - o]? := by
  induction m generalizing out with
  | zero => exact ⟨[], by simp [lz77Copy], rfl, by simp⟩
  | succ m ih =>
    obtain ⟨c, h1, h2, h3⟩ := ih (out.getD (o - 1) 0 :: out) (by simp; omega)
    refine ⟨out.getD (o - 1) 0 :: c, by rw [lz77Copy, h1]; simp, by simp [h2], fun t ht => ?_⟩
    have e : (out.getD (o - 1) 0 :: out).reverse ++ c = out.reverse ++ out.getD (o - 1) 0 :: c := by simp
    rw [e] at h3
    cases t with
    | zero =>
      rw [List.getElem?_append_right (by simp), List.getElem?_append_left (by simp; omega),
        List.getElem?_reverse (by omega)]
      simp only [Nat.add_zero, List.length_reverse, Nat.sub_self, List.getElem?_cons_zero]
      rw [show out.length - 1 - (out.length - o) = o - 1 by omega, List.getElem?_eq_getElem (by omega),
        List.getD_eq_getElem _ _ (by omega)]
    | succ t =>
      have := h3 t (by omega)
      simp only [List.length_cons] at this
      rw [show out.length + (t + 1) = out.length + 1 + t by omega]
      exact this

end Sys2Proof.Machine
end

