-- ==== Sys2Proof/Laws/Deflate.lean ====
section
/-! SUPPORT. Deflate chunks and records (43_deflate). -/

namespace Sys2Proof.Machine

/-! ### Chunks (R301) -/

theorem chunksOf_length (size n : Nat) (s : List Word) : (chunksOf size n s).length = n := by
  induction n generalizing s with
  | zero => rfl
  | succ n ih => simp [chunksOf, ih]

theorem chunksOf_flatten (size n : Nat) (s : List Word) (h : s.length ≤ size * n) : (chunksOf size n s).flatten = s := by
  induction n generalizing s with
  | zero =>
    simp only [Nat.mul_zero, Nat.le_zero, List.length_eq_zero_iff] at h
    subst h
    rfl
  | succ n ih =>
    rw [chunksOf, List.flatten_cons, ih _ (by rw [List.length_drop, Nat.mul_succ] at *; omega), List.take_append_drop]

/-- Chunk `q` is the symbols from `q * size` on, at most `size` of them (43_deflate R301). -/
theorem chunksOf_getElem? (size n : Nat) (s : List Word) (q : Nat) (h : q < n) :
    (chunksOf size n s)[q]? = some ((s.drop (q * size)).take size) := by
  induction n generalizing s q with
  | zero => omega
  | succ n ih =>
    cases q with
    | zero => simp [chunksOf]
    | succ q =>
      rw [chunksOf, List.getElem?_cons_succ, ih _ _ (by omega), List.drop_drop, Nat.succ_mul, Nat.add_comm size]

/-- The chunks concatenate to the input, and hold at most 65536 symbols each. -/
theorem inputChunks_flatten (s : List Word) : (inputChunks s).flatten = s :=
  chunksOf_flatten _ _ _ (le_ceilDiv_mul _ _ (by decide))

theorem inputChunks_length (s : List Word) : (inputChunks s).length = ceilDiv s.length 65536 := chunksOf_length _ _ _

theorem mem_inputChunks {s ch : List Word} (h : ch ∈ inputChunks s) : ch.length ≤ 65536 ∧ ch ≠ [] := by
  obtain ⟨q, hq, hg⟩ := List.getElem_of_mem h
  have hlt : q < ceilDiv s.length 65536 := by rwa [inputChunks_length] at hq
  have he := chunksOf_getElem? Config.chunkSize _ s q hlt
  have hi : (inputChunks s)[q]? = some ch := by rw [List.getElem?_eq_getElem hq, hg]
  rw [show chunksOf Config.chunkSize (ceilDiv s.length 65536) s = inputChunks s from rfl, hi] at he
  have hch := Option.some.inj he
  have hc : Config.chunkSize = 65536 := rfl
  have hdiv : q * 65536 < s.length := by
    unfold ceilDiv at hlt
    have := Nat.lt_div_iff_mul_lt (k := 65536) (x := q) (y := s.length + 65536 - 1) (by omega)
    omega
  have hlen : ch.length = min 65536 (s.length - q * 65536) := by
    rw [hch, List.length_take, List.length_drop, hc]
  refine ⟨by omega, ?_⟩
  rw [← List.length_pos_iff]
  omega

/-! ### Coded chunks (R304, R310, R312) -/

theorem lengthsOf_length (cw : List Codeword) : (lengthsOf cw).length = cw.length := by simp [lengthsOf]

theorem litsOf_length (cw : List Codeword) : (litsOf cw).length = 2 * cw.length := by
  induction cw with
  | nil => rfl
  | cons c cw ih =>
    simp only [litsOf, List.flatMap_cons, List.length_append, List.length_cons, List.length_nil] at ih ⊢
    omega

/-- Re-zipping the two arrays gives the triples back (43_deflate R312). -/
theorem rezip_split (cw : List Codeword) :
    rezip (lengthsOf cw) (litsOf cw) = cw.map fun c => (BitVec.ofNat 32 c.offset, BitVec.ofNat 32 c.length, c.literal) := by
  induction cw with
  | nil => rfl
  | cons c cw ih =>
    simp only [lengthsOf, litsOf, List.map_cons, List.flatMap_cons, List.cons_append, List.nil_append, rezip] at ih ⊢
    rw [ih]

theorem fitsField_iff (x : Word) : fitsField x = true ↔ x.toNat ≤ 65535 := by
  have := x.isLt
  have hm : ((Config.maxField : Nat) : Int) = 65535 := rfl
  simp only [fitsField, hm, Bool.and_eq_true, decide_eq_true_eq, BitVec.toInt]
  split <;> omega

/-- A Coded chunk whose two artifacts decode to the arrays of some codewords is those codewords decoded (43_deflate R312,
R316). -/
theorem codedChunk_of_arrays {a b : List Word} {cw : List Codeword} (ha : hufDecode a = .ok (lengthsOf cw))
    (hb : hufDecode b = .ok (litsOf cw)) (hc : ∀ c ∈ cw, c.offset ≤ 65535 ∧ c.length ≤ 65535) :
    codedChunk a b = lz77Decode cw := by
  have hn : ∀ n, n ≤ 65535 → (BitVec.ofNat 32 n).toNat = n := by
    intro n h
    rw [BitVec.toNat_ofNat, Nat.mod_eq_of_lt (by omega)]
  unfold codedChunk
  rw [ha, hb]
  dsimp only
  rw [if_neg (by rw [lengthsOf_length, litsOf_length]; simp), rezip_split, if_pos]
  · congr 1
    rw [List.map_map]
    conv_rhs => rw [← List.map_id cw]
    apply List.map_congr_left
    intro c hc'
    obtain ⟨h1, h2⟩ := hc c hc'
    simp [hn _ h1, hn _ h2]
  · rw [List.all_map, List.all_eq_true]
    intro c hc'
    obtain ⟨h1, h2⟩ := hc c hc'
    simp [fitsField_iff, hn _ h1, hn _ h2, h1, h2]

/-- The artifact at the front of more words (43_deflate R310). -/
theorem frontArtifact_append {a : List Word} (h : hufShape a) (rest : List Word) : frontArtifact (a ++ rest) = some a := by
  obtain ⟨h2, hl⟩ := h
  match a, h2, hl with
  | nb :: ne :: body, _, hl =>
    simp only [List.getD_cons_zero, List.getD_cons_succ] at hl
    have hn : hufLen nb.toNat ne.toNat = (nb :: ne :: body).length := hl.symm
    simp only [List.cons_append, frontArtifact]
    rw [hn, if_pos (by simp), ← List.cons_append, ← List.cons_append, List.take_left]

/-! ### Records (R307, R313) -/

/-- A record that decodes to `out` and takes no word of what follows it. -/
def RecordFor (out r : List Word) : Prop :=
  ∃ tag body, r = tag :: body ∧ ∀ rest, decodeRecord tag (body ++ rest) = .ok (out, body.length)

/-- A Stored record gives its symbols back (43_deflate R311). -/
theorem recordFor_stored {ch : List Word} (h : ch.length < 2 ^ 32) : RecordFor ch (storedRecord ch) := by
  refine ⟨0, BitVec.ofNat 32 ch.length :: ch, rfl, fun rest => ?_⟩
  have hn : (BitVec.ofNat 32 ch.length).toNat = ch.length := by rw [BitVec.toNat_ofNat, Nat.mod_eq_of_lt h]
  unfold decodeRecord
  rw [if_pos rfl]
  simp only [List.cons_append, hn]
  rw [if_neg (by simp), List.take_left]
  simp [Nat.add_comm]

/-- A Coded record gives the codewords of its two artifacts, decoded (43_deflate R310, R312). -/
theorem recordFor_coded {a b out : List Word} (ha : hufShape a) (hb : hufShape b) (h : codedChunk a b = .ok out) :
    RecordFor out (1 :: (a ++ b)) := by
  refine ⟨1, a ++ b, rfl, fun rest => ?_⟩
  unfold decodeRecord
  rw [if_neg (by decide), if_pos rfl, List.append_assoc, frontArtifact_append ha]
  dsimp only
  rw [List.drop_left, frontArtifact_append hb]
  dsimp only
  rw [h]
  simp

/-- Records decode one after another (43_deflate R313). -/
theorem decodeRecords_of_records {outs rs : List (List Word)} (h : List.Forall₂ RecordFor outs rs) (q p : Nat) :
    decodeRecords outs.length q p rs.flatten = .ok outs.flatten := by
  induction h generalizing q p with
  | nil => rfl
  | cons hr _ ih =>
    obtain ⟨tag, body, rfl, hd⟩ := hr
    rw [List.flatten_cons, List.cons_append, List.length_cons, decodeRecords, hd]
    dsimp only [atChunk]
    rw [List.drop_left, ih]
    rfl

/-- What the encoder's loop gives: one record for each chunk (43_deflate R308). -/
theorem encodeChunks_of_records {mo ml : Nat} {chs rs : List (List Word)}
    (h : List.Forall₂ (fun ch r => chunkRecord mo ml ch = .ok r) chs rs) (q : Nat) :
    encodeChunks mo ml q chs = .ok rs.flatten := by
  induction h generalizing q with
  | nil => rfl
  | cons hr _ ih =>
    rw [encodeChunks, hr]
    dsimp only [atChunk]
    rw [ih]
    rfl

/-! ### Sizes (R306, R307, 70_reset_and_hazards R507) -/

theorem ceilDiv_le (a b : Nat) (h : 0 < b) : b * ceilDiv a b < a + b := by
  unfold ceilDiv
  have := Nat.div_mul_le_self (a + b - 1) b
  rw [Nat.mul_comm] at this
  omega

/-- A record is at most two words longer than its chunk (70_reset_and_hazards R507). -/
theorem muxRecord_length {ch a b : List Word} (hm : ch ≠ []) (ha : hufShape a) (hb : hufShape b) :
    (muxRecord ch a b).length ≤ 2 + ch.length := by
  obtain ⟨_, hla⟩ := ha
  obtain ⟨_, hlb⟩ := hb
  have h1 := ceilDiv_le (a.getD 0 0).toNat 32 (by omega)
  have h2 := ceilDiv_le (b.getD 0 0).toNat 32 (by omega)
  have hpos := List.length_pos_iff.2 hm
  unfold muxRecord
  split
  · simp only [storedRecord, List.length_cons]
    omega
  · rename_i hc
    simp only [hufCost, Config.defFactor] at hc
    simp only [List.length_cons, List.length_append]
    omega

/-! ### Arrays that do not come from an encoding (R312) -/

/-- Triple `j` of two arrays of fitting lengths (43_deflate R312). -/
theorem rezip_getElem? (ls ms : List Word) (h : ms.length = 2 * ls.length) {j : Nat} (hj : j < ls.length) :
    (rezip ls ms)[j]? = some (ms.getD (2 * j) 0, ls.getD j 0, ms.getD (2 * j + 1) 0) := by
  induction ls generalizing ms j with
  | nil => simp at hj
  | cons l ls ih =>
    match ms, h with
    | o :: x :: ms, h =>
      cases j with
      | zero => simp [rezip]
      | succ j =>
        simp only [rezip, List.getElem?_cons_succ]
        rw [ih ms (by simp at h; omega) (by simpa using hj)]
        rfl
    | [], h => simp at h
    | [_], h =>
      simp at h
      omega

/-- What decodes has the shape its counts give (40_huffman R216). -/
theorem hufShape_of_hufDecode {a ls : List Word} (h : hufDecode a = .ok ls) : hufShape a := by
  match a, h with
  | nb :: ne :: body, h =>
    unfold hufDecode at h
    dsimp only at h
    split at h
    · cases h
    · split at h
      · cases h
      · rename_i g1 g2
        refine ⟨by simp, ?_⟩
        simp only [List.getD_cons_zero, List.getD_cons_succ]
        unfold hufLen at g1 g2
        omega
  | [], h => cases h
  | [_], h => cases h

theorem rezip_length (ls ms : List Word) (h : ms.length = 2 * ls.length) : (rezip ls ms).length = ls.length := by
  induction ls generalizing ms with
  | nil => simp [rezip]
  | cons l ls ih =>
    match ms, h with
    | o :: x :: ms, h =>
      rw [rezip, List.length_cons, List.length_cons, ih ms (by simp at h; omega)]
    | [], h => simp at h
    | [_], h =>
      simp at h
      omega

theorem rezip_eq (ls ms : List Word) (h : ms.length = 2 * ls.length) :
    rezip ls ms = (List.range ls.length).map fun j => (ms.getD (2 * j) 0, ls.getD j 0, ms.getD (2 * j + 1) 0) := by
  apply List.ext_getElem?
  intro j
  by_cases hj : j < ls.length
  · rw [rezip_getElem? ls ms h hj]
    simp [hj]
  · rw [List.getElem?_eq_none (by rw [rezip_length ls ms h]; omega), List.getElem?_eq_none (by simp; omega)]

/-- The model's field check is the spec's (43_deflate R312). -/
theorem rezip_fits_iff (ls ms : List Word) (h : ms.length = 2 * ls.length) :
    (rezip ls ms).all (fun t => fitsField t.1 && fitsField t.2.1) = true ↔ fieldsFit ls ms := by
  have hm : ((Config.maxField : Nat) : Int) = 65535 := rfl
  rw [rezip_eq ls ms h]
  simp only [List.all_map, List.all_eq_true, List.mem_range, Function.comp_apply, Bool.and_eq_true, fitsField, hm,
    decide_eq_true_eq, fieldsFit]

/-- A Coded chunk whose artifacts decode (43_deflate R312). -/
theorem codedChunk_of_decodes {a b ls ms : List Word} (ha : hufDecode a = .ok ls) (hb : hufDecode b = .ok ms) :
    (ms.length ≠ 2 * ls.length → codedChunk a b = .error ⟨.decDefZipMismatch, 0⟩) ∧
      (ms.length = 2 * ls.length → ¬fieldsFit ls ms → codedChunk a b = .error ⟨.decDefFieldRange, 0⟩) ∧
      (ms.length = 2 * ls.length → fieldsFit ls ms → codedChunk a b = lz77Decode (zipCodewords ls ms)) := by
  unfold codedChunk
  rw [ha, hb]
  refine ⟨fun h => if_pos h, fun h hf => ?_, fun h hf => ?_⟩
  · dsimp only
    rw [if_neg (by omega), if_neg (by rwa [rezip_fits_iff ls ms h])]
  · dsimp only
    rw [if_neg (by omega), if_pos (by rwa [rezip_fits_iff ls ms h]), rezip_eq ls ms h, List.map_map]
    rfl

/-! ### Records of any artifact (R310, R313, R315) -/

/-- A whole record in the spec's terms decodes to its output (43_deflate R311, R312). -/
theorem recordFor_of_gives {r out : List Word} (h : RecordGives r out) : RecordFor out r := by
  obtain ⟨n, rfl, hn⟩ | ⟨a, b, ls, ms, rfl, ha, hb, hm, hf, ho⟩ := h
  · have := recordFor_stored (ch := out) (by rw [hn]; exact n.isLt)
    unfold storedRecord at this
    rwa [hn, BitVec.ofNat_toNat, BitVec.setWidth_eq] at this
  · exact recordFor_coded (hufShape_of_hufDecode ha) (hufShape_of_hufDecode hb)
      (((codedChunk_of_decodes ha hb).2.2 hm hf).trans ho)

/-- Records that decode, and then whatever follows (43_deflate R313). -/
theorem decodeRecords_append {rs : List (List Word × List Word)} (h : ∀ r ∈ rs, RecordGives r.1 r.2) (n q p : Nat)
    (w : List Word) :
    decodeRecords (rs.length + n) q p (rs.flatMap Prod.fst ++ w) =
      match decodeRecords n (q + rs.length) (p + (rs.flatMap Prod.fst).length) w with
      | .error e => .error e
      | .ok rest => .ok (rs.flatMap Prod.snd ++ rest) := by
  induction rs generalizing q p with
  | nil =>
    simp only [List.length_nil, Nat.zero_add, List.flatMap_nil, List.nil_append, Nat.add_zero]
    cases decodeRecords n q p w <;> rfl
  | cons r rs ih =>
    obtain ⟨tag, body, hr, hd⟩ := recordFor_of_gives (h r List.mem_cons_self)
    have hi := ih (fun r hr => h r (List.mem_cons_of_mem _ hr)) (q + 1) (p + 1 + body.length)
    rw [List.flatMap_cons, hr, List.cons_append, List.cons_append, List.append_assoc, List.length_cons,
      show rs.length + 1 + n = rs.length + n + 1 by omega, decodeRecords, hd]
    dsimp only [atChunk]
    rw [List.drop_left, hi, show q + 1 + rs.length = q + (rs.length + 1) by omega, List.length_cons, List.length_append,
      show p + 1 + body.length + (rs.flatMap Prod.fst).length = p + (body.length + (rs.flatMap Prod.fst).length + 1) by omega]
    cases decodeRecords n _ _ w <;> simp

/-- An error of a record is reported at its index (43_deflate R310, R315). -/
theorem decodeRecords_error {n q p : Nat} {tag : Word} {body : List Word} {e : OpError}
    (h : decodeRecord tag body = .error e) : decodeRecords (n + 1) q p (tag :: body) = .error ⟨e.name, q⟩ := by
  rw [decodeRecords, h]
  rfl

/-- What the front of a word list is, if an artifact is there (43_deflate R310). -/
theorem frontArtifact_some {w a : List Word} (h : frontArtifact w = some a) :
    hufShape a ∧ w = a ++ w.drop a.length := by
  unfold frontArtifact at h
  split at h
  · rename_i nb ne body
    split at h
    · rename_i hl
      cases h
      have hlen : ((nb :: ne :: body).take (hufLen nb.toNat ne.toNat)).length = hufLen nb.toNat ne.toNat := by
        rw [List.length_take]
        omega
      have h2 : 2 ≤ hufLen nb.toNat ne.toNat := by
        unfold hufLen
        omega
      obtain ⟨k, hk⟩ : ∃ k, hufLen nb.toNat ne.toNat = k + 2 := ⟨_, (Nat.sub_add_cancel h2).symm⟩
      refine ⟨⟨by rw [hlen]; exact h2, ?_⟩, ?_⟩
      · rw [hlen]
        conv_rhs => rw [hk]
        rfl
      · rw [hlen, List.take_append_drop]
    · cases h
  · cases h

/-- A Coded record without all words of its two artifacts (43_deflate R310). -/
theorem decodeRecord_truncated {w : List Word} (h : ¬∃ a b more, hufShape a ∧ hufShape b ∧ w = a ++ b ++ more) :
    decodeRecord 1 w = .error ⟨.decTruncated, 0⟩ := by
  unfold decodeRecord
  rw [if_neg (by decide), if_pos rfl]
  split
  · rfl
  · rename_i a ha
    split
    · rfl
    · rename_i b hb
      obtain ⟨h1, h2⟩ := frontArtifact_some ha
      obtain ⟨h3, h4⟩ := frontArtifact_some hb
      refine absurd ⟨a, b, (w.drop a.length).drop b.length, h1, h3, ?_⟩ h
      rw [List.append_assoc, ← h4]
      exact h2

/-- A Coded record with all its words, followed by any others (43_deflate R310, R312). -/
theorem decodeRecord_coded {a b : List Word} (ha : hufShape a) (hb : hufShape b) (more : List Word) :
    decodeRecord 1 (a ++ b ++ more) =
      match codedChunk a b with
      | .error e => .error e
      | .ok out => .ok (out, a.length + b.length) := by
  unfold decodeRecord
  rw [if_neg (by decide), if_pos rfl, List.append_assoc]
  cases hc : codedChunk a b <;> simp [frontArtifact_append ha, frontArtifact_append hb, hc]

/-! ### The muxer (R304 to R307) -/

/-- The record of a chunk: its two artifacts, and the muxer's choice (43_deflate R304 to R307). -/
theorem chunkRecord_mux (mo ml : Nat) {ch : List Word} (h : ch.length ≤ 65536) :
    ∃ a b, hufEncode (lengthsOf (lz77Encode ch mo ml)) = .ok a ∧ hufEncode (litsOf (lz77Encode ch mo ml)) = .ok b ∧
      chunkRecord mo ml ch = .ok (muxRecord ch a b) := by
  have hm : Config.hufMaxBits = 4294967295 := by decide
  have hl := lz77EncodeFrom_length mo ml 0 [] ch
  have la := lengthsOf_length (lz77Encode ch mo ml)
  have lb := litsOf_length (lz77Encode ch mo ml)
  unfold lz77Encode at la lb ⊢
  have ea := hufEncode_of_length (s := lengthsOf (lz77EncodeFrom mo ml 0 [] ch)) (by omega)
  have eb := hufEncode_of_length (s := litsOf (lz77EncodeFrom mo ml 0 [] ch)) (by omega)
  refine ⟨_, _, ea, eb, ?_⟩
  unfold chunkRecord lz77Encode
  simp only [ea, eb]

/-- One record for each chunk (43_deflate R308). -/
theorem encodeChunks_records (mo ml : Nat) {chs : List (List Word)} (h : ∀ ch ∈ chs, ch.length ≤ 65536) (q : Nat) :
    ∃ rs : List (List Word), rs.length = chs.length ∧ encodeChunks mo ml q chs = .ok rs.flatten ∧
      ∀ (k : Nat) (ch r : List Word), chs[k]? = some ch → rs[k]? = some r → chunkRecord mo ml ch = .ok r := by
  induction chs generalizing q with
  | nil => exact ⟨[], rfl, rfl, by simp⟩
  | cons ch chs ih =>
    obtain ⟨rs, h1, h2, h3⟩ := ih (fun c hc => h c (List.mem_cons_of_mem _ hc)) (q + 1)
    obtain ⟨a, b, _, _, he⟩ := chunkRecord_mux mo ml (h ch List.mem_cons_self)
    refine ⟨muxRecord ch a b :: rs, by simp [h1], ?_, fun k c r hc hr => ?_⟩
    · rw [encodeChunks, he]
      dsimp only [atChunk]
      rw [h2]
      rfl
    · cases k with
      | zero =>
        simp only [List.getElem?_cons_zero, Option.some.injEq] at hc hr
        rw [← hc, ← hr]
        exact he
      | succ k => exact h3 k c r hc hr

end Sys2Proof.Machine
end

