-- ==== Sys2Proof/Laws/Step.lean ====
section
/-! SUPPORT. The register map, whose turn it is, and everything one step can do. -/

namespace Sys2Proof.Machine

/-! ### The register map -/

@[simp] theorem regAt_offset (r : Reg) : regAt r.offset = some r := by cases r <;> rfl

theorem regAt_eq_some {off : Nat} {r : Reg} (h : regAt off = some r) : off = r.offset := by
  have := List.find?_some h
  simpa using (beq_iff_eq.1 this).symm

theorem regAt_reserved {off : Nat} (h : 0x40 ≤ off) : regAt off = none := by
  rw [regAt, List.find?_eq_none]
  intro r _
  have : r.offset ≤ 0x3C := by cases r <;> decide
  simp only [beq_iff_eq]
  omega

theorem Reg.offset_lt (r : Reg) : r.offset < 256 := by cases r <;> decide

theorem Reg.offset_aligned (r : Reg) : r.offset % 4 = 0 := by cases r <;> decide

/-- An aligned 32-bit access inside the register block reaches its offset. -/
theorem registerOffset_ok (p : Params) {off : Nat} (h : off < 256) (h4 : off % 4 = 0) :
    registerOffset p (p.bzbBase + off) 4 = .ok off := by
  unfold registerOffset
  rw [if_neg (by omega), show p.bzbBase + off - p.bzbBase = off by omega, if_neg (by omega)]

theorem registerOffset_reg (p : Params) (r : Reg) : registerOffset p (p.bzbBase + r.offset) 4 = .ok r.offset :=
  registerOffset_ok p r.offset_lt r.offset_aligned

@[simp] theorem State.visible_of_not_rst {s : State} (h : s.rst = false) : s.visible = s := by simp [State.visible, h]

/-! ### What a host access changes -/

theorem State.acquire_cases (s : State) : s.acquire = s ∨ (s.visible.busy = false ∧ s.acquire = { s with handedOver := [] }) := by
  unfold State.acquire
  cases h : s.visible.busy
  · exact .inr ⟨rfl, rfl⟩
  · exact .inl rfl

/-- A host read hands over a value and may give buffers back to the host; nothing else changes (20_memory R89). -/
theorem State.hostRead_cases (off : Nat) (s : State) :
    s.hostRead off = { s with hostData := s.readOffset off } ∨
      (s.visible.busy = false ∧ s.hostRead off = { s with hostData := s.readOffset off, handedOver := [] }) := by
  unfold State.hostRead
  split
  · have hb : (State.visible { s with hostData := s.readOffset off }).busy = s.visible.busy := by
      unfold State.visible State.busy
      cases s.rst <;> simp
    obtain h | ⟨h, h'⟩ := State.acquire_cases { s with hostData := s.readOffset off }
    · exact .inl h
    · exact .inr ⟨by rw [hb] at h; exact h, h'⟩
  · exact .inl rfl

/-- A CMD write is an accept when idle and a rejection when busy (10_state R39, R57). -/
theorem State.writeCmd_cases (v : Word) (s : State) :
    (s.seq = .idle ∧ s.writeCmd v = s.accept v) ∨ ((∃ c, s.seq = .busy c) ∧ s.writeCmd v = { s with rej := true }) := by
  unfold State.writeCmd
  split <;> rename_i h
  · exact .inl ⟨h, rfl⟩
  · exact .inr ⟨⟨_, h⟩, rfl⟩

theorem State.hostWrite_of_rst {s : State} (h : s.rst = true) (off : Nat) (v : Word) : s.hostWrite off v = s := by
  simp [State.hostWrite, h]

theorem State.hostWrite_reg {s : State} (h : s.rst = false) (r : Reg) (v : Word) :
    s.hostWrite r.offset v = s.writeReg r v := by
  simp [State.hostWrite, h]

theorem State.hostWrite_reserved {off : Nat} (h : 0x40 ≤ off) (v : Word) (s : State) : s.hostWrite off v = s := by
  unfold State.hostWrite
  rw [regAt_reserved h]
  split <;> rfl

/-- A host write is ignored, or is one register's write (10_state R52, 70_reset_and_hazards R500). -/
theorem State.hostWrite_cases (off : Nat) (v : Word) (s : State) :
    s.hostWrite off v = s ∨ (s.rst = false ∧ ∃ r, off = Reg.offset r ∧ s.hostWrite off v = s.writeReg r v) := by
  cases h : s.rst
  · unfold State.hostWrite
    rw [h]
    cases hr : regAt off with
    | none => exact .inl (by simp)
    | some r => exact .inr ⟨rfl, r, regAt_eq_some hr, by simp⟩
  · exact .inl (State.hostWrite_of_rst h off v)

/-- A host load that goes through changes only what the host holds (20_memory R80). -/
theorem hostLoad_next {a : Nat} {s t : State} (h : hostLoad a s = .next t) :
    ∃ v, t = { s with hostData := v, free := s.free + 4 } := by
  unfold hostLoad at h
  split at h
  · cases h
  · split at h
    · cases h
    · cases h
      exact ⟨_, rfl⟩

/-- A host store that goes through is to four existing, backed bytes of no open buffer (70_reset_and_hazards R511). -/
theorem hostStore_next {a : Nat} {v : Word} {s t : State} (h : hostStore a v s = .next t) :
    a + 4 ≤ 2 ^ 32 ∧ wordBacked s.params a = true ∧
      (∀ k, k < 4 → s.bufferOpen (a + k) = false) ∧
      t = { s with mem := s.mem.write a (wordBytes v) } := by
  unfold hostStore at h
  split at h
  · cases h
  · split at h
    · cases h
    · split at h
      · cases h
      · rename_i h1 h2 h3
        cases h
        refine ⟨by omega, by simpa using h2, fun k hk => ?_, rfl⟩
        simp only [List.any_eq_true, List.mem_range, not_exists, not_and, Bool.not_eq_true] at h3
        exact h3 k hk

/-! ### Whose turn it is -/

theorem State.engineMoves_iff {s : State} :
    s.engineMoves = true ↔ s.rst = false ∧ s.busy = true ∧ (s.delay = 0 ∨ s.host = []) := by
  simp [State.engineMoves, and_assoc]

theorem State.EngineTurn.engineMoves {s : State} {c : Snapshot} (h : s.EngineTurn c) : s.engineMoves = true :=
  State.engineMoves_iff.2 ⟨h.2.1, State.busy_of_seq_busy h.1, h.2.2⟩

/-- On the engine's turn a step is the engine's. -/
theorem step_of_engineTurn {s : State} {c : Snapshot} (h : s.EngineTurn c) : step s = engineStep c s := by
  unfold step nextStep
  rw [h.1]
  simp [h.engineMoves]

theorem State.HostTurn.engineMoves {s : State} {op : HostOp} {rest : List HostOp} (h : s.HostTurn op rest) :
    s.engineMoves = false := by
  rw [← Bool.not_eq_true, State.engineMoves_iff]
  rintro ⟨h1, h2, h3⟩
  obtain ⟨hh, hi | hr | hd⟩ := h
  · rw [State.busy_of_seq_idle hi] at h2
    simp at h2
  · simp [h1] at hr
  · rcases h3 with h3 | h3
    · exact hd h3
    · simp [hh] at h3

/-- On the host's turn a step is the host's next action. -/
theorem step_of_hostTurn {s : State} {op : HostOp} {rest : List HostOp} (h : s.HostTurn op rest) :
    step s = hostAction op (s.taken rest) := by
  have hstep : step s = hostStep s := by
    unfold step nextStep
    rw [h.engineMoves]
    cases s.seq <;> simp
  rw [hstep, hostStep, h.1]
  rfl

/-- One step is the engine's completion, the host's next action, or nothing (60_exceptions R425). -/
theorem step_cases (s : State) :
    (∃ c, s.EngineTurn c ∧ step s = engineStep c s) ∨
    (∃ op rest, s.HostTurn op rest ∧ step s = hostAction op (s.taken rest)) ∨
    (s.host = [] ∧ step s = .next s) := by
  cases hm : s.engineMoves
  · have hstep : step s = hostStep s := by
      unfold step nextStep
      rw [hm]
      cases s.seq <;> simp
    cases hh : s.host with
    | nil => exact .inr (.inr ⟨rfl, by rw [hstep, hostStep, hh]⟩)
    | cons op rest =>
      refine .inr (.inl ⟨op, rest, ?_⟩)
      have ht : s.HostTurn op rest := by
        refine ⟨hh, ?_⟩
        by_contra hn
        push Not at hn
        obtain ⟨h1, h2, h3⟩ := hn
        have hb : s.busy = true := by
          rw [← Bool.not_eq_false, State.busy_eq_false_iff]
          exact h1
        rw [State.engineMoves_iff.2 ⟨by simpa using h2, hb, .inl h3⟩] at hm
        simp at hm
      exact ⟨ht, step_of_hostTurn ht⟩
  · obtain ⟨h1, h2, h3⟩ := State.engineMoves_iff.1 hm
    cases hs : s.seq with
    | idle =>
      rw [State.busy_of_seq_idle hs] at h2
      simp at h2
    | busy c =>
      have ht : s.EngineTurn c := ⟨hs, h1, h3⟩
      exact .inl ⟨c, ht, step_of_engineTurn ht⟩

/-- The engine's step is a completion: of a decoded command, or with the error of an illegal word (30_encoding R126). -/
theorem engineStep_cases {s : State} {c : Snapshot} (h : s.seq = .busy c) :
    (∃ i, decode c.cmd = .ok i ∧
      engineStep c s = .next (s.complete (boundedBit i) (operationOf i s.params) c)) ∨
    ∃ e, decode c.cmd = .error e ∧ engineStep c s = .next (s.errorEntry (illegalWordError e)) := by
  unfold engineStep
  cases hd : decode c.cmd with
  | ok i => exact .inl ⟨i, rfl, exec_of_busy h i⟩
  | error e => exact .inr ⟨e, rfl, rfl⟩

/-- `MEM addr: ws` stores word `i` at `addr + 4 * i` (30_encoding R145). -/
theorem opsMem_getElem? (a i : Nat) (ws : List Word) :
    (opsMem a ws)[i]? = ws[i]?.map fun w => .memStore (a + 4 * i) w := by
  induction ws generalizing a i with
  | nil => rfl
  | cons w ws ih =>
    cases i with
    | zero => rfl
    | succ i =>
      simp only [opsMem, List.getElem?_cons_succ, ih]
      congr 2
      funext
      congr 1
      omega

/-- Everything a host or platform action can do when it goes through. -/
theorem hostAction_next {op : HostOp} {s t : State} (h : hostAction op s = .next t) :
    (∃ off v, t = s.hostWrite off v) ∨ (∃ off, t = s.hostRead off) ∨
    (∃ off ops, t = { s.hostRead off with host := ops }) ∨ (∃ ops, t = { s with host := ops }) ∨
    (∃ v, t = { s with hostData := v, free := s.free + 4 }) ∨
    (∃ a v, a + 4 ≤ 2 ^ 32 ∧ (∀ k, k < 4 → s.bufferOpen (a + k) = false) ∧
      t = { s with mem := s.mem.write a (wordBytes v) }) ∨
    t = { s.blockReset with rst := true } ∨ t = { s with rst := false } := by
  cases op with
  | regRead addr bytes =>
    simp only [hostAction] at h
    split at h
    · cases h
    · cases h
      exact .inr (.inl ⟨_, rfl⟩)
  | regWrite addr bytes v =>
    simp only [hostAction] at h
    split at h
    · cases h
    · cases h
      exact .inl ⟨_, _, rfl⟩
  | poll mask =>
    simp only [hostAction] at h
    split at h <;> cases h
    · exact .inr (.inr (.inl ⟨_, _, rfl⟩))
    · exact .inr (.inl ⟨_, rfl⟩)
  | waitIrq =>
    simp only [hostAction] at h
    split at h <;> cases h
    · exact .inr (.inr (.inr (.inl ⟨s.host, rfl⟩)))
    · exact .inr (.inr (.inr (.inl ⟨_, rfl⟩)))
  | memStore addr v =>
    obtain ⟨h1, _, h3, h4⟩ := hostStore_next h
    exact .inr (.inr (.inr (.inr (.inr (.inl ⟨addr, v, h1, h3, h4⟩)))))
  | memLoad addr =>
    obtain ⟨v, hv⟩ := hostLoad_next h
    exact .inr (.inr (.inr (.inr (.inl ⟨v, hv⟩))))
  | rstAssert =>
    cases h
    exact .inr (.inr (.inr (.inr (.inr (.inr (.inl rfl))))))
  | rstRelease =>
    cases h
    exact .inr (.inr (.inr (.inr (.inr (.inr (.inr rfl))))))

/-! ### STATUS bit by bit -/

/-- The bits of STATUS (10_state R37). -/
theorem State.statusWord_getLsbD (s : State) (k : Nat) :
    s.statusWord.getLsbD k =
      ((decide (k = 0) && s.busy) || (decide (k = 1) && s.done) || (decide (k = 2) && s.err) ||
        (decide (k = 3) && s.rej)) := by
  unfold State.statusWord
  generalize s.busy = b
  generalize s.done = d
  generalize s.err = e
  generalize s.rej = r
  by_cases hk : k < 32
  · revert b d e r
    revert k
    decide
  · rw [BitVec.getLsbD_of_ge _ _ (by omega)]
    have : k ≠ 0 ∧ k ≠ 1 ∧ k ≠ 2 ∧ k ≠ 3 := by omega
    simp [this]

/-- Reading a register does not depend on what a host read changes (20_memory R89). -/
theorem State.readOffset_of_hostFields (s : State) (d : Word) (h : List Snapshot) (off : Nat) :
    ({ s with hostData := d, handedOver := h } : State).readOffset off = s.readOffset off := by
  unfold State.readOffset
  cases regAt off with
  | none => rfl
  | some r =>
    unfold State.visible
    cases s.rst <;> cases r <;> rfl

end Sys2Proof.Machine
end

