-- ==== Sys2Proof/Laws/Invariant.lean ====
section
/-! SUPPORT. Each thing a step can do keeps the invariant of Safety.lean. -/

namespace Sys2Proof.Machine

/-- The invariant does not look at the host's list, its data, the free counter or the delays. -/
theorem State.Inv.host {s : State} (h : s.Inv) (ops : List HostOp) (v : Word) (d : Nat) (f : Nat) :
    State.Inv { s with host := ops, hostData := v, delay := d, free := f } :=
  ⟨h.memory, h.doneErr, h.running, h.errcode, h.errRecorded, h.doneClean, h.noOutput, h.dstLen,
    fun hr => ⟨(h.heldInReset hr).ctrl, (h.heldInReset hr).status, (h.heldInReset hr).cmd, (h.heldInReset hr).errcode,
      (h.heldInReset hr).dstLen, (h.heldInReset hr).src, (h.heldInReset hr).dst, (h.heldInReset hr).bounds⟩⟩

/-- A register at its reset value, whatever the platform and the model's own fields hold. -/
theorem State.Inv.ofAtReset {s : State} (hm : s.mem.wf) (h : s.AtReset) : s.Inv := by
  refine ⟨hm, ?_, ?_, .inl ⟨h.errcode.1, h.errcode.2.1⟩, ?_, fun _ => h.errcode.1, fun _ => h.dstLen, ?_, fun _ => h⟩
  · rw [h.status.2.1]
    simp
  · intro c hc
    rw [h.status.1] at hc
    cases hc
  · rw [h.status.2.2.1]
    simp
  · rw [h.dstLen]
    decide

theorem State.Inv.blockReset {s : State} (h : s.Inv) (r : Bool) : State.Inv { s.blockReset with rst := r } := by
  have ha := s.atReset_blockReset
  exact State.Inv.ofAtReset (State.wf_blockReset h.memory)
    ⟨ha.ctrl, ha.status, ha.cmd, ha.errcode, ha.dstLen, ha.src, ha.dst, ha.bounds⟩

theorem State.Inv.blockReset_self {s : State} (h : s.Inv) : s.blockReset.Inv :=
  State.Inv.ofAtReset (State.wf_blockReset h.memory) s.atReset_blockReset

theorem State.Inv.rstRelease {s : State} (h : s.Inv) : State.Inv { s with rst := false } :=
  ⟨h.memory, h.doneErr, h.running, h.errcode, h.errRecorded, h.doneClean, h.noOutput, h.dstLen, by simp⟩

/-- Error entry from BUSY (60_exceptions R422). -/
theorem State.Inv.errorEntry {s : State} {c : Snapshot} (h : s.Inv) (hc : s.seq = .busy c) (hr : s.rst = false)
    (e : OpError) : (s.errorEntry e).Inv := by
  have hq := h.running c hc
  refine ⟨h.memory, ?_, ?_, errorName_legal e.name, fun _ => errorName_kind_ne_zero e.name, ?_, fun _ => rfl, ?_, ?_⟩
  · simp [hq.1]
  · simp
  · simp [hq.1]
  · simp
  · simp [hr]

/-- Success from BUSY (10_state R56). -/
theorem State.Inv.succeed {s : State} {c : Snapshot} (h : s.Inv) (hc : s.seq = .busy c) (hr : s.rst = false)
    {out : List Word} (hd : c.dstAddr.toNat + 4 * out.length ≤ 2 ^ 32) : (s.succeed c out).Inv := by
  have hq := h.running c hc
  refine ⟨Memory.wf_writeWords h.memory _ _ (.inr hd), ?_, ?_, h.errcode, ?_, fun _ => hq.2.2.1.1, ?_, ?_, ?_⟩
  · simp [hq.2.1]
  · simp
  · simp [hq.2.1]
  · intro hk
    exact absurd hq.2.2.1.1 hk
  · have : (BitVec.ofNat 32 out.length).toNat ≤ out.length := by
      rw [BitVec.toNat_ofNat]
      exact Nat.mod_le _ _
    simp only [State.succeed_dstLen]
    omega
  · simp [hr]

theorem State.Inv.scrambleDst {s : State} (h : s.Inv) (c : Snapshot) (hr : s.rst = false) : (s.scrambleDst c).Inv :=
  ⟨State.wf_scrambleDst h.memory c, h.doneErr, h.running, h.errcode, h.errRecorded, h.doneClean, h.noOutput, h.dstLen,
    by simp [hr]⟩

/-- The completion step keeps the invariant. -/
theorem State.Inv.complete {s : State} {c : Snapshot} (h : s.Inv) (hc : s.seq = .busy c) (hr : s.rst = false) (i : Instr)
    (op : Operation) : (s.complete (boundedBit i) op c).Inv := by
  obtain ⟨e, _, he⟩ | ⟨_, e, _, he⟩ | ⟨hp, out, _, hl, he⟩ := s.complete_cases (boundedBit i) op c <;> rw [he]
  · exact h.errorEntry hc hr e
  · exact (h.scrambleDst c hr).errorEntry (c := c) hc hr e
  · have := ((preCheck_eq_none_iff i s.params c).1 hp).dstRange
    exact h.succeed hc hr (by omega)

/-- Command accept keeps the invariant (10_state R55). -/
theorem State.Inv.accept {s : State} (h : s.Inv) (hr : s.rst = false) (v : Word) : (s.accept v).Inv := by
  refine ⟨h.memory, by simp, ?_, .inl ⟨rfl, rfl⟩, by simp, by simp, fun _ => rfl, by simp, by simp [hr]⟩
  intro c hc
  simp only [State.accept_seq, Sequencer.busy.injEq] at hc
  subst hc
  simp [State.Cleared]

theorem State.Inv.writeStatus {s : State} (h : s.Inv) (hr : s.rst = false) (v : Word) : (s.writeStatus v).Inv := by
  refine ⟨h.memory, ?_, ?_, h.errcode, ?_, ?_, h.noOutput, h.dstLen, by simp [hr]⟩
  · have := h.doneErr
    simp only [State.writeStatus_done, State.writeStatus_err, Bool.and_eq_true]
    rintro ⟨⟨h1, _⟩, h2, _⟩
    exact this ⟨h1, h2⟩
  · intro c hc
    obtain ⟨h1, h2, h3, h4, h5⟩ := h.running c hc
    exact ⟨by simp [h1], by simp [h2], h3, h4, h5⟩
  · simp only [State.writeStatus_err, Bool.and_eq_true]
    exact fun he => h.errRecorded he.1
  · simp only [State.writeStatus_done, Bool.and_eq_true]
    exact fun hd => h.doneClean hd.1

/-- A register write keeps the invariant. -/
theorem State.Inv.writeReg {s : State} (h : s.Inv) (hr : s.rst = false) (r : Reg) (v : Word) : (s.writeReg r v).Inv := by
  have hconf : ∀ a b c d e f : Word, ∀ i j : Bool,
      State.Inv { s with ieDone := i, ieErr := j, srcAddr := a, srcLen := b, dstAddr := c, dstCap := d, maxOffset := e,
                         maxLength := f } :=
    fun a b c d e f i j =>
      ⟨h.memory, h.doneErr, h.running, h.errcode, h.errRecorded, h.doneClean, h.noOutput, h.dstLen, by simp [hr]⟩
  cases r with
  | ctrl =>
    simp only [State.writeReg, State.writeCtrl]
    split
    · exact h.blockReset_self
    · exact hconf s.srcAddr s.srcLen s.dstAddr s.dstCap s.maxOffset s.maxLength _ _
  | status => exact h.writeStatus hr v
  | cmd =>
    obtain ⟨_, he⟩ | ⟨_, he⟩ := s.writeCmd_cases v <;> simp only [State.writeReg, he]
    · exact h.accept hr v
    · exact ⟨h.memory, h.doneErr, h.running, h.errcode, h.errRecorded, h.doneClean, h.noOutput, h.dstLen, by simp [hr]⟩
  | srcAddr => exact hconf v s.srcLen s.dstAddr s.dstCap s.maxOffset s.maxLength s.ieDone s.ieErr
  | srcLen => exact hconf s.srcAddr v s.dstAddr s.dstCap s.maxOffset s.maxLength s.ieDone s.ieErr
  | dstAddr => exact hconf s.srcAddr s.srcLen v s.dstCap s.maxOffset s.maxLength s.ieDone s.ieErr
  | dstCap => exact hconf s.srcAddr s.srcLen s.dstAddr v s.maxOffset s.maxLength s.ieDone s.ieErr
  | maxOffset => exact hconf s.srcAddr s.srcLen s.dstAddr s.dstCap v s.maxLength s.ieDone s.ieErr
  | maxLength => exact hconf s.srcAddr s.srcLen s.dstAddr s.dstCap s.maxOffset v s.ieDone s.ieErr
  | id | version | errcode | errpos | dstLen | chunkSize | lzwDictCap => exact h

/-- A host write keeps the invariant. -/
theorem State.Inv.hostWrite {s : State} (h : s.Inv) (off : Nat) (v : Word) : (s.hostWrite off v).Inv := by
  obtain he | ⟨hr, r, _, he⟩ := s.hostWrite_cases off v <;> rw [he]
  · exact h
  · exact h.writeReg hr r v

/-- Buffers may come back to the host only when no command runs. -/
theorem State.Inv.takeBack {s : State} (h : s.Inv) (hb : s.visible.busy = false) :
    State.Inv { s with handedOver := [] } := by
  refine ⟨h.memory, h.doneErr, ?_, h.errcode, h.errRecorded, h.doneClean, h.noOutput, h.dstLen, fun hr => ?_⟩
  · intro c hc
    have hc : s.seq = .busy c := hc
    cases hr : s.rst with
    | true =>
      rw [(h.heldInReset hr).status.1] at hc
      cases hc
    | false =>
      rw [State.visible_of_not_rst hr, State.busy_of_seq_busy hc] at hb
      simp at hb
  · have ha := h.heldInReset hr
    exact ⟨ha.ctrl, ha.status, ha.cmd, ha.errcode, ha.dstLen, ha.src, ha.dst, ha.bounds⟩

/-- A host read keeps the invariant. -/
theorem State.Inv.hostRead {s : State} (h : s.Inv) (off : Nat) : (s.hostRead off).Inv := by
  obtain he | ⟨hb, he⟩ := s.hostRead_cases off <;> rw [he]
  · exact h.host s.host _ s.delay s.free
  · exact (h.takeBack hb).host s.host _ s.delay s.free

/-- A host store keeps the invariant. -/
theorem State.Inv.store {s : State} (h : s.Inv) {a : Nat} (ha : a + 4 ≤ 2 ^ 32) (v : Word) :
    State.Inv { s with mem := s.mem.write a (wordBytes v) } :=
  ⟨Memory.wf_write h.memory a _ (.inr (by simpa using ha)), h.doneErr, h.running, h.errcode, h.errRecorded, h.doneClean,
    h.noOutput, h.dstLen, fun hr =>
      ⟨(h.heldInReset hr).ctrl, (h.heldInReset hr).status, (h.heldInReset hr).cmd, (h.heldInReset hr).errcode,
        (h.heldInReset hr).dstLen, (h.heldInReset hr).src, (h.heldInReset hr).dst, (h.heldInReset hr).bounds⟩⟩

/-- A host or platform action that goes through keeps the invariant. -/
theorem State.Inv.hostAction {s t : State} (h : s.Inv) {op : HostOp} (ht : Machine.hostAction op s = .next t) : t.Inv := by
  rcases hostAction_next ht with ⟨off, v, rfl⟩ | ⟨off, rfl⟩ | ⟨off, ops, rfl⟩ | ⟨ops, rfl⟩ | ⟨v, rfl⟩ |
    ⟨a, v, ha, _, rfl⟩ | rfl | rfl
  · exact h.hostWrite off v
  · exact h.hostRead off
  · exact (h.hostRead off).host ops _ _ _
  · exact h.host ops s.hostData s.delay s.free
  · exact h.host s.host v s.delay _
  · exact h.store ha v
  · exact h.blockReset true
  · exact h.rstRelease

end Sys2Proof.Machine
end

