-- ==== Sys2Proof/Laws/Lzw.lean ====
section
/-! SUPPORT. The LZW dictionary, and the encoder and decoder loops (42_lzw). -/

namespace Sys2Proof.Machine

/-! ### Symbols and strings -/

/-- An accepted symbol is below 256 (42_lzw R272). -/
theorem lzwOutOfRange_eq_false_iff (x : Word) : lzwOutOfRange x = false ↔ x.toNat < 256 := by
  have := x.isLt
  simp only [lzwOutOfRange, Bool.or_eq_false_iff, decide_eq_false_iff_not, BitVec.toInt_eq_toNat_cond]
  split <;> omega

theorem lzwStr_seed {k : Nat} (h : k < 256) (d : List (List Word)) : lzwStr d k = [BitVec.ofNat 32 k] := by
  simp [lzwStr, Config.lzwSeed, h]

theorem lzwStr_byte {x : Word} (h : x.toNat < 256) (d : List (List Word)) : lzwStr d x.toNat = [x] := by
  rw [lzwStr_seed h]
  simp

/-- A new entry leaves the strings of the older codes alone (42_lzw R271, "never pruned"). -/
theorem lzwStr_append {d : List (List Word)} {k : Nat} (h : k < 256 + d.length) (s : List Word) :
    lzwStr (d ++ [s]) k = lzwStr d k := by
  unfold lzwStr
  split
  · rfl
  · rename_i hk
    simp only [Config.lzwSeed] at hk ⊢
    rw [List.getD_eq_getElem _ _ (by simp; omega), List.getD_eq_getElem _ _ (by omega), List.getElem_append_left (by omega)]

/-- A new entry's code is the size before it (42_lzw R271). -/
theorem lzwStr_new (d : List (List Word)) (s : List Word) : lzwStr (d ++ [s]) (256 + d.length) = s := by
  unfold lzwStr
  simp [Config.lzwSeed]

/-! ### The encoder's dictionary -/

/-- The dictionary's pairs are the strings `d`: an entry `(p, x)` of code `k` has the string of `p` followed by `x`
(42_lzw R273). -/
def LzwDict.Matches (dict : LzwDict) (d : List (List Word)) : Prop :=
  (∀ p x k, dict.lookup (p, x) = some k → k < 256 + d.length ∧ lzwStr d k = lzwStr d p ++ [x] ∧ p < 256 + d.length) ∧
    ∀ k < 256 + d.length, lzwStr d k ≠ []

theorem LzwDict.matches_nil : LzwDict.Matches [] [] := by
  refine ⟨by simp, fun k hk => ?_⟩
  rw [lzwStr_seed (by simpa using hk)]
  simp

/-- An insertion keeps the dictionary's meaning (42_lzw R275). -/
theorem LzwDict.Matches.insert {dict : LzwDict} {d : List (List Word)} (h : dict.Matches d) {w : Nat}
    (hw : w < 256 + d.length) (x : Word) :
    LzwDict.Matches (((w, x), 256 + d.length) :: dict) (d ++ [lzwStr d w ++ [x]]) := by
  refine ⟨fun p y k hk => ?_, fun k hk => ?_⟩
  · rw [List.lookup_cons] at hk
    split at hk
    · rename_i heq
      have heq := eq_of_beq heq
      cases heq
      cases hk
      refine ⟨by simp, ?_, by simp; omega⟩
      rw [lzwStr_new, lzwStr_append hw]
    · obtain ⟨h1, h2, h3⟩ := h.1 p y k hk
      refine ⟨by simp; omega, ?_, by simp; omega⟩
      rw [lzwStr_append h1, lzwStr_append h3, h2]
  · simp only [List.length_append, List.length_singleton] at hk
    by_cases hk' : k < 256 + d.length
    · rw [lzwStr_append hk']
      exact h.2 k hk'
    · rw [show k = 256 + d.length by omega, lzwStr_new]
      simp

/-! ### The loops -/

/-- The word the decoder takes for code `w`: known, or the one not yet defined, which it synthesises (42_lzw R278). -/
theorem lzwWord_eq {d : List (List Word)} {prev : List Word} {x : Word} {w : Nat}
    (hw : w < 256 + d.length + 1) (hprev : prev ≠ [])
    (hhead : (lzwStr (d ++ [prev ++ [x]]) w).headD 0 = x) :
    lzwWord d prev w = lzwStr (d ++ [prev ++ [x]]) w := by
  unfold lzwWord
  split
  · rename_i h
    rw [lzwStr_append h]
  · rename_i h
    have hw' : w = 256 + d.length := by simp only [Config.lzwSeed] at h; omega
    subst hw'
    rw [lzwStr_new] at hhead ⊢
    cases prev with
    | nil => simp at hprev
    | cons y prev => simpa using hhead

/-- The decoder, one entry behind the encoder, gives back the current word and the rest of the input (42_lzw R280). `d` and
`prev` are the decoder's; the encoder also has the entry `prev ++ [x]`, where `x` starts its current word `w`. -/
theorem lzwDecodeFrom_encodeFrom {cap i j w : Nat} {dict : LzwDict} {d : List (List Word)} {prev : List Word} {x : Word}
    {rest codes : List Word} (hm : dict.Matches (d ++ [prev ++ [x]])) (hw : w < 256 + d.length + 1) (hprev : prev ≠ [])
    (hhead : (lzwStr (d ++ [prev ++ [x]]) w).headD 0 = x) (hcap : 256 + d.length < cap)
    (hrest : ∀ y ∈ rest, y.toNat < 256) (hbound : 256 + d.length + 1 + rest.length ≤ 2 ^ 32)
    (henc : lzwEncodeFrom cap i (256 + d.length + 1) dict w rest = .ok codes) :
    lzwDecodeFrom cap j d prev codes = .ok (lzwStr (d ++ [prev ++ [x]]) w ++ rest) := by
  induction rest generalizing i j w dict d prev x codes with
  | nil =>
    simp only [lzwEncodeFrom, Except.ok.injEq] at henc
    subst henc
    have hwn : (BitVec.ofNat 32 w).toNat = w := by
      rw [BitVec.toNat_ofNat, Nat.mod_eq_of_lt (by simp at hbound; omega)]
    simp only [lzwDecodeFrom, hwn, Config.lzwSeed]
    rw [if_neg (by omega), lzwWord_eq hw hprev hhead, if_neg (by omega)]
  | cons y rest ih =>
    have hlen : (d ++ [prev ++ [x]]).length = d.length + 1 := by simp
    rw [lzwEncodeFrom] at henc
    cases hl : dict.lookup (w, y) with
    | some k =>
      rw [hl] at henc
      obtain ⟨h1, h2, _⟩ := hm.1 w y k hl
      have hne := hm.2 w (by rw [hlen]; omega)
      have hk : (lzwStr (d ++ [prev ++ [x]]) k).headD 0 = x := by
        rw [h2]
        cases hs : lzwStr (d ++ [prev ++ [x]]) w with
        | nil => exact absurd hs hne
        | cons a l =>
          rw [hs] at hhead
          simpa using hhead
      have := ih (j := j) hm (by rw [hlen] at h1; omega) hprev hk hcap (fun z hz => hrest z (by simp [hz]))
        (by simp at hbound; omega) henc
      rw [this, h2]
      simp
    | none =>
      rw [hl] at henc
      simp only at henc
      split at henc
      · cases henc
      · rename_i hcap'
        cases hrec : lzwEncodeFrom cap (i + 1) (256 + d.length + 1 + 1) (((w, y), 256 + d.length + 1) :: dict) y.toNat rest with
        | error e => simp [hrec] at henc
        | ok codes' =>
          simp only [hrec, Except.ok.injEq] at henc
          subst henc
          have hwn : (BitVec.ofNat 32 w).toNat = w := by
            rw [BitVec.toNat_ofNat, Nat.mod_eq_of_lt (by simp at hbound; omega)]
          have hy := hrest y (by simp)
          have hne := hm.2 w (by rw [hlen]; omega)
          simp only [lzwDecodeFrom, hwn, Config.lzwSeed]
          rw [if_neg (by omega), lzwWord_eq hw hprev hhead, if_neg (by omega), hhead]
          have := ih (i := i + 1) (j := j + 1) (d := d ++ [prev ++ [x]]) (prev := lzwStr (d ++ [prev ++ [x]]) w) (x := y)
            (w := y.toNat) (codes := codes') (dict := ((w, y), 256 + d.length + 1) :: dict)
            (by have := hm.insert (w := w) (by rw [hlen]; omega) y; rwa [hlen] at this)
            (by omega) hne (by rw [lzwStr_byte hy]; rfl) (by rw [hlen]; omega)
            (fun z hz => hrest z (by simp [hz])) (by rw [hlen]; simp at hbound; omega) (by rw [hlen]; exact hrec)
          rw [this, lzwStr_byte hy]
          simp

/-- At most one code per symbol, and one for the current word (42_lzw R276). -/
theorem lzwEncodeFrom_length {cap i size w : Nat} {dict : LzwDict} {rest codes : List Word}
    (h : lzwEncodeFrom cap i size dict w rest = .ok codes) : codes.length ≤ rest.length + 1 := by
  induction rest generalizing i size w dict codes with
  | nil =>
    simp only [lzwEncodeFrom, Except.ok.injEq] at h
    subst h
    simp
  | cons y rest ih =>
    rw [lzwEncodeFrom] at h
    split at h
    · have := ih h
      simp only [List.length_cons]
      omega
    · split at h
      · cases h
      · split at h
        · cases h
        · rename_i out hrec
          cases h
          have := ih hrec
          simp only [List.length_cons]
          omega

/-- An insertion follows one input symbol, so a dictionary with room for every symbol is never full (42_lzw R274). -/
theorem lzwEncodeFrom_ok {cap i size w : Nat} {dict : LzwDict} {rest : List Word} (h : size + rest.length ≤ cap) :
    ∃ codes, lzwEncodeFrom cap i size dict w rest = .ok codes := by
  induction rest generalizing i size w dict with
  | nil => exact ⟨_, rfl⟩
  | cons y rest ih =>
    rw [lzwEncodeFrom]
    split
    · exact ih (by simp at h; omega)
    · rw [if_neg (by simp at h; omega)]
      obtain ⟨codes, hc⟩ := ih (i := i + 1) (size := size + 1) (w := y.toNat) (dict := ((w, y), size) :: dict)
        (by simp at h; omega)
      rw [hc]
      exact ⟨_, rfl⟩

/-- Every symbol of a decoded word is a byte (42_lzw R281): the strings of the dictionary are made of seeds. -/
theorem lzwDecodeFrom_bytes {cap j : Nat} {d : List (List Word)} {prev codes out : List Word}
    (hd : ∀ s ∈ d, ∀ x ∈ s, x.toNat < 256) (hprev : prev ≠ []) (hp : ∀ x ∈ prev, x.toNat < 256)
    (hdn : ∀ s ∈ d, s ≠ []) (h : lzwDecodeFrom cap j d prev codes = .ok out) : ∀ x ∈ out, x.toNat < 256 := by
  have hstr : ∀ {d : List (List Word)} (_ : ∀ s ∈ d, ∀ x ∈ s, x.toNat < 256) (_ : ∀ s ∈ d, s ≠ []) (k : Nat)
      (_ : k < 256 + d.length), (∀ x ∈ lzwStr d k, x.toNat < 256) ∧ lzwStr d k ≠ [] := by
    intro d hd hdn k hk
    unfold lzwStr
    split
    · rename_i h1
      simp only [Config.lzwSeed] at h1
      refine ⟨fun x hx => ?_, by simp⟩
      rw [List.mem_singleton.1 hx, BitVec.toNat_ofNat, Nat.mod_eq_of_lt (by omega)]
      exact h1
    · rename_i h1
      simp only [Config.lzwSeed] at h1 ⊢
      rw [List.getD_eq_getElem _ _ (by omega)]
      exact ⟨hd _ (List.getElem_mem _), hdn _ (List.getElem_mem _)⟩
  induction codes generalizing j d prev out with
  | nil =>
    simp only [lzwDecodeFrom, Except.ok.injEq] at h
    subst h
    simp
  | cons k rest ih =>
    rw [lzwDecodeFrom] at h
    generalize he : lzwWord d prev k.toNat = e at h
    dsimp only at h
    split at h
    · cases h
    · split at h
      · cases h
      · have hhead : prev.headD 0 ∈ prev := by cases prev with
          | nil => simp at hprev
          | cons a l => simp
        have hek : (∀ x ∈ e, x.toNat < 256) ∧ e ≠ [] := by
          subst he
          unfold lzwWord
          split
          · rename_i h1
            exact hstr hd hdn _ h1
          · refine ⟨fun x hx => ?_, by simp⟩
            rcases List.mem_append.1 hx with hx | hx
            · exact hp x hx
            · rw [List.mem_singleton.1 hx]
              exact hp _ hhead
        have hehead : e.headD 0 ∈ e := by cases e with
          | nil => exact absurd rfl hek.2
          | cons a l => simp
        split at h
        · cases h
        · rename_i out' hrec
          cases h
          have := ih (d := d ++ [prev ++ [e.headD 0]]) (prev := e) (fun s hs x hx => ?_) hek.2 hek.1 (fun s hs => ?_) hrec
          · intro x hx
            rcases List.mem_append.1 hx with hx | hx
            · exact hek.1 x hx
            · exact this x hx
          · rcases List.mem_append.1 hs with hs | hs
            · exact hd s hs x hx
            · rw [List.mem_singleton.1 hs] at hx
              rcases List.mem_append.1 hx with hx | hx
              · exact hp x hx
              · rw [List.mem_singleton.1 hx]
                exact hek.1 _ hehead
          · rcases List.mem_append.1 hs with hs | hs
            · exact hdn s hs
            · rw [List.mem_singleton.1 hs]
              simp

/-- A code beyond the next to be assigned fails at its index (42_lzw R278): the decoder has inserted one entry for each
code it has read. -/
theorem lzwDecodeFrom_gap {cap j : Nat} {d : List (List Word)} {prev codes rest out : List Word} {k : Word}
    (h : lzwDecodeFrom cap j d prev codes = .ok out) (hk : 256 + d.length + codes.length < k.toNat) :
    lzwDecodeFrom cap j d prev (codes ++ k :: rest) = .error ⟨.decLzwBadCode, j + codes.length⟩ := by
  induction codes generalizing j d prev out with
  | nil =>
    rw [List.nil_append, lzwDecodeFrom]
    dsimp only
    rw [if_pos (by simpa [Config.lzwSeed] using hk)]
    rfl
  | cons c codes ih =>
    rw [lzwDecodeFrom] at h
    rw [List.cons_append, lzwDecodeFrom]
    generalize lzwWord d prev c.toNat = e at h
    dsimp only at h ⊢
    split at h
    · cases h
    · split at h
      · cases h
      · rename_i h1 h2
        split at h
        · cases h
        · rename_i out' ho
          have := ih ho (by simp at hk ⊢; omega)
          rw [if_neg h1, if_neg h2, this]
          simp only [List.length_cons]
          congr 2
          omega

/-! ### The words of the decoder (R278) -/

/-- The entries made when the words are `ws`: one for each word but the last. -/
def lzwEntries (ws : List (List Word)) : List (List Word) := (List.range (ws.length - 1)).map (lzwEntry ws)

theorem lzwEntries_length (ws : List (List Word)) : (lzwEntries ws).length = ws.length - 1 := by simp [lzwEntries]

/-- Later words leave the entries alone. -/
theorem lzwEntry_append {ws : List (List Word)} {j : Nat} (h : j + 1 < ws.length) (vs : List (List Word)) :
    lzwEntry (ws ++ vs) j = lzwEntry ws j := by
  unfold lzwEntry
  rw [List.getD_append _ _ _ _ (by omega), List.getD_append _ _ _ _ h]

/-- One more word makes one more entry: the last word and the new one's first symbol. -/
theorem lzwEntries_concat {ws : List (List Word)} (h : ws ≠ []) (e : List Word) :
    lzwEntries (ws ++ [e]) = lzwEntries ws ++ [ws.getLastD [] ++ [e.headD 0]] := by
  have hp := List.length_pos_iff.2 h
  unfold lzwEntries
  rw [List.length_append, List.length_singleton, show ws.length + 1 - 1 = (ws.length - 1) + 1 by omega, List.range_succ,
    List.map_append]
  congr 1
  · apply List.map_congr_left
    intro j hj
    rw [List.mem_range] at hj
    exact lzwEntry_append (by omega) _
  · simp only [List.map_cons, List.map_nil, lzwEntry]
    rw [show ws.length - 1 + 1 = ws.length by omega, List.getD_append _ _ _ _ (by omega)]
    simp [List.getLastD_eq_getLast?, List.getLast?_eq_getElem?, List.getD_eq_getElem?_getD]

/-- The decoder's word is the one 42_lzw R278 gives. -/
theorem lzwWord_entries {ws : List (List Word)} (h : ws ≠ []) {k : Nat} (hk : k ≤ 256 + (ws.length - 1)) :
    lzwWord (lzwEntries ws) (ws.getLastD []) k = lzwNextWord ws k := by
  have hp := List.length_pos_iff.2 h
  have h0 : Config.lzwSeed = 256 := rfl
  unfold lzwWord lzwStr lzwNextWord
  rw [lzwEntries_length, h0]
  by_cases h1 : k < 256
  · simp [h1, show k < 256 + (ws.length - 1) by omega]
  · by_cases h2 : k - 256 + 1 < ws.length
    · have h3 : k - 256 < (lzwEntries ws).length := by rw [lzwEntries_length]; omega
      simp only [h1, h2, show k < 256 + (ws.length - 1) by omega, if_true, if_false]
      rw [List.getD_eq_getElem _ _ h3]
      simp [lzwEntries]
    · simp only [h1, h2, show ¬k < 256 + (ws.length - 1) by omega, if_false]

/-- Everything the decoder's loop does after the words `ws`, one code after another (42_lzw R279). -/
theorem lzwDecodeFrom_words {cap : Nat} {codes out : List Word} {ws : List (List Word)} (hw : ws ≠ [])
    (h : lzwDecodeFrom cap ws.length (lzwEntries ws) (ws.getLastD []) codes = .ok out) :
    ∃ vs : List (List Word), vs.length = codes.length ∧ vs.flatten = out ∧
      (∀ i k, codes[i]? = some k → vs[i]? = some (lzwNextWord (ws ++ vs.take i) k.toNat)) ∧
      ∀ more, lzwDecodeFrom cap ws.length (lzwEntries ws) (ws.getLastD []) (codes ++ more) =
        match lzwDecodeFrom cap (ws ++ vs).length (lzwEntries (ws ++ vs)) ((ws ++ vs).getLastD []) more with
        | .error e => .error e
        | .ok rest => .ok (out ++ rest) := by
  induction codes generalizing ws out with
  | nil =>
    simp only [lzwDecodeFrom, Except.ok.injEq] at h
    subst h
    refine ⟨[], rfl, rfl, by simp, fun more => ?_⟩
    simp only [List.nil_append, List.append_nil]
    split <;> simp_all
  | cons c codes ih =>
    rw [lzwDecodeFrom] at h
    dsimp only at h
    split at h
    · cases h
    · rename_i h1
      split at h
      · cases h
      · rename_i h2
        split at h
        · cases h
        · rename_i out' ho
          cases h
          have hp := List.length_pos_iff.2 hw
          have hc : c.toNat ≤ 256 + (ws.length - 1) := by
            rw [lzwEntries_length] at h1
            simp only [Config.lzwSeed] at h1
            omega
          rw [lzwWord_entries hw hc] at ho ⊢
          have hlast : (ws ++ [lzwNextWord ws c.toNat]).getLastD [] = lzwNextWord ws c.toNat := by simp
          have hlen : (ws ++ [lzwNextWord ws c.toNat]).length = ws.length + 1 := by simp
          obtain ⟨vs, v1, v2, v3, v4⟩ := ih (ws := ws ++ [lzwNextWord ws c.toNat]) (out := out') (by simp)
            (by rw [hlen, lzwEntries_concat hw, hlast]; exact ho)
          refine ⟨lzwNextWord ws c.toNat :: vs, by simp [v1], by simp [v2], fun i k hi => ?_, fun more => ?_⟩
          · cases i with
            | zero =>
              simp only [List.getElem?_cons_zero, Option.some.injEq] at hi
              subst hi
              simp
            | succ i =>
              simp only [List.getElem?_cons_succ] at hi ⊢
              rw [v3 i k hi]
              simp
          · have := v4 more
            rw [hlen, lzwEntries_concat hw, hlast] at this
            rw [List.cons_append, lzwDecodeFrom]
            dsimp only
            rw [if_neg h1, if_neg h2, lzwWord_entries hw hc, this]
            simp only [List.append_assoc, List.singleton_append]
            cases lzwDecodeFrom cap (ws ++ lzwNextWord ws c.toNat :: vs).length _ _ more <;> simp

/-- The decoder after any accepted codes (42_lzw R277 to R279). -/
theorem lzwDecode_words {cap : Nat} {codes out : List Word} (hc : codes ≠ []) (h : lzwDecode cap codes = .ok out) :
    ∃ ws : List (List Word), LzwWords codes ws ∧ out = ws.flatten ∧
      ∀ more, lzwDecode cap (codes ++ more) =
        match lzwDecodeFrom cap codes.length (lzwEntries ws) (ws.getLastD []) more with
        | .error e => .error e
        | .ok rest => .ok (out ++ rest) := by
  match codes, hc with
  | k :: codes, _ =>
    unfold lzwDecode at h
    dsimp only at h
    split at h
    · cases h
    · rename_i hk
      simp only [Config.lzwSeed, not_le] at hk
      rw [lzwStr_byte hk] at h
      split at h
      · cases h
      · rename_i out' ho
        cases h
        obtain ⟨vs, v1, v2, v3, v4⟩ := lzwDecodeFrom_words (ws := [[k]]) (by simp) ho
        refine ⟨[k] :: vs, ⟨by simp [v1], fun i c hi => ?_⟩, by simp [v2], fun more => ?_⟩
        · cases i with
          | zero =>
            simp only [List.getElem?_cons_zero, Option.some.injEq] at hi
            subst hi
            simp [lzwNextWord, hk]
          | succ i =>
            simp only [List.getElem?_cons_succ] at hi ⊢
            rw [v3 i c hi]
            simp
        · have hm := v4 more
          rw [List.cons_append]
          unfold lzwDecode
          dsimp only
          rw [if_neg (by simpa [Config.lzwSeed] using hk), lzwStr_byte hk]
          have e : lzwDecodeFrom cap 1 [] [k] (codes ++ more) = _ := hm
          rw [e]
          have hl : ([[k]] ++ vs).length = (k :: codes).length := by simp [v1]
          rw [hl]
          simp only [List.singleton_append]
          cases lzwDecodeFrom cap (k :: codes).length _ _ more <;> simp

/-! ### The words of the encoder (R275) -/

/-- The dictionary knows every entry's string, and no string has two codes (42_lzw R273). -/
structure LzwDict.Complete (dict : LzwDict) (d : List (List Word)) : Prop where
  entries : ∀ j, j < d.length → ∃ p x, dict.lookup (p, x) = some (256 + j)
  distinct : ∀ k k', k < 256 + d.length → k' < 256 + d.length → lzwStr d k = lzwStr d k' → k = k'

theorem LzwDict.complete_nil : LzwDict.Complete [] [] := by
  refine ⟨by simp, fun k k' hk hk' h => ?_⟩
  simp only [List.length_nil, Nat.add_zero] at hk hk'
  rw [lzwStr_seed hk, lzwStr_seed hk'] at h
  have := congrArg BitVec.toNat (List.cons.inj h).1
  rw [BitVec.toNat_ofNat, BitVec.toNat_ofNat] at this
  omega

/-- What the lookup does not find is no known string. -/
theorem LzwDict.Complete.not_known {dict : LzwDict} {d : List (List Word)} (hm : dict.Matches d) (hc : dict.Complete d)
    {w : Nat} {x : Word} (hw : w < 256 + d.length) (h : dict.lookup (w, x) = none) {k : Nat} (hk : k < 256 + d.length) :
    lzwStr d k ≠ lzwStr d w ++ [x] := by
  intro he
  have hne := hm.2 w hw
  by_cases h1 : k < 256
  · rw [lzwStr_seed h1] at he
    have h2 := congrArg List.length he
    have h3 := List.length_pos_iff.2 hne
    simp only [List.length_append, List.length_singleton] at h2
    omega
  · obtain ⟨p, y, hl⟩ := hc.entries (k - 256) (by omega)
    rw [show 256 + (k - 256) = k by omega] at hl
    obtain ⟨_, h2, h3⟩ := hm.1 p y k hl
    rw [h2] at he
    obtain ⟨h4, h5⟩ := List.append_inj' he rfl
    have := hc.distinct p w h3 hw h4
    simp only [List.cons.injEq, and_true] at h5
    rw [← this, ← h5, hl] at h
    cases h

theorem LzwDict.Complete.insert {dict : LzwDict} {d : List (List Word)} (hm : dict.Matches d) (hc : dict.Complete d)
    {w : Nat} {x : Word} (hw : w < 256 + d.length) (h : dict.lookup (w, x) = none) :
    LzwDict.Complete (((w, x), 256 + d.length) :: dict) (d ++ [lzwStr d w ++ [x]]) := by
  refine ⟨fun j hj => ?_, fun k k' hk hk' he => ?_⟩
  · rw [List.length_append, List.length_singleton] at hj
    by_cases hj' : j < d.length
    · obtain ⟨p, y, hl⟩ := hc.entries j hj'
      refine ⟨p, y, ?_⟩
      rw [List.lookup_cons]
      split
      · rename_i heq
        rw [eq_of_beq heq, h] at hl
        cases hl
      · exact hl
    · exact ⟨w, x, by rw [List.lookup_cons, show j = d.length by omega]; simp⟩
  · rw [List.length_append, List.length_singleton] at hk hk'
    by_cases h1 : k < 256 + d.length <;> by_cases h2 : k' < 256 + d.length
    · rw [lzwStr_append h1, lzwStr_append h2] at he
      exact hc.distinct k k' h1 h2 he
    · rw [lzwStr_append h1, show k' = 256 + d.length by omega, lzwStr_new] at he
      exact absurd he (LzwDict.Complete.not_known hm hc hw h h1)
    · rw [lzwStr_append h2, show k = 256 + d.length by omega, lzwStr_new] at he
      exact absurd he.symm (LzwDict.Complete.not_known hm hc hw h h2)
    · omega

/-- The strings of the first `n` entries when the words are `ws`. -/
def lzwStrings (ws : List (List Word)) (n : Nat) : List (List Word) := (List.range n).map (lzwEntry ws)

theorem lzwStrings_length (ws : List (List Word)) (n : Nat) : (lzwStrings ws n).length = n := by simp [lzwStrings]

theorem lzwStands_iff (ws : List (List Word)) (n k : Nat) (w : List Word) :
    LzwStands ws n k w ↔ k < 256 + n ∧ lzwStr (lzwStrings ws n) k = w := by
  have h0 : Config.lzwSeed = 256 := rfl
  unfold LzwStands lzwStr
  rw [h0]
  by_cases h1 : k < 256
  · simp only [h1, if_true, true_and, show k < 256 + n by omega]
    constructor
    · rintro (h | ⟨j, _, h, _⟩)
      · exact h.symm
      · omega
    · exact fun h => .inl h.symm
  · simp only [h1, if_false, false_and, false_or]
    constructor
    · rintro ⟨j, hj, rfl, rfl⟩
      refine ⟨by omega, ?_⟩
      rw [Nat.add_sub_cancel_left, List.getD_eq_getElem _ _ (by rw [lzwStrings_length]; exact hj)]
      simp [lzwStrings]
    · rintro ⟨hk, rfl⟩
      refine ⟨k - 256, by omega, by omega, ?_⟩
      rw [List.getD_eq_getElem _ _ (by rw [lzwStrings_length]; omega)]
      simp [lzwStrings]

/-- Of the current word, an entry holds only its first symbol. -/
theorem lzwStrings_current (ws us vs : List (List Word)) {u v : List Word} (h : u.headD 0 = v.headD 0) :
    lzwStrings (ws ++ u :: us) ws.length = lzwStrings (ws ++ v :: vs) ws.length := by
  unfold lzwStrings
  apply List.map_congr_left
  intro j hj
  rw [List.mem_range] at hj
  unfold lzwEntry
  rw [List.getD_append _ _ _ _ hj, List.getD_append _ _ _ _ hj]
  by_cases h1 : j + 1 < ws.length
  · rw [List.getD_append _ _ _ _ h1, List.getD_append _ _ _ _ h1]
  · have : j + 1 = ws.length := by omega
    rw [this, List.getD_append_right _ _ _ _ le_rfl, List.getD_append_right _ _ _ _ le_rfl]
    simp only [Nat.sub_self, List.getD_cons_zero, h]

theorem headD_append {u : List Word} (h : u ≠ []) (v : List Word) : (u ++ v).headD 0 = u.headD 0 := by
  cases u with
  | nil => exact absurd rfl h
  | cons a u => rfl

theorem lzwEntry_length (ws vs : List (List Word)) (u v : List Word) :
    lzwEntry (ws ++ u :: v :: vs) ws.length = u ++ [v.headD 0] := by
  unfold lzwEntry
  rw [List.getD_append_right _ _ _ _ le_rfl, List.getD_append_right _ _ _ _ (by omega)]
  simp

/-- Everything the encoder's loop does after the words `ws` with the current word `cur`, for every capacity (42_lzw R274,
R275). -/
theorem lzwEncodeFrom_parse {i w : Nat} {dict : LzwDict} {ws : List (List Word)} {cur rest : List Word}
    (hm : dict.Matches (lzwStrings (ws ++ [cur]) ws.length)) (hc : dict.Complete (lzwStrings (ws ++ [cur]) ws.length))
    (hcur : lzwStr (lzwStrings (ws ++ [cur]) ws.length) w = cur) (hne : cur ≠ []) (hw : w < 256 + ws.length)
    (hr : ∀ x ∈ rest, x.toNat < 256) (hb : 256 + ws.length + rest.length < 2 ^ 32) :
    ∃ (t : List Word) (vs : List (List Word)) (codes : List Word),
      t ++ vs.flatten = rest ∧ (∀ v ∈ vs, v ≠ []) ∧ codes.length = vs.length + 1 ∧
      (∀ a v k, ((cur ++ t) :: vs)[a]? = some v → codes[a]? = some k →
        LzwStands (ws ++ (cur ++ t) :: vs) (ws.length + a) k.toNat v) ∧
      (∀ a, a < vs.length → ∀ k,
        ¬LzwStands (ws ++ (cur ++ t) :: vs) (ws.length + a) k (lzwEntry (ws ++ (cur ++ t) :: vs) (ws.length + a))) ∧
      ∀ cap, (vs.length ≤ cap - 256 - ws.length → lzwEncodeFrom cap i (256 + ws.length) dict w rest = .ok codes) ∧
        (cap - 256 - ws.length < vs.length →
          lzwEncodeFrom cap i (256 + ws.length) dict w rest =
            .error ⟨.encLzwDictFull, i + t.length + (vs.take (cap - 256 - ws.length)).flatten.length⟩) := by
  have hwn : (BitVec.ofNat 32 w).toNat = w := by
    rw [BitVec.toNat_ofNat, Nat.mod_eq_of_lt (by omega)]
  induction rest generalizing i w dict ws cur with
  | nil =>
    refine ⟨[], [], [BitVec.ofNat 32 w], rfl, by simp, rfl, fun a v k hv hk => ?_, by simp, fun cap => ⟨fun _ => rfl, by simp⟩⟩
    cases a with
    | succ a => simp at hv
    | zero =>
      simp only [List.append_nil, List.getElem?_cons_zero, Option.some.injEq] at hv hk
      subst hv hk
      rw [lzwStands_iff, hwn, List.append_nil]
      exact ⟨hw, hcur⟩
  | cons y rest ih =>
    have hr' := fun x hx => hr x (List.mem_cons_of_mem _ hx)
    have hy := hr y List.mem_cons_self
    simp only [List.length_cons] at hb
    cases hl : dict.lookup (w, y) with
    | some k =>
      have hd : lzwStrings (ws ++ [cur ++ [y]]) ws.length = lzwStrings (ws ++ [cur]) ws.length :=
        lzwStrings_current _ _ _ (headD_append hne _)
      obtain ⟨h1, h2, _⟩ := hm.1 w y k hl
      rw [lzwStrings_length] at h1
      rw [hcur] at h2
      obtain ⟨t, vs, codes, g1, g2, g3, g4, g5, g6⟩ := ih (i := i + 1) (w := k) (dict := dict) (ws := ws) (cur := cur ++ [y])
        (by rwa [hd]) (by rwa [hd]) (by rw [hd, h2]) (by simp) h1 hr' (by omega)
        (by rw [BitVec.toNat_ofNat, Nat.mod_eq_of_lt (by omega)])
      simp only [List.append_assoc, List.singleton_append] at g4 g5
      refine ⟨y :: t, vs, codes, by rw [List.cons_append, g1], g2, g3, g4, g5, fun cap => ⟨fun h => ?_, fun h => ?_⟩⟩
      · rw [lzwEncodeFrom, hl]
        exact (g6 cap).1 h
      · rw [lzwEncodeFrom, hl]
        dsimp only
        rw [(g6 cap).2 h, List.length_cons, show i + 1 + t.length = i + (t.length + 1) by omega]
    | none =>
      have hd : lzwStrings ((ws ++ [cur]) ++ [[y]]) (ws ++ [cur]).length =
          lzwStrings (ws ++ [cur]) ws.length ++ [lzwStr (lzwStrings (ws ++ [cur]) ws.length) w ++ [y]] := by
        rw [hcur, List.length_append, List.length_singleton, lzwStrings, List.range_succ, List.map_append, List.append_assoc]
        congr 1
        · exact lzwStrings_current _ _ _ rfl
        · simp only [List.map_cons, List.map_nil, List.singleton_append, lzwEntry_length]
          rfl
      have hlen : (ws ++ [cur]).length = ws.length + 1 := by simp
      have hin := hm.insert (w := w) (by rw [lzwStrings_length]; exact hw) y
      have hcin := hc.insert hm (by rw [lzwStrings_length]; exact hw) hl
      rw [lzwStrings_length] at hin hcin
      obtain ⟨t, vs, codes, g1, g2, g3, g4, g5, g6⟩ := ih (i := i + 1) (w := y.toNat)
        (dict := ((w, y), 256 + ws.length) :: dict) (ws := ws ++ [cur]) (cur := [y])
        (by rwa [hd]) (by rwa [hd]) (lzwStr_byte hy _) (by simp) (by omega) hr' (by rw [hlen]; omega)
        (by rw [BitVec.toNat_ofNat, Nat.mod_eq_of_lt (by omega)])
      simp only [List.append_assoc, List.singleton_append, hlen] at g4 g5
      refine ⟨[], (y :: t) :: vs, BitVec.ofNat 32 w :: codes, by simp [g1], ?_, by simp [g3], ?_, ?_, fun cap => ⟨?_, ?_⟩⟩
      · intro v hv
        rcases List.mem_cons.1 hv with rfl | hv
        · simp
        · exact g2 v hv
      · rintro (_ | a) v k hv hk
        · simp only [List.append_nil, List.getElem?_cons_zero, Option.some.injEq] at hv hk
          subst hv hk
          rw [lzwStands_iff, hwn, List.append_nil, Nat.add_zero]
          exact ⟨hw, by rw [lzwStrings_current (v := cur) (vs := []) _ _ rfl]; exact hcur⟩
        · rw [List.append_nil, show ws.length + (a + 1) = ws.length + 1 + a by omega]
          exact g4 a v k hv hk
      · rintro (_ | a) ha k
        · rw [List.append_nil, Nat.add_zero, lzwEntry_length, lzwStands_iff, lzwStrings_current (v := cur) (vs := []) _ _ rfl]
          rintro ⟨h1, h2⟩
          refine LzwDict.Complete.not_known hm hc (by rw [lzwStrings_length]; exact hw) hl
            (by rw [lzwStrings_length]; exact h1) (h2.trans ?_)
          rw [hcur]
          rfl
        · rw [List.append_nil, show ws.length + (a + 1) = ws.length + 1 + a by omega]
          exact g5 a (by simpa using ha) k
      · intro h
        simp only [List.length_cons] at h
        rw [lzwEncodeFrom, hl]
        dsimp only
        have := (g6 cap).1 (by rw [hlen]; omega)
        rw [hlen, ← Nat.add_assoc] at this
        rw [if_neg (by omega), this]
      · intro h
        simp only [List.length_cons] at h
        rw [lzwEncodeFrom, hl]
        dsimp only
        by_cases hcap : cap ≤ 256 + ws.length
        · rw [if_pos hcap, show cap - 256 - ws.length = 0 by omega]
          rfl
        · have := (g6 cap).2 (by rw [hlen]; omega)
          rw [hlen, ← Nat.add_assoc] at this
          rw [if_neg hcap, this, show cap - 256 - ws.length = cap - 256 - (ws.length + 1) + 1 by omega]
          simp only [List.take_succ_cons, List.flatten_cons, List.length_append, List.length_cons, List.length_nil,
            Nat.add_zero]
          congr 2
          omega

/-- At most one word a symbol (42_lzw R276). -/
theorem LzwParse.length_le {s : List Word} {ws : List (List Word)} {codes : List Word} (h : LzwParse s ws codes) :
    ws.length ≤ s.length := by
  rw [← h.input, List.length_flatten]
  calc ws.length = (ws.map fun _ => 1).sum := by simp
    _ ≤ (ws.map List.length).sum :=
      List.sum_le_sum fun w hw => List.length_pos_iff.2 (h.nonempty w hw)

/-- What the encoder makes of bytes, for every capacity (42_lzw R274, R275). -/
theorem lzwEncode_parse {s : List Word} (hs : ∀ x ∈ s, x.toNat < 256) (hl : s.length ≤ 2 ^ 30) :
    ∃ ws codes, LzwParse s ws codes ∧ ∀ cap, (ws.length ≤ cap - 256 + 1 → lzwEncode cap s = .ok codes) ∧
      (cap - 256 + 1 < ws.length →
        lzwEncode cap s = .error ⟨.encLzwDictFull, (ws.take (cap - 256 + 1)).flatten.length⟩) := by
  have hf : s.findIdx? lzwOutOfRange = none := by
    rw [List.findIdx?_eq_none_iff]
    exact fun x hx => (lzwOutOfRange_eq_false_iff x).2 (hs x hx)
  cases s with
  | nil =>
    refine ⟨[], [], ⟨rfl, by simp, rfl, by simp, by simp⟩, fun cap => ⟨fun _ => rfl, by simp⟩⟩
  | cons x rest =>
    have hx := hs x List.mem_cons_self
    obtain ⟨t, vs, codes, g1, g2, g3, g4, g5, g6⟩ := lzwEncodeFrom_parse (i := 1) (w := x.toNat) (dict := []) (ws := [])
      (cur := [x]) (rest := rest) LzwDict.matches_nil LzwDict.complete_nil (lzwStr_byte hx _) (by simp) (by simpa using hx)
      (fun y hy => hs y (List.mem_cons_of_mem _ hy)) (by simp at hl ⊢; omega)
    simp only [List.nil_append, List.length_nil, Nat.zero_add, List.singleton_append, Nat.sub_zero, Nat.add_zero] at g4 g5 g6
    refine ⟨(x :: t) :: vs, codes, ⟨by simp [g1], ?_, by simp [g3], g4, fun i hi => g5 i (by simpa using hi)⟩, fun cap => ?_⟩
    · intro v hv
      rcases List.mem_cons.1 hv with rfl | hv
      · simp
      · exact g2 v hv
    · unfold lzwEncode
      rw [hf]
      refine ⟨fun h => (g6 cap).1 (by simpa using h), fun h => ?_⟩
      have := (g6 cap).2 (by simpa using h)
      rw [List.take_succ_cons, List.flatten_cons, List.length_append, List.length_cons, Nat.add_comm t.length 1]
      exact this

end Sys2Proof.Machine
end

