-- ==== Sys2Proof/Laws/PerInstr.lean ====
section
/-! SUPPORT. A statement about every command as syntax. -/

namespace Sys2Proof.Laws.Encoding

/-- The command's word is well formed, decodes to the command, and carries its selector and direction
(30_encoding R120 to R123). -/
def Statement (i : Instr) : Prop :=
  wordWellFormed (encode i) = true ∧ decode (encode i) = .ok i ∧
    selField (encode i) = selOf (codecOf i) ∧ dirField (encode i) = dirOf (directionOf i)

theorem lz77Enc : Statement .lz77Enc := ⟨rfl, rfl, rfl, rfl⟩
theorem lz77Dec : Statement .lz77Dec := ⟨rfl, rfl, rfl, rfl⟩
theorem lzwEnc : Statement .lzwEnc := ⟨rfl, rfl, rfl, rfl⟩
theorem lzwDec : Statement .lzwDec := ⟨rfl, rfl, rfl, rfl⟩
theorem hufEnc : Statement .hufEnc := ⟨rfl, rfl, rfl, rfl⟩
theorem hufDec : Statement .hufDec := ⟨rfl, rfl, rfl, rfl⟩
theorem defEnc : Statement .defEnc := ⟨rfl, rfl, rfl, rfl⟩
theorem defDec : Statement .defDec := ⟨rfl, rfl, rfl, rfl⟩

end Sys2Proof.Laws.Encoding
end

