-- ==== Sys2Proof/Tests/Slice0.lean ====
section
/-! SUPPORT. The model's own tests (expected values from spec/95_test_vectors.md and the encoding tables), and for each
statement with hypotheses a concrete case that meets them. -/

namespace Sys2Proof.Tests

open Sys2Proof.Machine

/-! ### Command words and well-formedness (30_encoding R120 to R126) -/

/-- Bits [31:8] 0, SEL 0000, bits [3:1] 000, DIR 0. -/
theorem test_word_lz77Enc : decode 0b00000000000000000000000000000000#32 = .ok .lz77Enc := by decide
theorem test_word_lz77Dec : decode 0b00000000000000000000000000000001#32 = .ok .lz77Dec := by decide
/-- SEL 0001. -/
theorem test_word_lzwEnc : decode 0b00000000000000000000000000010000#32 = .ok .lzwEnc := by decide
theorem test_word_lzwDec : decode 0b00000000000000000000000000010001#32 = .ok .lzwDec := by decide
/-- SEL 0010. -/
theorem test_word_hufEnc : decode 0b00000000000000000000000000100000#32 = .ok .hufEnc := by decide
theorem test_word_hufDec : decode 0b00000000000000000000000000100001#32 = .ok .hufDec := by decide
/-- SEL 0011. -/
theorem test_word_defEnc : decode 0b00000000000000000000000000110000#32 = .ok .defEnc := by decide
theorem test_word_defDec : decode 0b00000000000000000000000000110001#32 = .ok .defDec := by decide

/-- SEL 4 names no codec: `selectorNamed` refuses the word (V32). -/
theorem test_illFormed_selector : wordWellFormed 0x00000040 = false ∧ selectorNamed 0x00000040 = false := by decide
/-- Bit 1 is reserved: `lowReservedZero` refuses the word (V32). -/
theorem test_illFormed_low : wordWellFormed 0x00000002 = false ∧ lowReservedZero 0x00000002 = false := by decide
/-- Bit 31 is reserved: `highReservedZero` refuses the word (V32). -/
theorem test_illFormed_high : wordWellFormed 0x80000020 = false ∧ highReservedZero 0x80000020 = false := by decide
/-- V32: the selector is checked before the reserved bits. -/
theorem test_decode_selectorFirst : decode 0x00000140 = .error .badSelector := by decide
theorem test_decode_reserved : decode 0x0000000E = .error .reservedBits := by decide

/-! ### A small state for one command -/

/-- The snapshot of a command over `n` words at 0x1000 with room for `cap` words at 0x2000. -/
def cfgOf (i : Instr) (n cap : Nat) : Snapshot :=
  { cmd := encode i, srcAddr := 0x1000, srcLen := BitVec.ofNat 32 n, dstAddr := 0x2000, dstCap := BitVec.ofNat 32 cap
    maxOffset := 255, maxLength := 254 }

/-- Command `i` is running on the words `src`; its completion is the next step. -/
def running (i : Instr) (src : List Word) (cap : Nat) : State :=
  { State.reset with
    seq := .busy (cfgOf i src.length cap), cmdReadback := encode i, handedOver := [cfgOf i src.length cap]
    mem := Memory.writeWords [] 0x1000 src }

/-- What the host sees after a step: STATUS, ERRCODE, ERRPOS, DST_LEN and the output words. -/
def seen (o : Host.Outcome State Fault Refusal) : Option (Word × Word × Word × Word × List Word) :=
  match o with
  | .next t => some (t.statusWord, t.errcodeWord, t.errPos, t.dstLen, t.mem.words 0x2000 t.dstLen.toNat)
  | .fault _ => none
  | .refused _ => none

/-! ### The commands, one step each -/

/-- V1. -/
theorem test_hufEnc_run : seen (exec .hufEnc (running .hufEnc [7, 7, 7] 7)) =
    some (2, 0, 0, 7, [3, 1, 7, 1, 0, 0, 0]) := by decide
/-- V12. -/
theorem test_hufEnc_overflow : seen (exec .hufEnc (running .hufEnc [7, 7, 7] 6)) = some (4, 0x10A, 0, 0, []) := by decide
/-- V11: padding bits are ignored. -/
theorem test_hufDec_padding : seen (exec .hufDec (running .hufDec [1, 1, 7, 1, 0, 0, 0xFFFFFFFE] 4)) =
    some (2, 0, 0, 1, [7]) := by decide
/-- V10: a code cut off by the end of the bitstring. -/
theorem test_hufDec_noMatch : seen (exec .hufDec (running .hufDec [2, 2, 1, 1, 0, 0, 2, 2, 1, 0, 2] 4)) =
    some (4, 0x304, 1, 0, []) := by decide
/-- V13. -/
theorem test_lz77Enc_overlap : seen (exec .lz77Enc (running .lz77Enc [1, 2, 1, 2, 1, 2, 3] 14)) =
    some (2, 0, 0, 8, [0x00010000, 1, 0x00010000, 2, 0x00040002, 3, 0x00010000, 3]) := by decide
/-- V17. -/
theorem test_lz77Dec_overlap : seen (exec .lz77Dec (running .lz77Dec [0x00030000, 5, 0x00040001, 0] 8)) =
    some (2, 0, 0, 7, [5, 5, 5, 5, 5, 5, 5]) := by decide
/-- V18. -/
theorem test_lz77Dec_offset : seen (exec .lz77Dec (running .lz77Dec [0x00010000, 5, 0x00010002, 0] 8)) =
    some (4, 0x305, 1, 0, []) := by decide
/-- 42_lzw R276, corner cases. -/
theorem test_lzwEnc_run : seen (exec .lzwEnc (running .lzwEnc [97, 97, 97] 4)) = some (2, 0, 0, 2, [97, 256]) := by decide
/-- 42_lzw R272: -1 is outside [0, 256). -/
theorem test_lzwEnc_range : seen (exec .lzwEnc (running .lzwEnc [97, 0xFFFFFFFF] 4)) = some (4, 0x201, 1, 0, []) := by
  decide
/-- 42_lzw R281, corner cases. -/
theorem test_lzwDec_synthesised : seen (exec .lzwDec (running .lzwDec [65, 256] 4)) = some (2, 0, 0, 3, [65, 65, 65]) := by
  decide
theorem test_lzwDec_gap : seen (exec .lzwDec (running .lzwDec [65, 257] 4)) = some (4, 0x306, 1, 0, []) := by decide
/-- V28. -/
theorem test_defEnc_stored : seen (exec .defEnc (running .defEnc [5] 4)) = some (2, 0, 0, 4, [1, 0, 1, 5]) := by decide
/-- V31: a Coded record. -/
theorem test_defDec_coded : seen (exec .defDec (running .defDec
    [1, 1, 1, 1, 5, 1, 0, 0, 0, 2, 2, 0, 1, 0, 0, 7, 1, 1, 0, 2] 8)) = some (2, 0, 0, 5, [7, 7, 7, 7, 7]) := by decide
/-- V31: a length above 65535. -/
theorem test_defDec_fieldRange : seen (exec .defDec (running .defDec
    [1, 1, 1, 1, 70000, 1, 0, 0, 0, 2, 2, 0, 1, 0, 0, 7, 1, 1, 0, 2] 8)) = some (4, 0x30A, 0, 0, []) := by decide

/-! ### Host accesses to data memory -/

/-- 30_encoding R145, 00_scope R16, 20_memory R80: the second word of `MEM 0xFFFFFFFC` is at 2^32, which does not exist. -/
theorem test_mem_noWrap : opsMem 0xFFFFFFFC [1, 2] = [.memStore 0xFFFFFFFC 1, .memStore 0x100000000 2] := by decide
theorem test_mem_pastTop : hostAction (.memStore 0x100000000 2) State.reset = .fault .noSuchAddress := by rfl

/-! ### A case for each statement with hypotheses -/

/-- The small state passes the checks for each command, sizes and bounds of it as the tests use them. -/
theorem admitted_small (i : Instr) (n cap : Nat)
    (h : preCheck (boundedBit i) Params.reference (cfgOf i n cap) = none) : Admitted i Params.reference (cfgOf i n cap) :=
  (preCheck_eq_none_iff i _ _).1 h

theorem inv_small (i : Instr) (src : List Word) (cap : Nat) (h : Memory.wf (Memory.writeWords [] 0x1000 src)) :
    (running i src cap).Inv where
  memory := h
  doneErr := by simp [running, State.reset]
  running := by
    intro c hc
    cases hc
    exact ⟨rfl, rfl, ⟨rfl, rfl, rfl, rfl⟩, rfl, List.mem_singleton.2 rfl⟩
  errcode := .inl ⟨rfl, rfl⟩
  errRecorded := by simp [running, State.reset]
  doneClean := by simp [running, State.reset]
  noOutput := fun _ => rfl
  dstLen := by show (0 : Nat) ≤ _; omega
  heldInReset := by simp [running, State.reset]

/-- A state whose host has `ops` to do. -/
def hosted (ops : List HostOp) : State := { State.reset with host := ops }

/-- The command word `v` is running. -/
def runningWord (v : Word) : State :=
  { State.reset with seq := .busy { cfgOf .hufEnc 0 2 with cmd := v }, cmdReadback := v }

theorem witness_DecodeCmdFunction :
    (4 ≤ (0x00000040#32).toNat / 16 % 16 ∧ 4 ≤ (0xFFFFFFFF#32).toNat / 16 % 16) ∧
      ((0x00000002#32).toNat / 16 % 16 < 4 ∧ (0x00000002#32).toNat / 2 % 8 ≠ 0) ∧
      ((0x00000131#32).toNat / 16 % 16 < 4 ∧ (0x00000131#32).toNat / 256 ≠ 0) ∧
      ((0x00000031#32).toNat / 16 % 16 < 4 ∧ (0x00000031#32).toNat / 256 = 0 ∧ (0x00000031#32).toNat / 2 % 8 = 0) := by
  decide

theorem witness_StepRunsTheRunningCommand :
    (running .hufEnc [7] 7).EngineTurn (cfgOf .hufEnc 1 7) ∧ decode (cfgOf .hufEnc 1 7).cmd = .ok .hufEnc :=
  ⟨⟨rfl, rfl, .inl rfl⟩, by decide⟩

theorem witness_StepTakesTheHostAction :
    (hosted [.rstAssert]).HostTurn .rstAssert [] ∧
      { running .hufEnc [7] 7 with host := [.waitIrq], delay := 1 }.HostTurn .waitIrq [] ∧
      (State.reset.host = [] ∧ State.reset.seq = .idle) :=
  ⟨⟨rfl, .inl rfl⟩, ⟨rfl, .inr (.inr (by decide))⟩, rfl, rfl⟩

theorem witness_HandedOverCommandRunsNext : State.reset.seq = .idle := rfl

theorem witness_IllegalWordsComplete :
    ((runningWord 0x40).EngineTurn { cfgOf .hufEnc 0 2 with cmd := 0x40 } ∧ 4 ≤ (0x00000040#32).toNat / 16 % 16) ∧
      ((runningWord 0x3E).EngineTurn { cfgOf .hufEnc 0 2 with cmd := 0x3E } ∧ (0x0000003E#32).toNat / 16 % 16 < 4 ∧
        (0x0000003E#32).toNat / 2 % 8 ≠ 0) ∧
      ((runningWord 0x100).EngineTurn { cfgOf .hufEnc 0 2 with cmd := 0x100 } ∧ (0x00000100#32).toNat / 16 % 16 < 4 ∧
        (0x00000100#32).toNat / 256 ≠ 0) :=
  ⟨⟨⟨rfl, rfl, .inl rfl⟩, by decide⟩, ⟨⟨rfl, rfl, .inl rfl⟩, by decide⟩, ⟨rfl, rfl, .inl rfl⟩, by decide⟩

/-- Each clause at a boundary of its range: bounds 0 and 65536, an address one past an alignment, a range one word past the
top, ranges sharing one word. -/
theorem witness_ConfigurationErrorsInOrder :
    (Instr.Bounded .defEnc ∧ ¬legalBound (0 : Word) ∧ ¬legalBound (65536 : Word) ∧ legalBound (1 : Word) ∧
      legalBound (65535 : Word)) ∧
      ¬Instr.Bounded .lzwEnc ∧
      (0x00001001#32).toNat % 4 ≠ 0 ∧
      2 ^ 32 < (0xFFFFFFF0#32).toNat + 4 * (5#32).toNat ∧ (0xFFFFFFF0#32).toNat + 4 * (4#32).toNat ≤ 2 ^ 32 ∧
      ((0x1000#32).toNat < (0x100C#32).toNat + 4 * (4#32).toNat ∧ (0x100C#32).toNat < (0x1000#32).toNat + 4 * (4#32).toNat) := by
  refine ⟨⟨.inr rfl, ?_, ?_, ?_, ?_⟩, ?_, by decide, by decide, by decide, by decide, by decide⟩
  · simp [legalBound]
  · simp [legalBound]
  · simp [legalBound]
  · simp [legalBound]
  · simp [Instr.Bounded]

theorem legal_small : ConfigurationLegal .hufEnc (cfgOf .hufEnc 2 4) := by
  have h := admitted_small .hufEnc 2 4 (by decide)
  exact ⟨h.bounds, h.srcAlign, h.dstAlign, h.srcRange, h.dstRange, h.disjoint⟩

/-- V33: byte 0x1005 of SRC is not backed; and the last byte of DST is not backed. -/
theorem witness_BusErrorAtFirstUnbackedByte :
    ConfigurationLegal .hufEnc (cfgOf .hufEnc 2 4) ∧
      (({ Params.reference with backed := [⟨0, 0x1005⟩] } : Params).backs 0x1005 = false ∧
        (cfgOf .hufEnc 2 4).inSrc 0x1005 = true ∧
        ∀ a, a < 0x1005 → (cfgOf .hufEnc 2 4).inSrc a = true →
          ({ Params.reference with backed := [⟨0, 0x1005⟩] } : Params).backs a = true) ∧
      (({ Params.reference with backed := [⟨0, 0x200F⟩] } : Params).backs 0x200F = false ∧
        (cfgOf .hufEnc 2 4).inDst 0x200F = true ∧
        (∀ a, (cfgOf .hufEnc 2 4).inSrc a = true →
          ({ Params.reference with backed := [⟨0, 0x200F⟩] } : Params).backs a = true) ∧
        ∀ a, a < 0x200F → (cfgOf .hufEnc 2 4).inDst a = true →
          ({ Params.reference with backed := [⟨0, 0x200F⟩] } : Params).backs a = true) := by
  refine ⟨legal_small, ⟨by decide, by decide, fun a h _ => ?_⟩, by decide, by decide, fun a h => ?_, fun a h _ => ?_⟩
  · simp [Params.backs, Region.holds]
    omega
  · rw [Snapshot.inSrc_iff] at h
    simp [cfgOf] at h
    simp [Params.backs, Region.holds]
    omega
  · simp [Params.backs, Region.holds]
    omega

theorem witness_OperationErrorEntry :
    (running .hufDec [1] 4).seq = .busy (cfgOf .hufDec 1 4) ∧ Admitted .hufDec Params.reference (cfgOf .hufDec 1 4) ∧
      operationOf .hufDec Params.reference (cfgOf .hufDec 1 4) ((running .hufDec [1] 4).input (cfgOf .hufDec 1 4)) =
        .error ⟨.decTruncated, 1⟩ :=
  ⟨rfl, admitted_small _ _ _ (by decide), by decide⟩

theorem witness_OutputOverflowEntry :
    (running .hufEnc [7, 7, 7] 6).seq = .busy (cfgOf .hufEnc 3 6) ∧
      Admitted .hufEnc Params.reference (cfgOf .hufEnc 3 6) ∧
      operationOf .hufEnc Params.reference (cfgOf .hufEnc 3 6) ((running .hufEnc [7, 7, 7] 6).input (cfgOf .hufEnc 3 6)) =
        .ok [3, 1, 7, 1, 0, 0, 0] ∧ (cfgOf .hufEnc 3 6).dstCap.toNat < 7 :=
  ⟨rfl, admitted_small _ _ _ (by decide), by decide, by decide⟩

theorem witness_SuccessfulCompletion :
    (running .hufEnc [7, 7, 7] 7).seq = .busy (cfgOf .hufEnc 3 7) ∧
      Admitted .hufEnc Params.reference (cfgOf .hufEnc 3 7) ∧
      operationOf .hufEnc Params.reference (cfgOf .hufEnc 3 7) ((running .hufEnc [7, 7, 7] 7).input (cfgOf .hufEnc 3 7)) =
        .ok [3, 1, 7, 1, 0, 0, 0] ∧ 7 ≤ (cfgOf .hufEnc 3 7).dstCap.toNat :=
  ⟨rfl, admitted_small _ _ _ (by decide), by decide, by decide⟩

/-- The invariant in an idle and in a busy state. -/
theorem witness_EveryCommandCompletes : State.reset.Inv ∧ (running .lzwEnc [65] 4).Inv :=
  ⟨State.Inv.ofAtReset Memory.wf_nil (State.atReset_resetRegisters State.reset), inv_small _ _ _ (by decide)⟩

theorem witness_CommandFrame :
    (running .lzwEnc [65] 4).seq = .busy (cfgOf .lzwEnc 1 4) ∧ ∃ t, exec .lzwEnc (running .lzwEnc [65] 4) = .next t :=
  ⟨rfl, _, exec_of_busy rfl _⟩

theorem witness_RunningCommandIgnoresRegisters :
    (running .defEnc [65] 4).seq = .busy (cfgOf .defEnc 1 4) ∧ ∃ t, exec .defEnc (running .defEnc [65] 4) = .next t :=
  ⟨rfl, _, exec_of_busy rfl _⟩

/-- Two states that differ in registers and in memory outside SRC. -/
theorem witness_ResultDependsOnSrcOnly :
    (running .lzwEnc [65] 4).Inv ∧ { running .lzwEnc [65] 4 with srcLen := 9, rej := true }.Inv ∧
      (running .lzwEnc [65] 4).seq = .busy (cfgOf .lzwEnc 1 4) ∧
      (∃ t, exec .lzwEnc (running .lzwEnc [65] 4) = .next t) ∧
      ∃ t, exec .lzwEnc { running .lzwEnc [65] 4 with srcLen := 9, rej := true } = .next t := by
  have h := inv_small .lzwEnc [65] 4 (by decide)
  exact ⟨h, ⟨h.memory, h.doneErr, h.running, h.errcode, h.errRecorded, h.doneClean, h.noOutput, h.dstLen,
    by simp [running, State.reset]⟩, rfl, ⟨_, exec_of_busy rfl _⟩, _, exec_of_busy rfl _⟩

theorem witness_ResetRegisterTable : State.reset.AtReset := State.atReset_resetRegisters State.reset

/-- RST asserted while a command runs, on an idle block, and held. -/
theorem witness_HardReset :
    (running .lzwEnc [65] 4).seq = .busy (cfgOf .lzwEnc 1 4) ∧
      (cfgOf .lzwEnc 1 4).inDst 0x2010 = false ∧ (cfgOf .lzwEnc 1 4).inSrc 0x1000 = true ∧
      State.reset.seq = .idle ∧ { State.reset with rst := true }.rst = true := by decide

theorem witness_SoftReset :
    (running .lzwEnc [65] 4).rst = false ∧ (0x80000003#32).getLsbD 31 = true ∧
      (running .lzwEnc [65] 4).seq = .busy (cfgOf .lzwEnc 1 4) ∧ (cfgOf .lzwEnc 1 4).inDst 0x1FFF = false := by decide

theorem witness_CommandAccept :
    (State.reset.seq = .idle ∧ State.reset.rst = false) ∧
      (running .lzwEnc [65] 4).seq = .busy (cfgOf .lzwEnc 1 4) ∧ ¬((0x08 : Nat) = 0x08 ∧ (5#32).getLsbD 31 = true) := by
  decide

theorem witness_CommandReject :
    (running .lzwEnc [65] 4).seq = .busy (cfgOf .lzwEnc 1 4) ∧ (running .lzwEnc [65] 4).rst = false := by decide

theorem witness_StatusWriteOneToClear : { State.reset with done := true, rej := true }.rst = false := rfl

theorem witness_ControlWrite : State.reset.rst = false ∧ (0x7FFFFFFF#32).getLsbD 31 = false := by decide

theorem witness_ConfigurationRegisterWrites : (running .lzwEnc [65] 4).rst = false := rfl

theorem witness_ReservedAndReadOnlyWrites :
    ((0x40 : Nat) ≤ 0x40 ∧ (0x40 : Nat) ≤ 0xFC) ∧ ((0x40 : Nat) ≤ 0xFC ∧ (0xFC : Nat) ≤ 0xFC) ∧
      (0x3C : Nat) ∈ [0x00, 0x04, 0x14, 0x18, 0x1C, 0x38, 0x3C] := by decide

theorem witness_RegisterReadValues : State.reset.rst = false := rfl

/-- V34: BUSY meets the mask 1 and not the mask 6. -/
theorem witness_RegisterReadsHaveNoEffect :
    (running .lzwEnc [65] 4).readOffset 0x0C &&& 1 ≠ 0 ∧ (running .lzwEnc [65] 4).readOffset 0x0C &&& 6 = 0 := by decide

theorem witness_RegisterAccessShape :
    ((0xFC : Nat) < 256 ∧ (0xFC : Nat) % 4 = 0) ∧ ((0xFF : Nat) < 256 ∧ (0xFF : Nat) % 4 ≠ 0) ∧
      ((0 : Nat) < 256 ∧ (2 : Nat) ≠ 4) := by decide

/-- A store of the last word of data memory, and one a byte beyond. -/
theorem witness_WordsAreLittleEndian :
    (0xFFFFFFFC + 4 ≤ 2 ^ 32 ∧ wordBacked State.reset.params 0xFFFFFFFC = true ∧
      ∀ k, k < 4 → State.reset.bufferOpen (0xFFFFFFFC + k) = false) ∧ 2 ^ 32 < 0xFFFFFFFD + 4 :=
  ⟨⟨by decide, by decide, fun _ _ => rfl⟩, by decide⟩

theorem witness_BuffersBelongToTheEngine :
    (0x2000 + 4 ≤ 2 ^ 32 ∧ wordBacked Params.reference 0x2000 = true ∧
      cfgOf .lzwEnc 1 4 ∈ (running .lzwEnc [65] 4).handedOver ∧ (cfgOf .lzwEnc 1 4).inDst (0x2000 + 3) = true) ∧
      (wordBacked Params.reference 0x1000 = true ∧
        ∀ k, k < 4 → (running .lzwEnc [65] 4).dstOpen (0x1000 + k) = false) ∧
      (State.reset.seq = .idle ∧ State.reset.rst = false) ∧
      ((running .lzwEnc [65] 4).seq = .busy (cfgOf .lzwEnc 1 4) ∧ (running .lzwEnc [65] 4).rst = false ∧
        (∃ t, exec .lzwEnc (running .lzwEnc [65] 4) = .next t) ∧ (0x80000000#32).getLsbD 31 = true) :=
  ⟨by decide, by decide, by decide, rfl, rfl, ⟨_, exec_of_busy rfl _⟩, by decide⟩

/-- A running command with three host actions before its completion, and a poll that BUSY alone does not satisfy. -/
theorem witness_CompletionIsNotDelayedForever :
    { running .lzwEnc [65] 4 with delay := 3, host := [opRead Params.reference .status, opWait] }.seq =
        .busy (cfgOf .lzwEnc 1 4) ∧
      ∀ op ∈ [opRead Params.reference .status, opWait], op = opRead Params.reference .status ∨ ∃ mask, op = .poll mask := by
  refine ⟨rfl, fun op h => ?_⟩
  simp only [List.mem_cons, List.not_mem_nil, or_false] at h
  rcases h with h | h
  · exact .inl h
  · exact .inr ⟨_, h⟩

theorem witness_EveryStepKeepsTheInvariant :
    (running .lzwEnc [65] 4).Inv ∧ ∃ t, step (running .lzwEnc [65] 4) = .next t :=
  ⟨inv_small _ _ _ (by decide), _, rfl⟩

theorem witness_Lz77EncCompletes :
    Admitted .lz77Enc Params.reference (cfgOf .lz77Enc 3 6) ∧ 2 * (cfgOf .lz77Enc 3 6).srcLen.toNat ≤ 6 :=
  ⟨admitted_small _ _ _ (by decide), by decide⟩

theorem witness_Lz77DecCompletes :
    (Admitted .lz77Dec Params.reference (cfgOf .lz77Dec 4 2) ∧
      (running .lz77Dec [0x10000, 9, 0x10001, 0] 2).input (cfgOf .lz77Dec 4 2) =
        (lz77Encode [9, 9] 1 65535).flatMap Codeword.words) ∧
      Admitted .lz77Dec Params.reference (cfgOf .lz77Dec 3 2) ∧ (cfgOf .lz77Dec 3 2).srcLen.toNat % 2 = 1 :=
  ⟨⟨admitted_small _ _ _ (by decide), by decide⟩, admitted_small _ _ _ (by decide), by decide⟩

theorem witness_Lz77DecodeRules :
    lz77Decode [⟨0, 3, 5⟩] = .ok [5, 5, 5] ∧ 1 ≤ (⟨3, 4, 0⟩ : Codeword).offset ∧ (⟨3, 4, 0⟩ : Codeword).offset ≤ 3 ∧
      3 < (⟨4, 0, 0⟩ : Codeword).offset := by decide

theorem witness_Lz77RoundTrip : (1 : Nat) ≤ 1 ∧ (1 : Nat) ≤ 65535 ∧ (65535 : Nat) ≤ 65535 := by omega

/-- A literal, and a match with the least bounds. -/
theorem witness_Lz77EncoderIsGreedy :
    (1 ≤ 1 ∧ 1 ≤ 65535) ∧ (lz77Encode [9, 9] 1 1)[0]? = some ⟨0, 1, 9⟩ ∧ (lz77Encode [9, 9] 1 1)[1]? = some ⟨1, 1, 0⟩ := by
  decide

theorem witness_Lz77LiteralsAndRuns : ([1, 2, 3, 4, 5] : List Word).Nodup ∧ 1 ≤ 65535 := by decide

theorem witness_LzwEncCompletes :
    Admitted .lzwEnc Params.reference (cfgOf .lzwEnc 1 1) ∧
      (running .lzwEnc [255] 1).input (cfgOf .lzwEnc 1 1) = [255] ∧ (255#32).toNat < 256 ∧
      256 + (cfgOf .lzwEnc 1 1).srcLen.toNat ≤ Params.reference.lzwDictCap :=
  ⟨admitted_small _ _ _ (by decide), by decide, by decide, by decide⟩

theorem witness_LzwDecCompletes :
    Admitted .lzwDec Params.reference (cfgOf .lzwDec 2 3) ∧
      lzwEncode Params.reference.lzwDictCap [97, 97, 97] =
        .ok ((running .lzwDec [97, 256] 3).input (cfgOf .lzwDec 2 3)) :=
  ⟨admitted_small _ _ _ (by decide), by decide⟩

theorem witness_LzwRoundTrip : lzwEncode 257 [97, 97] = .ok [97, 97] ∧ lzwEncode 257 [97, 97, 97] = .ok [97, 256] := by
  decide

/-- The range clause at its first symbol beyond; the dictionary one entry too small and just large enough (V25). -/
theorem witness_LzwEncoderErrors :
    (([0, 255, 256] : List Word)[2]? = some 256 ∧ 255 < (256#32).toInt ∧ (0xFFFFFFFF#32).toInt < 0 ∧
      (∀ j y, j < 2 → ([0, 255, 256] : List Word)[j]? = some y → 0 ≤ y.toInt ∧ y.toInt ≤ 255)) ∧
      ((∀ x ∈ ([1, 2, 3, 4] : List Word), x.toNat < 256) ∧ ([1, 2, 3, 4] : List Word).length ≤ 2 ^ 30 ∧
        lzwEncode 258 [1, 2, 3, 4] = .error ⟨.encLzwDictFull, 3⟩ ∧ lzwEncode 259 [1, 2, 3, 4] = .ok [1, 2, 3, 4]) ∧
      lzwEncode 257 [256] = .error ⟨.encLzwSymbolRange, 0⟩ := by
  refine ⟨⟨by decide, by decide, by decide, fun j y hj h => ?_⟩, ⟨by simp, by simp, by decide, by decide⟩, by decide⟩
  match j with
  | 0 => cases h; decide
  | 1 => cases h; decide

/-- V24, V25: after [65, 66] the size is 257, so 256 is known, 257 not yet defined and 258 a gap. -/
theorem witness_LzwDecodeRules :
    256 ≤ (256#32).toNat ∧ (255#32).toNat < 256 ∧
      (lzwDecode 300 [65, 66] = .ok [65, 66] ∧ 256 + (([65, 66] : List Word).length - 1) < (258#32).toNat) ∧
      (lzwDecode 257 [1, 2] = .ok [1, 2] ∧ (257#32).toNat ≤ 256 + (([1, 2] : List Word).length - 1) ∧
        257 ≤ 256 + (([1, 2] : List Word).length - 1)) ∧
      256 + (([65, 66] : List Word).length - 1) < 258 := by decide

theorem witness_HufEncCompletes :
    Admitted .hufEnc Params.reference (cfgOf .hufEnc 3 20) ∧ 64 * (cfgOf .hufEnc 3 20).srcLen.toNat ≤ 2 ^ 32 - 1 ∧
      2 + 4 * (cfgOf .hufEnc 3 20).srcLen.toNat + 2 * (cfgOf .hufEnc 3 20).srcLen.toNat ≤ 20 :=
  ⟨admitted_small _ _ _ (by decide), by decide, by decide⟩

theorem witness_HufDecCompletes :
    Admitted .hufDec Params.reference (cfgOf .hufDec 7 3) ∧
      hufEncode [7, 7, 7] = .ok ((running .hufDec [3, 1, 7, 1, 0, 0, 0] 3).input (cfgOf .hufDec 7 3)) :=
  ⟨admitted_small _ _ _ (by decide), by decide⟩

/-- V3, V6. -/
theorem witness_HufRoundTrip :
    hufEncode [2, 1] = .ok [2, 2, 2, 1, 0, 0, 1, 1, 1, 0, 2] ∧
      hufEncode [0xFFFFFFFF, 5, 0xFFFFFFFF] = .ok [3, 2, 0xFFFFFFFF, 1, 1, 0, 5, 1, 0, 0, 5] := by decide

/-- One symbol and several: V1, and V6 with the tree of its table, whose first popped entry is on the left. -/
theorem witness_HufTableIsAPrefixCode :
    (([7, 7, 7] : List Word).eraseDups.length = 1 ∧ ((7 : Word), [false]) ∈ tableOf [7, 7, 7]) ∧
      (2 ≤ ([4, 4, 5] : List Word).eraseDups.length ∧ ((4 : Word), [true]) ∈ tableOf [4, 4, 5] ∧
        buildTree (freqCount [4, 4, 5]) = some (.branch (.leaf 5) (.leaf 4))) := by decide

theorem witness_HufEmptyAndSingleSymbol : 1 ≤ 1 ∧ 1 ≤ 2 ^ 32 - 1 := by decide

theorem witness_HufArtifact : hufEncode [0] = .ok [1, 1, 0, 1, 0, 0, 0] := by decide

/-- V5: the code of R, one of the longest of its table. -/
theorem witness_HufCodeLengthBound :
    ((82 : Word), [true, true, true]) ∈ tableOf [65, 66, 82, 65, 67, 65, 68, 65, 66, 82, 65] := by decide

/-- V7, V8. -/
theorem witness_HufShapeAndTableChecks :
    ([5] : List Word).length < 2 ∧
      ([3, 1, 7, 1] : List Word).length < 2 + 4 * (([3, 1, 7, 1] : List Word).getD 1 0).toNat + ceilDiv 3 32 ∧
      2 + 4 * (([3, 1, 7, 1, 0, 0, 0, 9] : List Word).getD 1 0).toNat + ceilDiv 3 32 <
        ([3, 1, 7, 1, 0, 0, 0, 9] : List Word).length ∧
      (hufShape [1, 1, 7, 0, 0, 0, 0] ∧ tableEntryFails [1, 1, 7, 0, 0, 0, 0] 0) :=
  ⟨by decide, by decide, by decide, ⟨by decide, by decide⟩, .inl (by decide)⟩

theorem entryOk_small {w : List Word} (hl : tableLen w 0 = 1) (hc : tableCode w 0 < 2) : ¬tableEntryFails w 0 := by
  rintro (h | h | h | ⟨j, hj, _⟩)
  · omega
  · omega
  · rw [hl] at h
    omega
  · omega

/-- V1, V9. -/
theorem witness_HufDecodeLoop :
    (hufShape [1, 1, 7, 1, 0, 0, 0] ∧ ¬tableEntryFails [1, 1, 7, 1, 0, 0, 0] 0 ∧ DecodesTo [1, 1, 7, 1, 0, 0, 0] 0 [7] 1) ∧
      (hufShape [1, 1, 7, 1, 0, 0, 1] ∧ ¬tableEntryFails [1, 1, 7, 1, 0, 0, 1] 0 ∧ DecodesTo [1, 1, 7, 1, 0, 0, 1] 0 [] 0 ∧
        ∀ e, ¬tableMatches [1, 1, 7, 1, 0, 0, 1] e 0) := by
  refine ⟨⟨⟨by decide, by decide⟩, entryOk_small (by decide) (by decide), 0, ⟨by decide, by decide, fun i hi => ?_⟩,
    by decide, rfl⟩, ⟨by decide, by decide⟩, entryOk_small (by decide) (by decide), rfl, fun e h => ?_⟩
  · have hi0 : i = 0 := Nat.lt_one_iff.1 hi
    subst hi0
    decide
  · have he : e < 1 := h.1
    have he0 : e = 0 := Nat.lt_one_iff.1 he
    subst he0
    have := h.2.2 0 (by decide)
    exact absurd this (by decide)

theorem witness_DefEncCompletes :
    Admitted .defEnc Params.reference (cfgOf .defEnc 1 4) ∧
      1 + (cfgOf .defEnc 1 4).srcLen.toNat + 2 * ceilDiv (cfgOf .defEnc 1 4).srcLen.toNat 65536 ≤ 4 :=
  ⟨admitted_small _ _ _ (by decide), by decide⟩

theorem witness_DefDecCompletes :
    Admitted .defDec Params.reference (cfgOf .defDec 4 1) ∧
      defEncode [5] 255 254 = .ok ((running .defDec [1, 0, 1, 5] 1).input (cfgOf .defDec 4 1)) :=
  ⟨admitted_small _ _ _ (by decide), by decide⟩

theorem witness_DefRoundTrip : (1 ≤ 1 ∧ 1 ≤ 65535) ∧ ([5, 6] : List Word).length ≤ 2 ^ 30 := by decide

/-- V27: artifacts of cost 776 with 155 symbols and with 156. -/
theorem witness_DefChunksAndStored :
    (inputChunks [5, 6] = [[5, 6]] ∧ ([5, 6] : List Word).Nodup) ∧
      5 * 155 ≤ artifactCost [2, 2, 1, 1, 0, 0, 155, 1, 1, 0, 2] + artifactCost [6, 3, 0, 1, 0, 0, 7, 2, 1, 0, 1, 2, 3, 0, 26] ∧
      artifactCost [2, 2, 1, 1, 0, 0, 155, 1, 1, 0, 2] + artifactCost [6, 3, 0, 1, 0, 0, 7, 2, 1, 0, 1, 2, 3, 0, 26] <
        5 * 156 := by decide

theorem not_two_artifacts_nil : ¬∃ a b more : List Word, hufShape a ∧ hufShape b ∧ [] = a ++ b ++ more := by
  rintro ⟨a, b, more, ha, _, h⟩
  have := congrArg List.length h
  have := ha.1
  simp only [List.length_nil, List.length_append] at *
  omega

/-- One Stored record before: the end and more words, and record 1 with each of its errors. -/
theorem witness_DefRecordRules :
    ((∀ r ∈ [(([0, 1, 5] : List Word), ([5] : List Word))], RecordGives r.1 r.2) ∧ 1 = (1#32).toNat ∧ 1 < (2#32).toNat) ∧
      ((2 : Word) ≠ 0 ∧ (2 : Word) ≠ 1 ∧ ([] : List Word).length < (1#32).toNat ∧
        ¬∃ a b more : List Word, hufShape a ∧ hufShape b ∧ [] = a ++ b ++ more) ∧
      (hufShape [1, 1, 7, 1, 0, 0, 1] ∧ hufDecode [1, 1, 7, 1, 0, 0, 1] = .error ⟨.decHufNoMatch, 0⟩) ∧
      (hufDecode [1, 1, 5, 1, 0, 0, 0] = .ok [5] ∧ hufDecode [0, 0] = .ok [] ∧
        ([] : List Word).length ≠ 2 * ([5] : List Word).length) ∧
      (hufDecode [1, 1, 65536, 1, 0, 0, 0] = .ok [65536] ∧ hufDecode [2, 2, 0, 1, 0, 0, 7, 1, 1, 0, 2] = .ok [0, 7] ∧
        ¬fieldsFit [65536] [0, 7]) ∧
      (hufDecode [1, 1, 1, 1, 0, 0, 0] = .ok [1] ∧ hufDecode [2, 2, 1, 1, 0, 0, 0, 1, 1, 0, 2] = .ok [1, 0] ∧
        fieldsFit [1] [1, 0] ∧ lz77Decode (zipCodewords [1] [1, 0]) = .error ⟨.decLz77Offset, 0⟩) := by
  refine ⟨⟨fun r hr => ?_, rfl, by decide⟩, ⟨by decide, by decide, by decide, not_two_artifacts_nil⟩,
    ⟨⟨by decide, by decide⟩, by decide⟩, ⟨by decide, by decide, by decide⟩,
    ⟨by decide, by decide, fun h => absurd (h 0 (by decide)).2.2 (by decide)⟩, by decide, by decide, fun j hj => ?_, by decide⟩
  · rw [List.mem_singleton.1 hr]
    exact .inl ⟨1, rfl, rfl⟩
  · have h0 : j = 0 := Nat.lt_one_iff.1 hj
    subst h0
    decide

/-- HUF_ENC of [7, 7, 7] and then HUF_DEC of its seven words. -/
theorem witness_RoundTripOnTheMachine :
    ∃ t : State, exec (opOf .huffman .enc) (running .hufEnc [7, 7, 7] 7) = .next t ∧ t.done = true ∧
      (let c' : Snapshot := { cmd := 0x21, srcAddr := 0x2000, srcLen := 7, dstAddr := 0x3000, dstCap := 3
                              maxOffset := 255, maxLength := 254 }
       let u : State := { t with seq := .busy c' }
       u.params = (running .hufEnc [7, 7, 7] 7).params ∧ c'.srcAddr = (cfgOf .hufEnc 3 7).dstAddr ∧ c'.srcLen = t.dstLen ∧
         u.input c' = t.input c' ∧ Admitted (opOf .huffman .dec) u.params c' ∧
         (cfgOf .hufEnc 3 7).srcLen.toNat ≤ c'.dstCap.toNat) := by
  refine ⟨_, exec_of_busy rfl _, by decide, rfl, rfl, by decide, rfl, ?_, by decide⟩
  exact (preCheck_eq_none_iff .hufDec _ _).1 (by decide)

end Sys2Proof.Tests
end

section
/-! PROOFS. Each codec's decoder undoes its encoder (00_scope R25), as functions on word lists. -/

namespace Sys2Proof.Machine

/-! ### LZ77 (41_lz77 R256) -/

theorem lz77Decode_lz77Encode (s : List Word) (mo ml : Nat) : lz77Decode (lz77Encode s mo ml) = .ok s := by
  simpa [lz77Decode, lz77Encode] using lz77DecodeFrom_encodeFrom mo ml 0 0 [] s

/-- Every codeword of the encoder fits its two fields when the bounds do (30_encoding R130). -/
theorem lz77Encode_fits {s : List Word} {mo ml : Nat} (hmo : mo ≤ 65535) (hml : ml ≤ 65535) :
    ∀ c ∈ lz77Encode s mo ml, c.offset ≤ 65535 ∧ c.length ≤ 65535 := by
  intro c hc
  rcases lz77EncodeFrom_mem hc with ⟨ho, hl⟩ | ⟨_, ho, _, hl⟩ <;> omega

/-- LZ77_DEC on the words LZ77_ENC writes (41_lz77 R249, R255). -/
theorem lz77DecOp_words (c : Snapshot) {s : List Word} {mo ml : Nat} (hmo : mo ≤ 65535) (hml : ml ≤ 65535) :
    lz77DecOp c ((lz77Encode s mo ml).flatMap Codeword.words) = .ok s := by
  rw [lz77DecOp, if_neg (by rw [flatMap_words_length]; omega), codewordsOf_flatMap_words (lz77Encode_fits hmo hml),
    lz77Decode_lz77Encode]

/-! ### LZW (42_lzw R272, R282) -/

/-- What a successful encoding says of its input: every symbol is a byte, and after the first symbol the codes are those of
the loop (42_lzw R272, R275). -/
theorem lzwEncode_ok {cap : Nat} {s codes : List Word} (h : lzwEncode cap s = .ok codes) :
    (∀ x ∈ s, x.toNat < 256) ∧
      ((s = [] ∧ codes = []) ∨ ∃ x rest, s = x :: rest ∧ lzwEncodeFrom cap 1 256 [] x.toNat rest = .ok codes) := by
  unfold lzwEncode at h
  split at h
  case h_1 => cases h
  case h_2 hrange =>
    refine ⟨fun x hx => (lzwOutOfRange_eq_false_iff x).1 (List.findIdx?_eq_none_iff.1 hrange x hx), ?_⟩
    cases s with
    | nil =>
      cases h
      exact .inl ⟨rfl, rfl⟩
    | cons x rest => exact .inr ⟨x, rest, rfl, h⟩

/-- The decoder on a first code that is a byte (42_lzw R277). -/
theorem lzwDecode_cons_byte {cap : Nat} {x : Word} (hx : x.toNat < 256) {rest out : List Word}
    (h : lzwDecodeFrom cap 1 [] [x] rest = .ok out) : lzwDecode cap (x :: rest) = .ok (x :: out) := by
  rw [lzwDecode, if_neg (by simpa [Config.lzwSeed] using hx), lzwStr_byte hx, h]
  rfl

/-- The empty dictionary knows no pair, so the encoder emits its current code and enters the first pair (42_lzw R275). -/
theorem lzwEncodeFrom_empty_cons {cap i w : Nat} {y : Word} {rest codes : List Word}
    (h : lzwEncodeFrom cap i 256 [] w (y :: rest) = .ok codes) :
    256 < cap ∧ ∃ out, codes = BitVec.ofNat 32 w :: out ∧
      lzwEncodeFrom cap (i + 1) 257 [((w, y), 256)] y.toNat rest = .ok out := by
  simp only [lzwEncodeFrom, List.lookup_nil] at h
  split at h
  case isTrue => cases h
  case isFalse hcap =>
    split at h
    case h_1 => cases h
    case h_2 out hout =>
      cases h
      exact ⟨Nat.not_le.1 hcap, out, rfl, hout⟩

/-- After the first code the encoder has entered the first two symbols, and from there on the decoder runs one entry behind
it (42_lzw R280). -/
theorem lzwDecode_lzwEncode {cap : Nat} {s codes : List Word} (hlen : s.length ≤ 2 ^ 30)
    (h : lzwEncode cap s = .ok codes) : lzwDecode cap codes = .ok s := by
  obtain ⟨hbytes, ⟨rfl, rfl⟩ | ⟨x, rest, rfl, henc⟩⟩ := lzwEncode_ok h
  · rfl
  have hx := hbytes x List.mem_cons_self
  have hcode : BitVec.ofNat 32 x.toNat = x := by simp
  cases rest with
  | nil =>
    cases henc
    rw [hcode]
    exact lzwDecode_cons_byte hx rfl
  | cons y rest =>
    obtain ⟨hcap, out, rfl, hout⟩ := lzwEncodeFrom_empty_cons henc
    have hy := hbytes y (by simp)
    have hmatches : LzwDict.Matches [((x.toNat, y), 256)] [[x] ++ [y]] := by
      simpa [lzwStr_byte hx] using LzwDict.matches_nil.insert (w := x.toNat) (by simpa using hx) y
    have hdec := lzwDecodeFrom_encodeFrom (d := []) (j := 1) hmatches (by simp; omega) (by simp)
      (by rw [lzwStr_byte hy]; rfl) (by simpa using hcap) (fun z hz => hbytes z (by simp [hz]))
      (by simp at hlen ⊢; omega) hout
    rw [lzwStr_byte hy] at hdec
    rw [hcode]
    exact lzwDecode_cons_byte hx hdec

/-! ### Huffman (40_huffman R220) -/

/-- Where the table check finds nothing, every entry passes against those before it (40_huffman R217). -/
theorem badEntry_of_firstBadEntry_none {earlier l : List RawEntry} (h : firstBadEntry earlier l = none) :
    ∀ a e b, l = a ++ e :: b → badEntry (earlier ++ a) e = false := by
  induction l generalizing earlier with
  | nil => simp
  | cons f l ih =>
    rw [firstBadEntry] at h
    split at h
    case isTrue => cases h
    case isFalse hf =>
      intro a e b hab
      cases a with
      | nil =>
        cases hab
        simpa using hf
      | cons g a =>
        cases hab
        simpa using ih h a e b rfl

/-- The table of an encoding passes validation, in the artifact's words (40_huffman R217, R220). -/
theorem hufEncode_table_valid {s w : List Word} (h : hufEncode s = .ok w) :
    ∀ e, e < (w.getD 1 0).toNat → ¬tableEntryFails w e := by
  obtain ⟨hshape, _, _, _, _, hvalid⟩ := hufEncode_artifact h
  intro e he
  rw [← tableIn_length hshape] at he
  have hsplit : tableIn w = (tableIn w).take e ++ (tableIn w)[e] :: (tableIn w).drop (e + 1) := by simp
  have hfails := badEntry_tableIn hshape hsplit
  rw [List.length_take_of_le he.le] at hfails
  have hpass := badEntry_of_firstBadEntry_none hvalid _ _ _ hsplit
  rw [List.nil_append] at hpass
  simp [← hfails, hpass]

/-- The artifact of an encoding decodes to its input, in the spec's relation (40_huffman R218, R220). -/
theorem hufEncode_decodesTo {s w : List Word} (h : hufEncode s = .ok w) : DecodesTo w 0 s (w.getD 0 0).toNat := by
  obtain ⟨hshape, _, _, htable, hbits, _⟩ := hufEncode_artifact h
  exact decodesTo_of_codes hshape htable _ (fun x hx => codeOf_tableOf_mem hx) (pre := []) hbits

/-- Over a valid table the whole bitstring decodes to what the spec's relation says (40_huffman R218). -/
theorem hufDecode_of_decodesTo {w out : List Word} (hshape : hufShape w)
    (hv : ∀ e, e < (w.getD 1 0).toNat → ¬tableEntryFails w e) (hd : DecodesTo w 0 out (w.getD 0 0).toNat) :
    hufDecode w = .ok out := by
  have hloop := decodeBits_of_decodesTo hshape hv (Nat.zero_le _) hd
  have hend : (bitsIn w).drop (w.getD 0 0).toNat = [] := by rw [← bitsIn_length hshape, List.drop_length]
  rw [hend, List.drop_zero] at hloop
  rw [hufDecode_of_shape hshape, (valid_tableIn hshape hv).1]
  simpa [decodeBits] using hloop

theorem hufDecode_hufEncode {s w : List Word} (h : hufEncode s = .ok w) : hufDecode w = .ok s :=
  hufDecode_of_decodesTo (hufEncode_artifact h).1 (hufEncode_table_valid h) (hufEncode_decodesTo h)

/-! ### Deflate (43_deflate R316) -/

/-- Whichever record the muxer chooses, it gives the chunk back (43_deflate R307, R311, R312). -/
theorem recordFor_of_chunkRecord {mo ml : Nat} {ch r : List Word} (hmo : mo ≤ 65535) (hml : ml ≤ 65535)
    (hlen : ch.length ≤ 65536) (h : chunkRecord mo ml ch = .ok r) : RecordFor ch r := by
  obtain ⟨a, b, ha, hb, hr⟩ := chunkRecord_mux mo ml hlen
  cases hr.symm.trans h
  unfold muxRecord
  split
  · exact recordFor_stored (by omega)
  · refine recordFor_coded (hufEncode_artifact ha).1 (hufEncode_artifact hb).1 ?_
    rw [codedChunk_of_arrays (hufDecode_hufEncode ha) (hufDecode_hufEncode hb) (lz77Encode_fits hmo hml),
      lz77Decode_lz77Encode]

/-- A successful encoding is the number of chunks and then a record for each (43_deflate R308). -/
theorem defEncode_records {s w : List Word} {mo ml : Nat} (hmo : mo ≤ 65535) (hml : ml ≤ 65535)
    (h : defEncode s mo ml = .ok w) :
    ∃ rs, w = BitVec.ofNat 32 (inputChunks s).length :: rs.flatten ∧ List.Forall₂ RecordFor (inputChunks s) rs := by
  obtain ⟨rs, hlen, henc, hrec⟩ := encodeChunks_records mo ml (fun ch hch => (mem_inputChunks (s := s) hch).1) 0
  rw [defEncode, henc] at h
  cases h
  refine ⟨rs, rfl, List.forall₂_iff_get.2 ⟨hlen.symm, fun q hq hq' => ?_⟩⟩
  exact recordFor_of_chunkRecord hmo hml (mem_inputChunks (List.get_mem _ _)).1
    (hrec q _ _ (List.getElem?_eq_getElem hq) (List.getElem?_eq_getElem hq'))

theorem defDecode_defEncode {s w : List Word} {mo ml : Nat} (hmo : mo ≤ 65535) (hml : ml ≤ 65535)
    (hlen : s.length ≤ 2 ^ 30) (h : defEncode s mo ml = .ok w) : defDecode w = .ok s := by
  obtain ⟨rs, rfl, hrs⟩ := defEncode_records hmo hml h
  have hcount : (BitVec.ofNat 32 (inputChunks s).length).toNat = (inputChunks s).length := by
    have := ceilDiv_le s.length 65536 (by decide)
    rw [inputChunks_length, BitVec.toNat_ofNat, Nat.mod_eq_of_lt (by omega)]
  rw [defDecode, hcount, decodeRecords_of_records hrs, inputChunks_flatten]

/-! ### Every codec -/

/-- The decode operation of a codec undoes its encode operation, on inputs a buffer holds and under the bounds the encode
command was admitted with (00_scope R14, R25). -/
theorem operationOf_dec_of_enc (k : Codec) {p : Params} {c : Snapshot} (c' : Snapshot) {x w : List Word}
    (hbounds : Instr.Bounded (opOf k .enc) → legalBound c.maxOffset ∧ legalBound c.maxLength)
    (hlen : x.length ≤ 2 ^ 30) (h : operationOf (opOf k .enc) p c x = .ok w) :
    operationOf (opOf k .dec) p c' w = .ok x := by
  cases k with
  | lz77 =>
    obtain ⟨⟨_, hmo⟩, _, hml⟩ := hbounds (.inl rfl)
    cases h
    exact lz77DecOp_words c' hmo hml
  | lzw => exact lzwDecode_lzwEncode hlen h
  | huffman => exact hufDecode_hufEncode h
  | deflate =>
    obtain ⟨⟨_, hmo⟩, _, hml⟩ := hbounds (.inr rfl)
    exact defDecode_defEncode hmo hml hlen h

end Sys2Proof.Machine
end

section
/-! PROOFS. A command that ends with DONE, and a decode command run on its output (00_scope R25, 10_state R56). -/

namespace Sys2Proof.Machine

/-! ### Completion with DONE -/

/-- A success leaves the words at DST, the three fields of R56, and all else as it was. -/
theorem State.completedWith_succeed (s : State) (c : Snapshot) (out : List Word) :
    s.CompletedWith c out (s.succeed c out) :=
  ⟨_, rfl, Memory.words_writeWords _ _ _, fun a ha => Memory.read_writeWords_of_outside _ _ _ a ha⟩

/-- An admitted command whose operation succeeds within DST_CAP completes (10_state R56). -/
theorem exec_completedWith {i : Instr} {s : State} {c : Snapshot} {out : List Word} (hc : s.seq = .busy c)
    (ha : Admitted i s.params c) (ho : operationOf i s.params c (s.input c) = .ok out)
    (hl : out.length ≤ c.dstCap.toNat) : ∃ t, exec i s = .next t ∧ s.CompletedWith c out t := by
  refine ⟨_, exec_of_busy hc i, ?_⟩
  rw [State.complete_ok ha ho hl]
  exact s.completedWith_succeed c out

/-- Only a success sets DONE: the command was admitted, and its operation gave words that fit (10_state R56). -/
theorem exec_done {i : Instr} {s t : State} {c : Snapshot} (hc : s.seq = .busy c) (hd : s.done = false)
    (h : exec i s = .next t) (ht : t.done = true) :
    Admitted i s.params c ∧ ∃ out, operationOf i s.params c (s.input c) = .ok out ∧ out.length ≤ c.dstCap.toNat ∧
      t = s.succeed c out := by
  rw [exec_of_busy hc] at h
  cases h
  obtain ⟨e, _, he⟩ | ⟨_, e, _, he⟩ | ⟨hp, out, ho, hl, he⟩ :=
    State.complete_cases (boundedBit i) (operationOf i s.params) c s
  · simp [he, hd] at ht
  · simp [he, hd] at ht
  · exact ⟨(preCheck_eq_none_iff i s.params c).1 hp, out, ho, hl, he⟩

/-! ### The artifact as the next command's input -/

theorem State.input_length (s : State) (c : Snapshot) : (s.input c).length = c.srcLen.toNat :=
  Memory.words_length _ _ _

/-- A buffer in the 2^32 bytes holds at most 2^30 words (60_exceptions R409). -/
theorem Admitted.input_length_le {i : Instr} {s : State} {c : Snapshot} (h : Admitted i s.params c) :
    (s.input c).length ≤ 2 ^ 30 := by
  have := h.srcRange
  rw [State.input_length]
  omega

/-- A command whose SRC is the DST of a success, and whose SRC_LEN is the DST_LEN it left, reads the words written. -/
theorem State.input_succeed {s : State} {c c' : Snapshot} {out : List Word} (hl : out.length ≤ c.dstCap.toNat)
    (hsrc : c'.srcAddr = c.dstAddr) (hlen : c'.srcLen = (s.succeed c out).dstLen) :
    (s.succeed c out).input c' = out := by
  have hn : (BitVec.ofNat 32 out.length).toNat = out.length := by
    rw [BitVec.toNat_ofNat, Nat.mod_eq_of_lt (hl.trans_lt c.dstCap.isLt)]
  rw [State.input, hsrc, hlen, State.succeed_dstLen, hn, State.succeed_mem, Memory.words_writeWords]

/-! ### The round trip -/

/-- Settles O35: only a success sets DONE, so the decode command reads the artifact of the input, and the codec's decoder
undoes its encoder. -/
theorem roundTripOnTheMachine : Obligations.RoundTripOnTheMachine := by
  intro k s t u c c' hc hdone hexec htdone hc' hparams hsrc hlen hinput hadm hcap
  obtain ⟨henc, w, hw, hwl, rfl⟩ := exec_done hc hdone hexec htdone
  rw [State.input_succeed hwl hsrc hlen] at hinput
  have hdec := operationOf_dec_of_enc k c' henc.bounds henc.input_length_le hw
  rw [← hparams, ← hinput] at hdec
  refine ⟨exec_completedWith hc' hadm hdec (by rwa [State.input_length]), ?_⟩
  rintro rfl
  exact (lzwEncode_ok hw).1

end Sys2Proof.Machine
end

section
/-! PROOFS. The invariant holds at reset, and the engine, the host and the platform keep it (10_state R37, R54 to R57,
60_exceptions R425, 70_reset_and_hazards R500). -/

namespace Sys2Proof.Machine

theorem State.atReset_reset : State.reset.AtReset := State.atReset_resetRegisters State.reset

/-- Settles O33: memory is empty and every register is at its reset value. -/
theorem resetMeetsTheInvariant : Obligations.ResetMeetsTheInvariant :=
  State.Inv.ofAtReset Memory.wf_nil State.atReset_reset

/-- Taking the next action off the host's list keeps the invariant. -/
theorem State.Inv.taken {s : State} (h : s.Inv) (rest : List HostOp) : (s.taken rest).Inv :=
  h.host rest s.hostData (s.delay - 1) s.free

/-- The engine's step keeps the invariant: it is a completion, or the error entry of an illegal word. -/
theorem State.Inv.engineStep {s t : State} {c : Snapshot} (h : s.Inv) (hturn : s.EngineTurn c)
    (ht : Machine.engineStep c s = .next t) : t.Inv := by
  obtain ⟨hc, hrst, _⟩ := hturn
  obtain ⟨i, _, he⟩ | ⟨e, _, he⟩ := engineStep_cases hc <;> rw [he] at ht <;> cases ht
  · exact h.complete hc hrst i _
  · exact h.errorEntry hc hrst _

/-- Settles O34: by whose turn the step is, and for each by what that turn can do. -/
theorem everyStepKeepsTheInvariant : Obligations.EveryStepKeepsTheInvariant := by
  intro s t h ht
  obtain ⟨c, hturn, he⟩ | ⟨op, rest, _, he⟩ | ⟨_, he⟩ := step_cases s <;> rw [he] at ht
  · exact h.engineStep hturn ht
  · exact (h.taken rest).hostAction ht
  · cases ht
    exact h

end Sys2Proof.Machine
end

section
/-! PROOFS. The completion of a running command: what a success writes, that later register writes do not reach it, and how
it is handed over (10_state R55, R56, R58; log 1, log 11). -/

namespace Sys2Proof.Machine

/-- Settles O12: the success case of the completion step. -/
theorem successfulCompletion : Obligations.SuccessfulCompletion :=
  fun _ _ _ _ hc ha ho hl => exec_completedWith hc ha ho hl

/-! ### Register writes while a command runs (10_state R55, R58) -/

/-- The configuration registers and the interrupt enables overwritten, as host writes after accept may leave them. -/
def State.overwritten (sa sl da dc mo ml : Word) (d e : Bool) (s : State) : State :=
  { s with srcAddr := sa, srcLen := sl, dstAddr := da, dstCap := dc, maxOffset := mo, maxLength := ml
           ieDone := d, ieErr := e }

section
variable (sa sl da dc mo ml : Word) (d e : Bool) (s : State)

@[simp] theorem State.overwritten_seq : (s.overwritten sa sl da dc mo ml d e).seq = s.seq := rfl
@[simp] theorem State.overwritten_params : (s.overwritten sa sl da dc mo ml d e).params = s.params := rfl

@[simp] theorem State.input_overwritten (c : Snapshot) :
    (s.overwritten sa sl da dc mo ml d e).input c = s.input c := rfl

theorem State.errorEntry_overwritten (err : OpError) :
    (s.overwritten sa sl da dc mo ml d e).errorEntry err = (s.errorEntry err).overwritten sa sl da dc mo ml d e := rfl

theorem State.scrambleDst_overwritten (c : Snapshot) :
    (s.overwritten sa sl da dc mo ml d e).scrambleDst c = (s.scrambleDst c).overwritten sa sl da dc mo ml d e := rfl

theorem State.succeed_overwritten (c : Snapshot) (out : List Word) :
    (s.overwritten sa sl da dc mo ml d e).succeed c out = (s.succeed c out).overwritten sa sl da dc mo ml d e := rfl

/-- The completion step reads the snapshot, the parameters and SRC, and writes none of the overwritten registers. -/
theorem State.complete_overwritten (bounded : Bool) (op : Operation) (c : Snapshot) :
    (s.overwritten sa sl da dc mo ml d e).complete bounded op c =
      (s.complete bounded op c).overwritten sa sl da dc mo ml d e := by
  simp only [State.complete, State.overwritten_params, State.input_overwritten, State.scrambleDst_overwritten,
    State.errorEntry_overwritten, State.succeed_overwritten]
  cases preCheck bounded s.params c with
  | some e => rfl
  | none =>
    cases op c (s.input c) with
    | error e => rfl
    | ok out => exact (apply_ite (State.overwritten sa sl da dc mo ml d e) _ _ _).symm

end

/-- Settles O15: the completion step commutes with overwriting the registers. -/
theorem runningCommandIgnoresRegisters : Obligations.RunningCommandIgnoresRegisters := by
  intro i s t c sa sl da dc mo ml d e hc ht
  change exec i (s.overwritten sa sl da dc mo ml d e) = .next (t.overwritten sa sl da dc mo ml d e)
  rw [exec_of_busy hc] at ht
  cases ht
  rw [exec_of_busy (by simpa using hc), State.overwritten_params, State.complete_overwritten]

/-! ### A command handed over (log 1, log 11) -/

theorem decode_encode (i : Instr) : decode (encode i) = .ok i := by cases i <;> rfl

/-- A command word has only its low eight bits, so a row of the opcode table gives the whole word (30_encoding R120). -/
theorem State.withFetchWord_encode (s : State) (i : Instr) :
    s.withFetchWord 8 (encode i).toNat = s.launch (encode i) := by
  have hword : BitVec.ofNat 32 ((encode i).toNat % 2 ^ 8) = encode i := by cases i <;> rfl
  rw [State.withFetchWord, hword]

theorem State.engineTurn_launch (s : State) (v : Word) : (s.launch v).EngineTurn (s.sample v) := ⟨rfl, rfl, .inl rfl⟩

/-- On the engine's turn a step is the meaning of the command the running word decodes to (60_exceptions R420). -/
theorem step_eq_exec {s : State} {c : Snapshot} {i : Instr} (h : s.EngineTurn c) (hd : decode c.cmd = .ok i) :
    step s = exec i s := by
  rw [step_of_engineTurn h, engineStep, hd]

/-- Settles O6: a launched word has the engine's turn, and the accept of a word leaves that command running. -/
theorem handedOverCommandRunsNext : Obligations.HandedOverCommandRunsNext := by
  refine ⟨fun s i => ?_, fun s i hidle => ?_⟩
  · rw [State.withFetchWord_encode]
    exact step_eq_exec (s.engineTurn_launch (encode i)) (decode_encode i)
  · rw [exec_of_idle hidle, exec_of_busy (State.accept_seq _ s), State.accept_params]

end Sys2Proof.Machine
end

section
/-! PROOFS. What the registers read, and what a host write of each does (10_state R32 to R58). -/

namespace Sys2Proof.Machine

/-! ### Reads -/

theorem State.readOffset_reg {s : State} (h : s.rst = false) (r : Reg) : s.readOffset r.offset = s.readReg r := by
  rw [State.readOffset, regAt_offset, State.visible_of_not_rst h]

theorem State.readOffset_reserved {off : Nat} (h : 0x40 ≤ off) (s : State) : s.readOffset off = 0 := by
  rw [State.readOffset, regAt_reserved h]

@[simp] theorem State.hostRead_hostData (off : Nat) (s : State) : (s.hostRead off).hostData = s.readOffset off := by
  obtain h | ⟨_, h⟩ := s.hostRead_cases off <;> rw [h]

/-- Only a STATUS read gives buffers back to the host (20_memory R93). -/
theorem State.hostRead_of_ne_status {off : Nat} (h : off ≠ Reg.status.offset) (s : State) :
    s.hostRead off = { s with hostData := s.readOffset off } := if_neg h

theorem State.hostRead_reg {s : State} (h : s.rst = false) (r : Reg) : (s.hostRead r.offset).hostData = s.readReg r := by
  rw [State.hostRead_hostData, State.readOffset_reg h]

/-! ### The packed registers: CTRL, STATUS and ERRCODE -/

/-- The bits of CTRL (10_state R35). -/
theorem State.ctrlWord_getLsbD (s : State) (k : Nat) :
    s.ctrlWord.getLsbD k = ((decide (k = 0) && s.ieDone) || (decide (k = 1) && s.ieErr)) := by
  rw [State.ctrlWord, BitVec.getLsbD_append, BitVec.getLsbD_append]
  match k with
  | 0 | 1 => simp
  | k + 2 => simp

theorem State.busy_toNat (s : State) : s.busy.toNat = if s.seq = .idle then 0 else 1 := by
  unfold State.busy
  cases s.seq <;> simp

/-- STATUS as a number (10_state R37). -/
theorem State.statusWord_toNat (s : State) :
    s.statusWord.toNat = (if s.seq = .idle then 0 else 1) + 2 * s.done.toNat + 4 * s.err.toNat + 8 * s.rej.toNat := by
  rw [← State.busy_toNat]
  unfold State.statusWord
  cases s.busy <;> cases s.done <;> cases s.err <;> cases s.rej <;> rfl

/-- ERRCODE as a number (10_state R41). -/
theorem State.errcodeWord_toNat (s : State) : s.errcodeWord.toNat = 256 * s.errKind.toNat + s.errCode.toNat := by
  have hcode := s.errCode.isLt
  simp only [State.errcodeWord, BitVec.toNat_append]
  rw [← Nat.shiftLeft_add_eq_or_of_lt hcode, Nat.shiftLeft_eq]
  simp [Nat.mul_comm]

/-- LZW_DICT_CAP as a number: the capacity, saturated (10_state R51). -/
theorem Params.lzwDictCapWord_toNat (p : Params) : p.lzwDictCapWord.toNat = min p.lzwDictCap (2 ^ 32 - 1) := by
  rw [Params.lzwDictCapWord, BitVec.toNat_ofNat, Nat.mod_eq_of_lt (by omega)]

/-- Settles O26: outside RST a host read returns the register, and each packed one is the sum of its fields. -/
theorem registerReadValues : Obligations.RegisterReadValues := by
  intro s hrst
  have hread := State.hostRead_reg hrst
  exact ⟨hread .id, hread .version, hread .cmd, hread .errpos, hread .dstLen, hread .chunkSize,
    (congrArg BitVec.toNat (hread .lzwDictCap)).trans s.params.lzwDictCapWord_toNat,
    (congrArg BitVec.toNat (hread .errcode)).trans s.errcodeWord_toNat,
    (congrArg BitVec.toNat (hread .status)).trans s.statusWord_toNat⟩

/-! ### Reset values (10_state R32, R63) and the interrupt line (R53) -/

theorem State.AtReset.ctrlWord {s : State} (h : s.AtReset) : s.ctrlWord = 0 := by
  obtain ⟨hdone, herr⟩ := h.ctrl
  rw [State.ctrlWord, hdone, herr]
  rfl

theorem State.AtReset.statusWord {s : State} (h : s.AtReset) : s.statusWord = 0 := by
  obtain ⟨hseq, hdone, herr, hrej⟩ := h.status
  rw [State.statusWord, State.busy_of_seq_idle hseq, hdone, herr, hrej]
  rfl

theorem State.AtReset.errcodeWord {s : State} (h : s.AtReset) : s.errcodeWord = 0 := by
  obtain ⟨hkind, hcode, _⟩ := h.errcode
  rw [State.errcodeWord, hkind, hcode]
  rfl

theorem State.AtReset.irq {s : State} (h : s.AtReset) : s.irq = false := by
  obtain ⟨hdone, herr⟩ := h.ctrl
  simp [State.irq, hdone, herr]

/-- Settles O17: register by register, from the fields at their reset values. -/
theorem resetRegisterTable : Obligations.ResetRegisterTable := by
  refine ⟨State.atReset_reset, fun s h => ?_⟩
  obtain ⟨_, _, hpos⟩ := h.errcode
  obtain ⟨hsrc, hsrcLen⟩ := h.src
  obtain ⟨hdst, hdstCap⟩ := h.dst
  obtain ⟨hoffset, hlength⟩ := h.bounds
  exact ⟨rfl, rfl, h.ctrlWord, h.statusWord, h.cmd, h.errcodeWord, hpos, h.dstLen, hsrc, hsrcLen, hdst, hdstCap, hoffset,
    hlength, rfl, s.params.lzwDictCapWord_toNat, h.irq⟩

/-- Settles O27: STATUS has DONE and ERR in bits 1 and 2, CTRL their enables in bits 0 and 1. -/
theorem interruptLine : Obligations.InterruptLine := by
  refine ⟨fun s => ?_, State.atReset_reset.irq⟩
  simp only [State.irq, State.statusWord_getLsbD, State.ctrlWord_getLsbD]
  simp

/-! ### CMD (10_state R39, R55, R57) -/

/-- A CMD write to an idle block is command accept (10_state R55). -/
theorem State.hostWrite_cmd_of_idle {s : State} (hidle : s.seq = .idle) (hrst : s.rst = false) (v : Word) :
    s.hostWrite 0x10 v = s.accept v := by
  obtain ⟨_, h⟩ | ⟨⟨c, hc⟩, _⟩ := s.writeCmd_cases v
  · exact (State.hostWrite_reg hrst .cmd v).trans h
  · exact absurd (hidle.symm.trans hc) nofun

/-- Settles O21: the CMD write of a busy block is a rejection. -/
theorem commandReject : Obligations.CommandReject := by
  intro s c v hc hrst
  obtain ⟨hidle, _⟩ | ⟨_, h⟩ := s.writeCmd_cases v
  · exact absurd (hc.symm.trans hidle) nofun
  · exact (State.hostWrite_reg hrst .cmd v).trans h

/-- A CTRL write without the soft-reset bit stores the two enables (10_state R35). -/
theorem State.writeCtrl_of_not_soft {v : Word} (h : v.getLsbD 31 = false) (s : State) :
    s.writeCtrl v = { s with ieDone := v.getLsbD 0, ieErr := v.getLsbD 1 } := if_neg (ne_true_of_eq_false h)

/-- Of the register writes only a soft reset ends or changes a running command (10_state R55). -/
theorem State.writeReg_seq_of_busy {s : State} {c : Snapshot} (hc : s.seq = .busy c) {r : Reg} {v : Word}
    (hsoft : r = .ctrl → v.getLsbD 31 = false) : (s.writeReg r v).seq = .busy c := by
  cases r with
  | ctrl =>
    rw [State.writeReg, State.writeCtrl_of_not_soft (hsoft rfl)]
    exact hc
  | cmd => simp [State.writeReg, State.writeCmd, hc]
  | status | srcAddr | srcLen | dstAddr | dstCap | maxOffset | maxLength => exact hc
  | id | version | errcode | errpos | dstLen | chunkSize | lzwDictCap => exact hc

/-- Settles O20: an idle block accepts, and no write but a soft reset reaches the snapshot of a busy one. -/
theorem commandAccept : Obligations.CommandAccept := by
  refine ⟨fun s v hidle hrst => ?_, fun s c off w hc hsoft => ?_⟩
  · exact ⟨_, _, _, _, State.hostWrite_cmd_of_idle hidle hrst v⟩
  · obtain h | ⟨_, r, rfl, h⟩ := s.hostWrite_cases off w <;> rw [h]
    · exact hc
    · refine State.writeReg_seq_of_busy hc fun hr => ?_
      subst hr
      simpa [Reg.offset] using hsoft

/-! ### STATUS (10_state R38) -/

theorem State.writeStatus_busy (v : Word) (s : State) : (s.writeStatus v).busy = s.busy := rfl

/-- Bits 1 to 3 of STATUS are write-1-to-clear, and the write leaves every other bit alone (10_state R38). -/
theorem State.statusWord_writeStatus_getLsbD (v : Word) (s : State) (k : Nat) :
    (s.writeStatus v).statusWord.getLsbD k =
      (s.statusWord.getLsbD k && !(decide (1 ≤ k ∧ k ≤ 3) && v.getLsbD k)) := by
  simp only [State.statusWord_getLsbD, State.writeStatus_busy, State.writeStatus_done, State.writeStatus_err,
    State.writeStatus_rej]
  match k with
  | 0 | 1 | 2 | 3 => simp
  | k + 4 => simp

/-- Settles O22: a STATUS write is bit by bit write-1-to-clear, and a read hands over a value and buffers only. -/
theorem statusWriteOneToClear : Obligations.StatusWriteOneToClear := by
  refine ⟨fun s v hrst => ?_, fun s => ?_⟩
  · have hw : s.hostWrite 0x0C v = s.writeStatus v := State.hostWrite_reg hrst .status v
    rw [hw]
    exact ⟨⟨_, _, _, rfl⟩, s.statusWord_writeStatus_getLsbD v⟩
  · obtain h | ⟨_, h⟩ := s.hostRead_cases 0x0C
    · exact ⟨_, s.handedOver, h⟩
    · exact ⟨_, [], h⟩

/-! ### CTRL (10_state R35) -/

/-- CTRL keeps the low two bits of a word written with bit 31 = 0 (10_state R35). -/
theorem State.ctrlWord_of_written (v : Word) (s : State) :
    { s with ieDone := v.getLsbD 0, ieErr := v.getLsbD 1 }.ctrlWord = v &&& 3 := by
  apply BitVec.eq_of_getLsbD_eq
  intro k _
  rw [State.ctrlWord_getLsbD, BitVec.getLsbD_and]
  match k with
  | 0 | 1 => simp
  | k + 2 =>
    have hmask : (3#32).getLsbD (k + 2) = false := by
      rw [BitVec.getLsbD_ofNat]
      simp [Nat.testBit_succ]
    simp [hmask]

/-- Settles O23: without the soft-reset bit the write stores the two enables. -/
theorem controlWrite : Obligations.ControlWrite := by
  intro s v hrst hsoft
  have hw : s.hostWrite 0x08 v = { s with ieDone := v.getLsbD 0, ieErr := v.getLsbD 1 } :=
    (State.hostWrite_reg hrst .ctrl v).trans (State.writeCtrl_of_not_soft hsoft s)
  rw [hw]
  exact ⟨rfl, s.ctrlWord_of_written v⟩

/-! ### Configuration, reserved and read-only registers (10_state R44 to R52) -/

/-- A register whose write gives `t`, where it holds the written word: the host's write gives `t`, and its next read that
word. -/
theorem State.hostWrite_stores {s t : State} {r : Reg} {v : Word} (hrst : s.rst = false) (ht : t.rst = false)
    (hwrite : s.writeReg r v = t) (hread : t.readReg r = v) :
    s.hostWrite r.offset v = t ∧ (s.hostWrite r.offset v).readOffset r.offset = v := by
  have hw : s.hostWrite r.offset v = t := (State.hostWrite_reg hrst r v).trans hwrite
  exact ⟨hw, by rw [hw, State.readOffset_reg ht, hread]⟩

/-- Settles O24: each of the six registers stores the word and reads it back. -/
theorem configurationRegisterWrites : Obligations.ConfigurationRegisterWrites := by
  intro s v hrst
  have stores (r : Reg) (t : State) := State.hostWrite_stores (r := r) (t := t) (v := v) hrst
  obtain ⟨hsrcAddr, rsrcAddr⟩ := stores .srcAddr { s with srcAddr := v } hrst rfl rfl
  obtain ⟨hsrcLen, rsrcLen⟩ := stores .srcLen { s with srcLen := v } hrst rfl rfl
  obtain ⟨hdstAddr, rdstAddr⟩ := stores .dstAddr { s with dstAddr := v } hrst rfl rfl
  obtain ⟨hdstCap, rdstCap⟩ := stores .dstCap { s with dstCap := v } hrst rfl rfl
  obtain ⟨hmaxOffset, rmaxOffset⟩ := stores .maxOffset { s with maxOffset := v } hrst rfl rfl
  obtain ⟨hmaxLength, rmaxLength⟩ := stores .maxLength { s with maxLength := v } hrst rfl rfl
  exact ⟨hsrcAddr, rsrcAddr, hsrcLen, rsrcLen, hdstAddr, rdstAddr, hdstCap, rdstCap, hmaxOffset, rmaxOffset, hmaxLength,
    rmaxLength⟩

/-- Settles O25: a reserved offset holds no register, and a read-only register's write is the identity. -/
theorem reservedAndReadOnlyWrites : Obligations.ReservedAndReadOnlyWrites := by
  refine ⟨fun s off v hlow _ => ?_, fun s off v hoff => ?_⟩
  · have hne : off ≠ Reg.status.offset := by simp only [Reg.offset]; omega
    refine ⟨?_, State.hostWrite_reserved hlow v s⟩
    rw [State.hostRead_of_ne_status hne, State.readOffset_reserved hlow]
  · obtain h | ⟨_, r, rfl, h⟩ := s.hostWrite_cases off v
    · exact h
    · rw [h]
      cases r with
      | id | version | errcode | errpos | dstLen | chunkSize | lzwDictCap => rfl
      | ctrl | status | cmd | srcAddr | srcLen | dstAddr | dstCap | maxOffset | maxLength =>
        exact absurd hoff (by decide)

end Sys2Proof.Machine
end

section
/-! PROOFS. Register accesses (20_memory R87, R89, 30_encoding R145). -/

namespace Sys2Proof.Machine

/-- An access of the block that is not 32 bits wide and aligned is refused (20_memory R87). -/
theorem registerOffset_refused (p : Params) {off bytes : Nat} (h : off < 256) (hbad : bytes ≠ 4 ∨ off % 4 ≠ 0) :
    registerOffset p (p.bzbBase + off) bytes = .error .badRegisterAccess := by
  have hoff : p.bzbBase + off - p.bzbBase = off := by omega
  rw [registerOffset, hoff, if_neg (by omega), if_pos hbad]

/-- Settles O29: the offset of the access decides, before the register does. -/
theorem registerAccessShape : Obligations.RegisterAccessShape := by
  refine fun s off bytes v hoff => ⟨?_, fun hbad => ?_⟩
  · rintro rfl haligned
    simp only [hostAction, registerOffset_ok s.params hoff haligned, and_self]
  · simp only [hostAction, registerOffset_refused s.params hoff hbad, and_self]

/-- No register reads differently after a host read (20_memory R89). -/
theorem State.readOffset_hostRead (off o : Nat) (s : State) : (s.hostRead off).readOffset o = s.readOffset o := by
  obtain h | ⟨_, h⟩ := s.hostRead_cases off <;> rw [h] <;> exact s.readOffset_of_hostFields _ _ o

/-- A POLL whose STATUS read meets the mask is that read (30_encoding R145). -/
theorem hostAction_poll_met {s : State} {mask : Word} (h : s.readOffset Reg.status.offset &&& mask ≠ 0) :
    hostAction (.poll mask) s = .next (s.hostRead Reg.status.offset) := by
  rw [← State.hostRead_hostData] at h
  exact if_neg h

/-- A POLL whose STATUS read misses the mask is that read, and stays the host's next action (30_encoding R145). -/
theorem hostAction_poll_missed {s : State} {mask : Word} (h : s.readOffset Reg.status.offset &&& mask = 0) :
    hostAction (.poll mask) s =
      .next { s.hostRead Reg.status.offset with host := .poll mask :: (s.hostRead Reg.status.offset).host } := by
  rw [← State.hostRead_hostData] at h
  exact if_pos h

theorem State.hostRead_host (off : Nat) (s : State) : (s.hostRead off).host = s.host := by
  obtain h | ⟨_, h⟩ := s.hostRead_cases off <;> rw [h]

/-- Settles O28: a read hands over a value and buffers only, and a POLL is one read of STATUS. -/
theorem registerReadsHaveNoEffect : Obligations.RegisterReadsHaveNoEffect := by
  refine ⟨fun s off => ⟨?_, fun o => s.readOffset_hostRead off o⟩, fun s mask => ⟨hostAction_poll_met, fun h => ?_⟩⟩
  · obtain h | ⟨_, h⟩ := s.hostRead_cases off
    · exact ⟨s.handedOver, h⟩
    · exact ⟨[], h⟩
  · exact ⟨_, hostAction_poll_missed h, congrArg _ (s.hostRead_host _), rfl⟩

end Sys2Proof.Machine
end

section
/-! PROOFS. Words of data memory and the host's loads and stores (20_memory R80, R83, R93,
70_reset_and_hazards R511). -/

namespace Sys2Proof.Machine

/-! ### A host access by its address and the open buffers -/

theorem hostStore_pastTop {a : Nat} (h : 2 ^ 32 < a + 4) (v : Word) (s : State) :
    hostStore a v s = .fault .noSuchAddress := if_pos h

theorem hostLoad_pastTop {a : Nat} (h : 2 ^ 32 < a + 4) (s : State) : hostLoad a s = .fault .noSuchAddress := if_pos h

section
variable {s : State} {a : Nat} (htop : a + 4 ≤ 2 ^ 32) (hbacked : wordBacked s.params a = true)
include htop hbacked

/-- A store to backed memory goes through unless one of its four bytes is in an open buffer (70_reset_and_hazards
R511). -/
theorem hostStore_backed (v : Word) :
    hostStore a v s =
      if (List.range 4).any fun k => s.bufferOpen (a + k) then .refused .bufferInUse
      else .next { s with mem := s.mem.write a (wordBytes v) } := by
  rw [hostStore, if_neg (Nat.not_lt.2 htop), if_neg (by simp [hbacked])]

theorem hostStore_closed (hclosed : ∀ k, k < 4 → s.bufferOpen (a + k) = false) (v : Word) :
    hostStore a v s = .next { s with mem := s.mem.write a (wordBytes v) } := by
  rw [hostStore_backed htop hbacked, if_neg]
  simpa using hclosed

theorem hostStore_open {k : Nat} (hk : k < 4) (hopen : s.bufferOpen (a + k) = true) (v : Word) :
    hostStore a v s = .refused .bufferInUse := by
  rw [hostStore_backed htop hbacked, if_pos]
  exact List.any_eq_true.2 ⟨k, List.mem_range.2 hk, hopen⟩

theorem hostLoad_backed :
    hostLoad a s =
      .next { s with
        hostData := wordOfBytes (loadedByte s a 0) (loadedByte s a 1) (loadedByte s a 2) (loadedByte s a 3)
        free := s.free + 4 } := by
  rw [hostLoad, if_neg (Nat.not_lt.2 htop), if_neg (by simp [hbacked])]

end

/-! ### Words -/

/-- The word just stored reads back (20_memory R83). -/
theorem Memory.readWord_write_wordBytes (m : Memory) (a : Nat) (v : Word) :
    (m.write a (wordBytes v)).readWord a = v := by
  have hword : (m.writeWords a [v]).words a 1 = [v] := m.words_writeWords a [v]
  rw [Memory.words_succ] at hword
  exact (List.cons.inj hword).1

/-- Settles O30: words are their four bytes, a store writes those of its word, and `MEM` is a store for each word. -/
theorem wordsAreLittleEndian : Obligations.WordsAreLittleEndian := by
  refine ⟨fun m a => wordOfBytes_toNat _ _ _ _, fun s addr v htop hbacked hclosed => ?_,
    fun s addr v h => ⟨hostStore_pastTop h v s, hostLoad_pastTop h s⟩, opsMem_getElem?⟩
  exact ⟨_, hostStore_closed htop hbacked hclosed v, s.mem.readWord_write_wordBytes addr v,
    s.mem.read_write_of_outside addr (wordBytes v)⟩

end Sys2Proof.Machine
end

section
/-! PROOFS. What a command's completion leaves alone, and what its result depends on (20_memory R90, R91). -/

namespace Sys2Proof.Machine

/-- The completion step changes data memory, the two result flags, the error registers, DST_LEN, the sequencer and the
model's counter of free values (10_state R56, 60_exceptions R422). -/
theorem State.complete_frame (bounded : Bool) (op : Operation) (c : Snapshot) (s : State) :
    ∃ m f d e kind code pos len, s.complete bounded op c =
      { s with mem := m, free := f, done := d, err := e, errKind := kind, errCode := code, errPos := pos, dstLen := len
               seq := .idle } := by
  obtain ⟨e, _, h⟩ | ⟨_, e, _, h⟩ | ⟨_, out, _, _, h⟩ := s.complete_cases bounded op c <;> rw [h] <;>
    exact ⟨_, _, _, _, _, _, _, _, rfl⟩

/-- Settles O14: the registers by the frame of the completion step, the bytes by what it writes. -/
theorem commandFrame : Obligations.CommandFrame := by
  intro i s t c hc ht
  rw [exec_of_busy hc] at ht
  cases ht
  have hmem {a : Nat} := State.read_complete_of_outside (i := i) (s := s) (c := c) (x := a) (operationOf i s.params)
  obtain ⟨_, _, _, _, _, _, _, _, h⟩ := s.complete_frame (boundedBit i) (operationOf i s.params) c
  rw [h] at hmem ⊢
  exact ⟨rfl, rfl, rfl, rfl, rfl, rfl, rfl, rfl, rfl, rfl, rfl, rfl, rfl, rfl, rfl, fun a ha => hmem (.inl ha),
    fun a ha => hmem (.inr ha)⟩

/-! ### What the result depends on -/

/-- Two states that agree on the bytes of SRC give the command the same input (30_encoding R128). -/
theorem State.input_congr {s s' : State} {c : Snapshot} (h : ∀ a, c.inSrc a = true → s.mem.read a = s'.mem.read a) :
    s.input c = s'.input c :=
  Memory.words_congr fun a hlow hhigh => h a ((c.inSrc_iff a).2 ⟨hlow, hhigh⟩)

/-- The same snapshot, parameters and input: the command ends in one error in both states, or in one output. -/
theorem State.complete_agree {i : Instr} {s s' : State} {c : Snapshot} (op : Operation) (hparams : s.params = s'.params)
    (hinput : s.input c = s'.input c) :
    (∃ (e : OpError) (u u' : State), u.done = s.done ∧ u'.done = s'.done ∧
      s.complete (boundedBit i) op c = u.errorEntry e ∧ s'.complete (boundedBit i) op c = u'.errorEntry e) ∨
    ∃ out, out.length ≤ c.dstCap.toNat ∧ s.complete (boundedBit i) op c = s.succeed c out ∧
      s'.complete (boundedBit i) op c = s'.succeed c out := by
  have hcases := s.complete_cases (boundedBit i) op c
  rw [hparams, hinput, preCheck_eq_none_iff] at hcases
  obtain ⟨e, hp, h⟩ | ⟨ha, e, ho | ⟨out, ho, hl, rfl⟩, h⟩ | ⟨ha, out, ho, hl, h⟩ := hcases
  · exact .inl ⟨e, s, s', rfl, rfl, h, State.complete_preCheck hp⟩
  · exact .inl ⟨e, s.scrambleDst c, s'.scrambleDst c, rfl, rfl, h, State.complete_error ha ho⟩
  · exact .inl ⟨_, s.scrambleDst c, s'.scrambleDst c, rfl, rfl, h, State.complete_overflow ha ho hl⟩
  · exact .inr ⟨out, hl, h, State.complete_ok ha ho hl⟩

/-- DST_LEN words at DST are the output of a success (10_state R56). -/
theorem State.output_succeed {c : Snapshot} {out : List Word} (s : State) (hl : out.length ≤ c.dstCap.toNat) :
    (s.succeed c out).mem.words c.dstAddr.toNat (s.succeed c out).dstLen.toNat = out :=
  State.input_succeed (c' := { c with srcAddr := c.dstAddr, srcLen := (s.succeed c out).dstLen }) hl rfl rfl

/-- Settles O16: both runs end alike, and accept left what a completion does not write alike in both. -/
theorem resultDependsOnSrcOnly : Obligations.ResultDependsOnSrcOnly := by
  intro i s s' t t' c hinv hinv' hc hc' hparams hsrc ht ht'
  obtain ⟨hdone, herr, ⟨hkind, hcode, hpos, _⟩, _⟩ := hinv.running c hc
  obtain ⟨hdone', herr', ⟨hkind', hcode', hpos', _⟩, _⟩ := hinv'.running c hc'
  rw [exec_of_busy hc] at ht
  rw [exec_of_busy hc', ← hparams] at ht'
  cases ht
  cases ht'
  obtain ⟨e, u, u', hu, hu', h, h'⟩ | ⟨out, hl, h, h'⟩ :=
    State.complete_agree (i := i) (operationOf i s.params) hparams (State.input_congr hsrc) <;> rw [h, h']
  · exact ⟨by simp [hu, hu', hdone, hdone'], rfl, rfl, rfl, rfl, rfl, rfl⟩
  · exact ⟨rfl, herr.trans herr'.symm, hkind.trans hkind'.symm, hcode.trans hcode'.symm, hpos.trans hpos'.symm, rfl,
      (s.output_succeed hl).trans (s'.output_succeed hl).symm⟩

end Sys2Proof.Machine
end

section
/-! PROOFS. Which buffers the engine holds, and how the host takes them back (20_memory R93, 70_reset_and_hazards R511;
log 6, log 7, log 23). -/

namespace Sys2Proof.Machine

/-- Every byte of a handed-over command's two ranges is in an open buffer. -/
theorem State.bufferOpen_of_mem {s : State} {c : Snapshot} {a : Nat} (hc : c ∈ s.handedOver)
    (ha : c.inSrc a = true ∨ c.inDst a = true) : s.bufferOpen a = true :=
  List.any_eq_true.2 ⟨c, hc, Bool.or_eq_true_iff.2 ha.symm⟩

theorem loadedByte_of_not_dstOpen {s : State} {a k : Nat} (h : s.dstOpen (a + k) = false) :
    loadedByte s a k = s.mem.read (a + k) := if_neg (ne_true_of_eq_false h)

/-- A load of a word with no byte in an open DST range returns the word (20_memory R93). -/
theorem hostLoad_of_not_dstOpen {s : State} {a : Nat} (htop : a + 4 ≤ 2 ^ 32) (hbacked : wordBacked s.params a = true)
    (hclosed : ∀ k, k < 4 → s.dstOpen (a + k) = false) :
    hostLoad a s = .next { s with hostData := s.mem.readWord a, free := s.free + 4 } := by
  have hbyte (k : Nat) (hk : k < 4) := loadedByte_of_not_dstOpen (hclosed k hk)
  rw [hostLoad_backed htop hbacked, hbyte 0 (by decide), hbyte 1 (by decide), hbyte 2 (by decide), hbyte 3 (by decide)]
  rfl

theorem State.handedOver_blockReset (s : State) : s.blockReset.handedOver = [] := by
  obtain ⟨_, h⟩ | ⟨c, _, h⟩ := s.blockReset_cases <;> rw [h] <;> rfl

/-- A CTRL write with bit 31 = 1 resets the block (10_state R35, 70_reset_and_hazards R503). -/
theorem State.hostWrite_softReset {s : State} (hrst : s.rst = false) {v : Word} (hsoft : v.getLsbD 31 = true) :
    s.hostWrite 0x08 v = s.blockReset :=
  (State.hostWrite_reg hrst .ctrl v).trans (if_pos hsoft)

theorem State.handedOver_acquire {s : State} (hrst : s.rst = false) :
    s.acquire.handedOver = if s.busy then s.handedOver else [] := by
  rw [State.acquire, State.visible_of_not_rst hrst]
  exact apply_ite State.handedOver _ _ _

/-- A STATUS read gives the buffers back exactly when it returns BUSY = 0 (20_memory R93). -/
theorem State.handedOver_hostRead_status {s : State} (hrst : s.rst = false) :
    (s.hostRead Reg.status.offset).handedOver = if s.busy then s.handedOver else [] := by
  rw [State.hostRead, if_pos rfl]
  exact State.handedOver_acquire hrst

theorem State.handedOver_complete (bounded : Bool) (op : Operation) (c : Snapshot) (s : State) :
    (s.complete bounded op c).handedOver = s.handedOver := by
  obtain ⟨_, _, _, _, _, _, _, _, h⟩ := s.complete_frame bounded op c
  rw [h]

/-- Settles O31: the host's accesses by the buffers that are open, and each way a command's buffers change hands. -/
theorem buffersBelongToTheEngine : Obligations.BuffersBelongToTheEngine := by
  refine ⟨fun s addr v c k htop hbacked hc hk hin => ?store, fun s addr htop hbacked hclosed => ?load,
    fun s v hidle hrst => ?accept, fun i s t c hc ht => ?command,
    fun s => ⟨_, rfl, s.handedOver_blockReset⟩, fun s hrst =>
      ⟨fun c hc => ?busy, fun hidle => ?idle, fun off hoff => ?other, fun v hsoft => ?soft⟩⟩
  case store => exact hostStore_open htop hbacked hk (State.bufferOpen_of_mem hc hin) v
  case load => exact ⟨_, hostLoad_of_not_dstOpen htop hbacked hclosed, rfl, rfl⟩
  case accept => rw [State.hostWrite_cmd_of_idle hidle hrst, State.accept_handedOver]
  case command =>
    rw [exec_of_busy hc] at ht
    cases ht
    exact s.handedOver_complete _ _ c
  case busy => exact (State.handedOver_hostRead_status hrst).trans (if_pos (State.busy_of_seq_busy hc))
  case idle =>
    exact (State.handedOver_hostRead_status hrst).trans (if_neg (ne_true_of_eq_false (State.busy_of_seq_idle hidle)))
  case other => rw [State.hostRead_of_ne_status hoff]
  case soft => rw [State.hostWrite_softReset hrst hsoft, State.handedOver_blockReset]

end Sys2Proof.Machine
end

section
/-! PROOFS. Command words: `DecodeCmd` field by field, and the encoder as its only inverse (30_encoding R120 to R125). -/

namespace Sys2Proof.Machine

/-! ### The fields of a command word -/

/-- A word is its four fields, highest first (30_encoding R120). -/
theorem word_eq_fields (v : Word) : v = ((reservedHigh v ++ selField v) ++ reservedLow v) ++ dirField v := by
  -- At each bit the concatenation reads the field that holds it.
  apply BitVec.eq_of_getLsbD_eq
  intro k hk
  simp only [reservedHigh, selField, reservedLow, dirField, BitVec.getLsbD_append, BitVec.getLsbD_extractLsb']
  grind

theorem selOf_of_codecOfSel {sel : BitVec 4} {c : Codec} (h : codecOfSel sel = some c) : selOf c = sel := by
  have hall : ∀ sel : BitVec 4, ∀ c ∈ codecOfSel sel, selOf c = sel := by decide
  exact hall sel c h

theorem dirOf_directionOfDir (dir : BitVec 1) : dirOf (directionOfDir dir) = dir := by
  revert dir
  decide

theorem encode_opOf (c : Codec) (d : Direction) :
    encode (opOf c d) = (((0 : BitVec 24) ++ selOf c) ++ (0 : BitVec 3)) ++ dirOf d := by
  cases c <;> cases d <;> rfl

/-- SEL selects no codec exactly from 4 on (30_encoding R121). -/
theorem codecOfSel_selField_eq_none_iff (v : Word) : codecOfSel (selField v) = none ↔ 4 ≤ v.toNat / 16 % 16 := by
  rw [codecOfSel_eq, List.getElem?_eq_none_iff, selField_toNat]
  rfl

/-- `OPS[SEL][DIR]` as a table of rows (30_encoding R123). -/
def opcodeMap : List (List Instr) :=
  [[.lz77Enc, .lz77Dec], [.lzwEnc, .lzwDec], [.hufEnc, .hufDec], [.defEnc, .defDec]]

theorem opcodeMap_eq (sel : BitVec 4) (dir : BitVec 1) :
    (opcodeMap[sel.toNat]?.bind fun row => row[dir.toNat]?) =
      (codecOfSel sel).map fun c => opOf c (directionOfDir dir) := by
  revert sel dir
  decide

/-! ### DecodeCmd (30_encoding R124) -/

theorem decode_of_no_codec {v : Word} (h : codecOfSel (selField v) = none) : decode v = .error .badSelector := by
  rw [decode, h]

theorem decode_of_codec {v : Word} {c : Codec} (h : codecOfSel (selField v) = some c) :
    decode v = if reservedHigh v ≠ 0 ∨ reservedLow v ≠ 0 then .error .reservedBits
      else .ok (opOf c (directionOfDir (dirField v))) := by
  rw [decode, h]

theorem exists_codecOfSel_selField {v : Word} (h : v.toNat / 16 % 16 < 4) : ∃ c, codecOfSel (selField v) = some c :=
  Option.ne_none_iff_exists'.1 fun hn => absurd ((codecOfSel_selField_eq_none_iff v).1 hn) (Nat.not_le.2 h)

/-- What a word that decodes is made of (30_encoding R124). -/
theorem decode_eq_ok_iff {v : Word} {i : Instr} :
    decode v = .ok i ↔ ∃ c, codecOfSel (selField v) = some c ∧ reservedHigh v = 0 ∧ reservedLow v = 0 ∧
      opOf c (directionOfDir (dirField v)) = i := by
  cases h : codecOfSel (selField v) with
  | none => simp [decode_of_no_codec h]
  | some c => simp [decode_of_codec h, ite_eq_iff, and_assoc]

/-- No bit is dropped: a word that decodes is put together again by the encoder (30_encoding R123). -/
theorem eq_encode_of_decode {v : Word} {i : Instr} (h : decode v = .ok i) : v = encode i := by
  obtain ⟨c, hc, hhigh, hlow, rfl⟩ := decode_eq_ok_iff.1 h
  rw [encode_opOf, selOf_of_codecOfSel hc, dirOf_directionOfDir, ← hhigh, ← hlow]
  exact word_eq_fields v

theorem decode_eq_ok_iff_eq_encode (v : Word) (i : Instr) : decode v = .ok i ↔ v = encode i :=
  ⟨eq_encode_of_decode, fun h => h ▸ decode_encode i⟩

/-! ### The obligations -/

/-- Settles O3: a word that decodes is the concatenation of its fields, which the encoder gives back; the table of eight
lists the encodings. -/
theorem commandSelectedByWholeWord : Obligations.CommandSelectedByWholeWord := by
  refine ⟨fun v i => ?_, decode_eq_ok_iff_eq_encode⟩
  rw [decode_eq_ok_iff_eq_encode]
  cases i <;> simp [encode, codecOf, directionOf, selOf, dirOf]

/-- Settles O2: the selector first, then the reserved bits, then the opcode map. -/
theorem decodeCmdFunction : Obligations.DecodeCmdFunction := by
  refine fun v => ⟨fun hsel => ?selector, fun hsel hres => ?reserved, fun hsel hhigh hlow => ?command⟩
  case selector => exact decode_of_no_codec ((codecOfSel_selField_eq_none_iff v).2 hsel)
  case reserved =>
    obtain ⟨c, hc⟩ := exists_codecOfSel_selField hsel
    rw [decode_of_codec hc, if_pos]
    rwa [ne_eq, ne_eq, reservedHigh_eq_zero_iff, reservedLow_eq_zero_iff]
  case command =>
    obtain ⟨c, hc⟩ := exists_codecOfSel_selField hsel
    refine ⟨_, decode_eq_ok_iff.2 ⟨c, hc, (reservedHigh_eq_zero_iff v).2 hhigh, (reservedLow_eq_zero_iff v).2 hlow, rfl⟩, ?_⟩
    have hmap := opcodeMap_eq (selField v) (dirField v)
    rwa [hc, selField_toNat, dirField_toNat] at hmap

/-- Settles O1: each of the eight words is the encoding of its command. -/
theorem commandWordsDecode : Obligations.CommandWordsDecode :=
  ⟨decode_encode .lz77Enc, decode_encode .lz77Dec, decode_encode .lzwEnc, decode_encode .lzwDec,
    decode_encode .hufEnc, decode_encode .hufDec, decode_encode .defEnc, decode_encode .defDec⟩

end Sys2Proof.Machine
end

section
/-! PROOFS. The artifact of a Huffman encoding, word by word (30_encoding R133 to R138, 40_huffman R210 to R214). -/

namespace Sys2Proof.Machine

/-! ### The table of an encoding -/

theorem codeOf_tableOf_of_mem {s : List Word} {e : Word × List Bool} (he : e ∈ tableOf s) :
    codeOf (tableOf s) e.1 = e.2 := by
  have hnodup : ((tableOf s).map Prod.fst).Nodup := tableOf_symbols s ▸ nodup_eraseDups s
  exact congrArg Prod.snd (List.inj_on_of_nodup_map hnodup (codeOf_mem (List.mem_map_of_mem he)) he rfl)

theorem tableOf_length (s : List Word) : (tableOf s).length = s.eraseDups.length := by
  rw [← tableOf_symbols, List.length_map]

/-- The artifact's words of entry `e` are those of the table's entry `e` (30_encoding R134). -/
theorem hufEncode_entry {s w : List Word} (h : hufEncode s = .ok w) {e : Nat} (he : e < (tableOf s).length) :
    tableSymbol w e = (tableOf s)[e].1 ∧ tableLen w e = (tableOf s)[e].2.length := by
  obtain ⟨hshape, _, hcount, htable, _, _⟩ := hufEncode_artifact h
  have hraw := tableIn_getElem? hshape (hcount ▸ he)
  rw [htable, List.getElem?_map, List.getElem?_eq_getElem he] at hraw
  have hentry := Option.some.inj hraw
  exact ⟨(congrArg RawEntry.symbol hentry).symm, (congrArg RawEntry.len hentry).symm⟩

/-- The symbols stand in the artifact in first-seen order (40_huffman R210). -/
theorem hufEncode_tableSymbol {s w : List Word} (h : hufEncode s = .ok w) {e : Nat} {x : Word}
    (hx : s.eraseDups[e]? = some x) : tableSymbol w e = x := by
  rw [← tableOf_symbols, List.getElem?_map, Option.map_eq_some_iff] at hx
  obtain ⟨p, hp, rfl⟩ := hx
  obtain ⟨he, rfl⟩ := List.getElem?_eq_some_iff.1 hp
  exact (hufEncode_entry h he).1

/-! ### NBITS -/

/-- A sum over a list, gathered by its distinct members. -/
theorem sum_map_eq_sum_count (s : List Word) (f : Word → Nat) :
    (s.map f).sum = (s.eraseDups.map fun x => s.count x * f x).sum := by
  have hset : s.eraseDups.toFinset = s.toFinset := by
    ext x
    simp
  rw [Finset.sum_list_map_count, ← hset, List.sum_toFinset _ (nodup_eraseDups s)]
  rfl

/-- The bitstring holds each symbol's code once for each time it occurs (40_huffman R214). -/
theorem bitsOf_length_eq_sum (s : List Word) :
    (bitsOf s).length = ((tableOf s).map fun e => s.count e.1 * e.2.length).sum := by
  calc (bitsOf s).length
      = (s.map fun x => (codeOf (tableOf s) x).length).sum := List.length_flatMap
    _ = (s.eraseDups.map fun x => s.count x * (codeOf (tableOf s) x).length).sum := sum_map_eq_sum_count s _
    _ = ((tableOf s).map fun e => s.count e.1 * (codeOf (tableOf s) e.1).length).sum := by
      rw [← tableOf_symbols, List.map_map]
      rfl
    _ = ((tableOf s).map fun e => s.count e.1 * e.2.length).sum := by
      rw [List.map_congr_left fun e he => by rw [codeOf_tableOf_of_mem he]]

theorem hufEncode_nbits {s w : List Word} (h : hufEncode s = .ok w) :
    (w.getD 0 0).toNat =
      ((List.range s.eraseDups.length).map fun e => s.count (tableSymbol w e) * tableLen w e).sum := by
  obtain ⟨_, hbits, _, _, _, _⟩ := hufEncode_artifact h
  have hentries : ((tableOf s).map fun e => s.count e.1 * e.2.length) =
      (List.range s.eraseDups.length).map fun e => s.count (tableSymbol w e) * tableLen w e := by
    apply List.ext_getElem
    · simp [tableOf_length]
    · intro e he _
      obtain ⟨hsym, hlen⟩ := hufEncode_entry h (by simpa using he)
      simp [hsym, hlen]
  rw [hbits, bitsOf_length_eq_sum, hentries]

/-- Settles O52: the artifact's words are those of the table of the input, which passes validation, and of its codes in
order. -/
theorem hufArtifact_of_hufEncode : Obligations.HufArtifact := by
  intro s w h
  obtain ⟨hshape, _, hcount, _, _, _⟩ := hufEncode_artifact h
  rw [tableOf_length] at hcount
  exact ⟨hshape, hcount, fun e x hx => hufEncode_tableSymbol h hx,
    fun e he => hufEncode_table_valid h e (hcount ▸ he), hufEncode_decodesTo h, hufEncode_nbits h⟩

end Sys2Proof.Machine
end


section
/-! PROOFS. The Huffman round trip, and HUF_ENC and HUF_DEC on the machine (40_huffman R215, R219, R220). -/

namespace Sys2Proof.Machine

/-- Settles O49: the table of an encoding is valid and its bitstring is the codes of the input, so the decode loop gives the
input back. -/
theorem hufRoundTrip : Obligations.HufRoundTrip := fun _ _ h => hufDecode_hufEncode h

/-! ### The commands -/

theorem hufEncode_length {s w : List Word} (h : hufEncode s = .ok w) :
    w.length = 2 + 4 * s.eraseDups.length + ceilDiv (bitsOf s).length 32 := by
  obtain ⟨⟨_, hlen⟩, hbits, hcount, _, _, _⟩ := hufEncode_artifact h
  rw [hlen, hbits, hcount, tableOf_length]

/-- An artifact of codes of at most 64 bits has at most four words a table entry and two a symbol
(70_reset_and_hazards R507). -/
theorem hufEncode_length_le {s w : List Word} (h : hufEncode s = .ok w) :
    w.length ≤ 2 + 4 * s.length + 2 * s.length := by
  have hbits := bitsOf_length_le ((hufEncode_eq_ok_iff s w).1 h).1
  have hwords := ceilDiv_le (bitsOf s).length 32 (by decide)
  have hdups := length_eraseDups_le s
  rw [hufEncode_length h]
  omega

/-- Settles O47: 64 bits a symbol fit NBITS, and the artifact then fits DST_CAP. -/
theorem hufEncCompletes : Obligations.HufEncCompletes := by
  intro s c hc hadm hbits hcap
  have henc := hufEncode_of_length (s := s.input c) (by rwa [State.input_length])
  have hfits := hufEncode_length_le henc
  rw [State.input_length] at hfits
  obtain ⟨t, hexec, hdone⟩ := exec_completedWith hc hadm henc (hfits.trans hcap)
  exact ⟨_, t, henc, hexec, hdone⟩

/-- Settles O48: the operation of HUF_DEC undoes the encoder, and its output fits DST_CAP. -/
theorem hufDecCompletes : Obligations.HufDecCompletes :=
  fun _ _ _ hc hadm henc hcap => exec_completedWith hc hadm (hufDecode_hufEncode henc) hcap

end Sys2Proof.Machine
end


section
/-! PROOFS. The Huffman code table of an input, and the table and artifact of a run (40_huffman R201 to R212). -/

namespace Sys2Proof.Machine

/-! ### The table of an input -/

/-- Settles O50: the frequencies, the builder and the paths of its tree are those of the spec, and no path of a tree
begins another. -/
theorem hufTableIsAPrefixCode : Obligations.HufTableIsAPrefixCode := by
  intro s
  refine ⟨freqCount_eq s, tableOf_symbols s, fun _ he => tableOf_ne_nil he,
    fun _ he _ hf hp => tableOf_prefixFree he hf hp, fun hs => ?_⟩
  obtain ⟨t, htree, _, _⟩ := buildTree_spec hs
  exact ⟨t, htree, buildTree_builds htree, fun _ he => tableOf_paths htree he⟩

/-- Settles O53: a code of 44 bits needs F(46) symbols, more than 2^30. -/
theorem hufCodeLengthBound : Obligations.HufCodeLengthBound := by
  intro s hs e he
  obtain hone | hfib := tableOf_fib_le he
  · omega
  · by_contra hlong
    have hmono : Nat.fib 46 ≤ Nat.fib (e.2.length + 2) := Nat.fib_mono (by omega)
    have hval : Nat.fib 46 = 1836311903 := by norm_num
    omega

/-! ### No symbol, and one symbol (40_huffman R207, R209) -/

theorem eraseDups_replicate {n : Nat} (hn : 1 ≤ n) (x : Word) : (List.replicate n x).eraseDups = [x] := by
  obtain ⟨m, rfl⟩ := Nat.exists_eq_add_of_le' hn
  simp [List.replicate_succ, List.eraseDups_cons]

/-- One symbol alone has the code "0" (40_huffman R209). -/
theorem tableOf_replicate {n : Nat} (hn : 1 ≤ n) (x : Word) : tableOf (List.replicate n x) = [(x, [false])] := by
  have hfreq : freqCount (List.replicate n x) = [(x, n)] := by simp [freqCount_eq, eraseDups_replicate hn]
  simp [tableOf, hfreq, buildTree, seedQueue, queueInsert, combine, codeTable, codeOf]

/-- The bitstring of a run is one zero bit a symbol (40_huffman R209, R213). -/
theorem bitsOf_replicate {n : Nat} (hn : 1 ≤ n) (x : Word) : bitsOf (List.replicate n x) = List.replicate n false := by
  simp [bitsOf, tableOf_replicate hn, codeOf, List.flatMap_replicate]

theorem bitsToNat_replicate_false (n : Nat) : bitsToNat (List.replicate n false) = 0 := by
  induction n with
  | zero => rfl
  | succ n ih => simp [List.replicate_succ, bitsToNat, ih]

theorem packWords_replicate_false (k n : Nat) : packWords k (List.replicate n false) = List.replicate k 0 := by
  induction k generalizing n with
  | zero => rfl
  | succ k ih => simp [packWords, bitsToNat_replicate_false, ih, List.replicate_succ]

theorem hufEncode_nil : hufEncode [] = .ok [0, 0] := by decide

/-- The artifact of a run: one table entry, and zero bits (40_huffman R209, R213). -/
theorem hufEncode_replicate {x : Word} {n : Nat} (hn : 1 ≤ n) (hmax : n ≤ Config.hufMaxBits) :
    hufEncode (List.replicate n x) =
      .ok (BitVec.ofNat 32 n :: 1 :: x :: 1 :: 0 :: 0 :: List.replicate (ceilDiv n 32) 0) := by
  refine (hufEncode_eq_ok_iff _ _).2 ⟨?_, ?_, ?_⟩
  · simp [tableOf_replicate hn]
  · simpa [bitsOf_replicate hn] using hmax
  · simp [hufArtifact, tableOf_replicate hn, bitsOf_replicate hn, entryWords, bitsToNat, packBits,
      packWords_replicate_false]

/-- Settles O51: no symbol gives no tree, and the one code of a run is the single bit 0. -/
theorem hufEmptyAndSingleSymbol : Obligations.HufEmptyAndSingleSymbol :=
  ⟨rfl, rfl, hufEncode_nil, fun x _ hn hmax => ⟨tableOf_replicate hn x, hufEncode_replicate hn hmax⟩⟩

end Sys2Proof.Machine
end


section
/-! PROOFS. The Huffman decoder's checks and its loop (40_huffman R216 to R218). -/

namespace Sys2Proof.Machine

/-! ### The checks -/

/-- Fewer than two words, or fewer than the counts need (40_huffman R216). -/
theorem hufDecode_truncated {w : List Word}
    (h : w.length < 2 ∨ w.length < 2 + 4 * (w.getD 1 0).toNat + ceilDiv (w.getD 0 0).toNat 32) :
    hufDecode w = .error ⟨.decTruncated, w.length⟩ := by
  match w, h with
  | [], _ => rfl
  | [_], _ => rfl
  | nb :: ne :: body, h =>
    have hneed : (nb :: ne :: body).length < hufLen nb.toNat ne.toNat := by
      obtain h | h := h
      · simp at h
      · exact h
    exact if_pos hneed

/-- More words than the counts need (40_huffman R216). -/
theorem hufDecode_trailing {w : List Word} (h2 : 2 ≤ w.length)
    (h : 2 + 4 * (w.getD 1 0).toNat + ceilDiv (w.getD 0 0).toNat 32 < w.length) :
    hufDecode w = .error ⟨.decTrailing, 2 + 4 * (w.getD 1 0).toNat + ceilDiv (w.getD 0 0).toNat 32⟩ := by
  match w, h2, h with
  | nb :: ne :: body, _, h =>
    have hneed : hufLen nb.toNat ne.toNat < (nb :: ne :: body).length := h
    exact (if_neg hneed.not_gt).trans (if_pos hneed)

/-- The table check finds the first entry that fails, in the artifact's words (40_huffman R217). -/
theorem firstBadEntry_tableIn {w : List Word} (hshape : hufShape w) {e : Nat} (he : e < (w.getD 1 0).toNat)
    (hfail : tableEntryFails w e) (hfirst : ∀ j, j < e → ¬tableEntryFails w j) :
    firstBadEntry [] (tableIn w) = some e := by
  rw [← tableIn_length hshape] at he
  have hsplit : tableIn w = (tableIn w).take e ++ (tableIn w)[e] :: (tableIn w).drop (e + 1) := by simp
  have htake : ((tableIn w).take e).length = e := List.length_take_of_le he.le
  have hbad : badEntry ([] ++ (tableIn w).take e) (tableIn w)[e] = true :=
    (badEntry_tableIn hshape hsplit).2 (htake.symm ▸ hfail)
  have hpass : ∀ a f b, (tableIn w).take e = a ++ f :: b → badEntry ([] ++ a) f = false := by
    intro a f b hab
    have hlt : a.length < e := by
      rw [← htake, hab]
      simp
    rw [hab, List.append_assoc, List.cons_append] at hsplit
    rw [List.nil_append, ← Bool.not_eq_true, badEntry_tableIn hshape hsplit]
    exact hfirst _ hlt
  rw [hsplit, firstBadEntry_some hbad hpass, htake, List.length_nil, Nat.zero_add]

/-- Settles O54: the shape checks come first, and the table check then stops at the first entry that fails. -/
theorem hufShapeAndTableChecks : Obligations.HufShapeAndTableChecks := by
  intro w
  refine ⟨fun h => hufDecode_truncated (.inl h), fun _ h => hufDecode_truncated (.inr h), hufDecode_trailing,
    fun e hshape he hfail hfirst => ?_⟩
  rw [hufDecode_of_shape hshape, firstBadEntry_tableIn hshape he hfail hfirst]

/-! ### The loop -/

/-- Over a valid table the decode fails at the first bit where no code matches (40_huffman R218). -/
theorem hufDecode_noMatch {w out : List Word} {p : Nat} (hshape : hufShape w)
    (hv : ∀ e, e < (w.getD 1 0).toNat → ¬tableEntryFails w e) (hd : DecodesTo w 0 out p)
    (hp : p < (w.getD 0 0).toNat) (hn : ∀ e, ¬tableMatches w e p) :
    hufDecode w = .error ⟨.decHufNoMatch, p⟩ := by
  have hloop := decodeBits_of_decodesTo hshape hv (Nat.zero_le _) hd
  rw [decodeBits_noMatch hshape hp hn, List.drop_zero] at hloop
  rw [hufDecode_of_shape hshape, (valid_tableIn hshape hv).1]
  exact hloop

/-- Settles O55: the loop follows the matches, to the end of the bitstring or to the first bit where none is. -/
theorem hufDecodeLoop : Obligations.HufDecodeLoop :=
  fun _ hshape hv => ⟨fun _ hd => hufDecode_of_decodesTo hshape hv hd,
    fun _ _ hd hp hn => hufDecode_noMatch hshape hv hd hp hn⟩

end Sys2Proof.Machine
end


section
/-! PROOFS. The LZ77 round trip, what one more codeword decodes to, and LZ77_ENC and LZ77_DEC on the machine (41_lz77 R249
to R256, 70_reset_and_hazards R507). -/

namespace Sys2Proof.Machine

/-- Settles O38: the decoder's loop undoes the encoder's. -/
theorem lz77RoundTrip : Obligations.Lz77RoundTrip := fun s mo ml _ _ _ _ => lz77Decode_lz77Encode s mo ml

/-! ### Decoding one more codeword (41_lz77 R252 to R254) -/

/-- After codewords that decode, the decoder's loop goes on from their output. -/
theorem lz77Decode_append {cw : List Codeword} {out : List Word} (h : lz77Decode cw = .ok out) (rest : List Codeword) :
    lz77Decode (cw ++ rest) = lz77DecodeFrom cw.length out.reverse rest := by
  rw [lz77Decode] at h
  rw [lz77Decode, lz77DecodeFrom_append, h, Nat.zero_add]

/-- Settles O41: the loop goes on with one codeword, and its three cases are those of the codeword's offset. -/
theorem lz77DecodeRules : Obligations.Lz77DecodeRules := by
  intro cw rest w out h
  refine ⟨fun hzero => ?literal, fun hpos hle => ?copy, fun hlt => ?beyond⟩
  case literal =>
    rw [lz77Decode_append h, lz77DecodeFrom, if_pos hzero]
    simp [lz77DecodeFrom]
  case copy =>
    obtain ⟨copy, hcopy, hlen, hback⟩ := lz77Copy_spec w.length w.offset out.reverse hpos (by simpa using hle)
    rw [List.reverse_reverse] at hcopy hback
    refine ⟨copy, ?_, hlen, by simpa using hback⟩
    rw [lz77Decode_append h, lz77DecodeFrom, if_neg (Nat.ne_of_gt hpos), if_neg (by simpa using hle), lz77DecodeFrom, hcopy]
  case beyond =>
    rw [lz77Decode_append h, lz77DecodeFrom, if_neg (by omega), if_pos (by simpa using hlt)]

/-! ### The commands (41_lz77 R249, R251, R255) -/

/-- An encoding has at most two words a symbol (70_reset_and_hazards R507). -/
theorem lz77Encode_words_length_le (s : List Word) (mo ml : Nat) :
    ((lz77Encode s mo ml).flatMap Codeword.words).length ≤ 2 * s.length := by
  have hcodewords := lz77EncodeFrom_length mo ml 0 [] s
  rw [flatMap_words_length, lz77Encode]
  omega

/-- Settles O36: the operation of LZ77_ENC never fails, and its output fits DST_CAP. -/
theorem lz77EncCompletes : Obligations.Lz77EncCompletes := by
  intro s c hc hadm hcap
  refine exec_completedWith hc hadm rfl ((lz77Encode_words_length_le _ _ _).trans ?_)
  rwa [State.input_length]

/-- An admitted command whose operation fails records the error, and outside DST memory is as it was (60_exceptions
R422). -/
theorem exec_failedWith {i : Instr} {s : State} {c : Snapshot} {e : OpError} (hc : s.seq = .busy c)
    (ha : Admitted i s.params c) (ho : operationOf i s.params c (s.input c) = .error e) :
    ∃ t, exec i s = .next t ∧ s.FailedWith c e.name.kind e.name.code e.pos t := by
  refine ⟨_, exec_of_busy hc i, ?_⟩
  rw [State.complete_error ha ho]
  exact ⟨_, _, rfl, fun _ hout => State.read_scrambleDst_of_not_inDst s hout⟩

/-- Half a codeword at the end of the words is an error (41_lz77 R251). -/
theorem lz77DecOp_odd (c : Snapshot) {w : List Word} (h : w.length % 2 = 1) :
    lz77DecOp c w = .error ⟨.decTruncated, w.length⟩ := if_pos h

/-- Settles O37: the operation of LZ77_DEC undoes the encoder, and an odd number of words is its one early error. -/
theorem lz77DecCompletes : Obligations.Lz77DecCompletes := by
  refine ⟨fun s c x mo ml hc hadm _ hmo _ hml hcap hinput => ?encoding, fun s c hc hadm hodd => ?odd⟩
  case encoding =>
    refine exec_completedWith hc hadm ?_ hcap
    rw [hinput]
    exact lz77DecOp_words c hmo hml
  case odd =>
    rw [← State.input_length s] at hodd ⊢
    exact exec_failedWith hc hadm (lz77DecOp_odd c hodd)

end Sys2Proof.Machine
end


section
/-! PROOFS. The LZ77 encoder chooses greedily, and what that gives on distinct symbols and on a run (41_lz77 R244 to R248,
R257, R258). -/

namespace Sys2Proof.Machine

/-! ### The choice at a cursor (41_lz77 R245 to R247) -/

/-- A search that finds nothing gives the greedy literal (41_lz77 R246). -/
theorem greedyCodeword_literal {mo ml d : Nat} {before rest : List Word} {x : Word} (hml : 1 ≤ ml)
    (h : findMatch mo ml before (x :: rest) = (0, d)) :
    GreedyCodeword (before.reverse ++ x :: rest) mo ml before.length ⟨0, 1, x⟩ := by
  obtain ⟨_, hnone⟩ | ⟨e, b, he, hb, _⟩ := findMatch_cases mo ml before (x :: rest)
  · refine .inl ⟨rfl, rfl, by simp, fun d hd hle hmatch => ?_⟩
    have hlen := (le_matchLen_iff (by omega)).2 ⟨hml, by simp, hmatch⟩
    have hzero := hnone d hd (by omega) (by omega)
    omega
  · rw [he] at h
    cases h
    omega

/-- A match the search finds gives the greedy match (41_lz77 R247). -/
theorem greedyCodeword_match {mo ml b d : Nat} {before rest : List Word}
    (h : findMatch mo ml before rest = (b + 1, d)) :
    GreedyCodeword (before.reverse ++ rest) mo ml before.length ⟨d, b + 1, (rest.drop (b + 1)).headD 0⟩ := by
  obtain ⟨he, _⟩ | ⟨d', b', he, hb, hd, hmo, hbefore, hlen, hfirst, hlongest⟩ := findMatch_cases mo ml before rest
  · rw [he] at h
    cases h
  · rw [he] at h
    cases h
    obtain ⟨hml, hrest, hmatch⟩ := (le_matchLen_iff hbefore).1 hlen.ge
    have hleft : (before.reverse ++ rest).length - before.length = rest.length := by simp
    refine .inr ⟨hd, le_min hmo hbefore, hb, hleft ▸ le_min hml hrest, hmatch, ?longest, ?least, ?literal⟩
    case longest =>
      intro e m he hle hm hmatch
      have hreach := (le_matchLen_iff (ml := ml) (by omega)).2 ⟨by omega, by omega, hmatch⟩
      exact hreach.trans (hlongest e he (by omega) (by omega))
    case least =>
      intro e he hlt hmatch
      exact absurd (hfirst e he hlt) (Nat.not_lt.2 ((le_matchLen_iff (hlt.le.trans hbefore)).2 ⟨hml, hrest, hmatch⟩))
    case literal => simp [List.headD_eq_head?_getD, List.getD_eq_getElem?_getD, List.getElem?_append_right]

/-! ### The encoder's loop, a codeword at a time (41_lz77 R248) -/

/-- The symbols of the last match move behind the cursor. -/
theorem lz77EncodeFrom_skip (mo ml skip : Nat) (before rest : List Word) :
    lz77EncodeFrom mo ml skip before rest =
      lz77EncodeFrom mo ml 0 ((rest.take skip).reverse ++ before) (rest.drop skip) := by
  induction skip generalizing before rest with
  | zero => simp
  | succ skip ih =>
    cases rest with
    | nil => simp [lz77EncodeFrom]
    | cons x rest => simpa [lz77EncodeFrom] using ih (x :: before) rest

/-- Before the end of the input the loop emits the greedy codeword at its cursor, and goes on behind the symbols that
codeword covers. -/
theorem lz77EncodeFrom_emits {mo ml : Nat} {before rest : List Word} (hml : 1 ≤ ml) (hrest : rest ≠ []) :
    ∃ w, GreedyCodeword (before.reverse ++ rest) mo ml before.length w ∧
      lz77EncodeFrom mo ml 0 before rest =
        w :: lz77EncodeFrom mo ml 0 ((rest.take w.length).reverse ++ before) (rest.drop w.length) := by
  obtain ⟨x, rest, rfl⟩ := List.exists_cons_of_ne_nil hrest
  rw [lz77EncodeFrom]
  split
  case h_1 d hfind => exact ⟨_, greedyCodeword_literal hml hfind, by simp⟩
  case h_2 b d hfind =>
    refine ⟨_, greedyCodeword_match hfind, ?_⟩
    rw [lz77EncodeFrom_skip]
    simp

/-- A greedy codeword covers a symbol at least, and none past the end. -/
theorem GreedyCodeword.length_bounds {s : List Word} {mo ml cur : Nat} {w : Codeword} (h : GreedyCodeword s mo ml cur w) :
    1 ≤ w.length ∧ w.length ≤ s.length - cur := by
  obtain ⟨_, hlen, hsymbol, _⟩ | ⟨_, _, hpos, hle, _⟩ := h
  · have := (List.getElem?_eq_some_iff.1 hsymbol).1
    omega
  · omega

theorem coveredBy_cons (w : Codeword) (cw : List Codeword) : coveredBy (w :: cw) = w.length + coveredBy cw := by
  simp [coveredBy]

/-- From any cursor on, the codewords cover what is left of the input, and each is greedy at its own cursor. -/
theorem lz77EncodeFrom_greedy {mo ml : Nat} {s before rest : List Word} (hml : 1 ≤ ml) (hs : before.reverse ++ rest = s) :
    coveredBy (lz77EncodeFrom mo ml 0 before rest) = rest.length ∧
      ∀ (k : Nat) (w : Codeword), (lz77EncodeFrom mo ml 0 before rest)[k]? = some w →
        GreedyCodeword s mo ml (before.length + coveredBy ((lz77EncodeFrom mo ml 0 before rest).take k)) w := by
  induction hn : rest.length using Nat.strong_induction_on generalizing before rest with
  | _ n ih =>
    obtain rfl | hrest := eq_or_ne rest []
    · subst hn
      simp [lz77EncodeFrom, coveredBy]
    obtain ⟨w, hw, hemits⟩ := lz77EncodeFrom_emits (before := before) (mo := mo) hml hrest
    rw [hs] at hw
    obtain ⟨hpos, hle⟩ := hw.length_bounds
    have hlen : s.length - before.length = rest.length := by simp [← hs]
    have hcursor : ((rest.take w.length).reverse ++ before).length = before.length + w.length := by
      rw [List.length_append, List.length_reverse, List.length_take]
      omega
    obtain ⟨hcover, hgreedy⟩ := ih (rest.drop w.length).length (by rw [List.length_drop]; omega)
      (before := (rest.take w.length).reverse ++ before) (by simpa using hs) rfl
    rw [hemits]
    refine ⟨?_, fun k v hv => ?_⟩
    · rw [coveredBy_cons, hcover, List.length_drop]
      omega
    · cases k with
      | zero =>
        cases hv
        exact hw
      | succ k =>
        rw [List.take_succ_cons, coveredBy_cons, ← Nat.add_assoc, ← hcursor]
        exact hgreedy k v hv

/-- Settles O39: the loop from the start of the input. -/
theorem lz77EncoderIsGreedy : Obligations.Lz77EncoderIsGreedy := by
  intro s mo ml _ _ hml _
  simpa [lz77Encode] using lz77EncodeFrom_greedy (mo := mo) (before := []) (rest := s) hml rfl

/-! ### Distinct symbols (41_lz77 R257) -/

/-- The greedy choice for a symbol that does not stand before the cursor is the literal. -/
theorem GreedyCodeword.eq_literal {s : List Word} {mo ml cur : Nat} {w : Codeword} {x : Word}
    (h : GreedyCodeword s mo ml cur w) (hx : s[cur]? = some x) (hnew : ∀ j, j < cur → s[j]? ≠ some x) :
    w = ⟨0, 1, x⟩ := by
  obtain ⟨hoffset, hlen, hsymbol, _⟩ | ⟨hoffset, hle, hpos, _, hmatch, _⟩ := h
  · have hliteral : w.literal = x := Option.some.inj (hsymbol.symm.trans hx)
    rw [← hoffset, ← hlen, ← hliteral]
  · exact absurd ((hmatch 0 hpos).trans hx) (hnew _ (by omega))

theorem lz77EncodeFrom_of_not_mem {mo ml : Nat} {before rest : List Word} {x : Word} (hml : 1 ≤ ml) (hx : x ∉ before) :
    lz77EncodeFrom mo ml 0 before (x :: rest) = ⟨0, 1, x⟩ :: lz77EncodeFrom mo ml 0 (x :: before) rest := by
  obtain ⟨w, hw, hemits⟩ := lz77EncodeFrom_emits (before := before) (mo := mo) hml (List.cons_ne_nil x rest)
  have hnew : ∀ j, j < before.length → (before.reverse ++ x :: rest)[j]? ≠ some x := by
    intro j hj hjx
    rw [List.getElem?_append_left (by simpa using hj)] at hjx
    exact hx (List.mem_reverse.1 (List.mem_of_getElem? hjx))
  obtain rfl := hw.eq_literal (by simp) hnew
  exact hemits

theorem lz77EncodeFrom_nodup {mo ml : Nat} {before rest : List Word} (hml : 1 ≤ ml)
    (hs : (before.reverse ++ rest).Nodup) : lz77EncodeFrom mo ml 0 before rest = rest.map fun x => ⟨0, 1, x⟩ := by
  induction rest generalizing before with
  | nil => rfl
  | cons x rest ih =>
    have hx : x ∉ before := fun hmem => List.disjoint_of_nodup_append hs (List.mem_reverse.2 hmem) List.mem_cons_self
    rw [lz77EncodeFrom_of_not_mem hml hx, ih (by simpa using hs), List.map_cons]

/-! ### A run of one symbol (41_lz77 R258) -/

/-- A run repeats itself at every distance. -/
theorem matchesAt_replicate {x : Word} {n cur d m : Nat} (h : cur + m ≤ n) : matchesAt (List.replicate n x) cur d m := by
  intro j hj
  rw [List.getElem?_replicate_of_lt (by omega), List.getElem?_replicate_of_lt (by omega)]

/-- Inside a run, with `m` symbols left, the greedy choice is the longest copy at distance 1. -/
theorem GreedyCodeword.eq_copy {x : Word} {mo ml a m : Nat} {w : Codeword} (hmo : 1 ≤ mo) (ha : 1 ≤ a)
    (hm : 1 ≤ m) (h : GreedyCodeword (List.replicate (a + m) x) mo ml a w) :
    w = ⟨1, min ml m, if ml < m then x else 0⟩ := by
  obtain ⟨_, _, _, hnone⟩ | ⟨hoffset, _, _, hle, _, hlongest, hleast, hliteral⟩ := h
  · exact absurd (matchesAt_replicate (by omega)) (hnone 1 le_rfl (by omega))
  · rw [List.length_replicate, Nat.add_sub_cancel_left] at hle hlongest
    have hlen : w.length = min ml m :=
      hle.antisymm (hlongest 1 _ le_rfl (by omega) le_rfl (matchesAt_replicate (by omega)))
    have hone : w.offset = 1 := by
      by_contra hne
      exact hleast 1 le_rfl (by omega) (matchesAt_replicate (by omega))
    have hnext : w.literal = if ml < m then x else 0 := by
      have hend : a + min ml m < a + m ↔ ml < m := by omega
      rw [hliteral, hlen, List.getD_eq_getElem?_getD, List.getElem?_replicate]
      simp only [hend]
      split <;> rfl
    rw [← hlen, ← hone, ← hnext]

theorem ceilDiv_eq_succ {m ml : Nat} (hm : 1 ≤ m) (hml : 1 ≤ ml) : ceilDiv m ml = ceilDiv (m - ml) ml + 1 := by
  have hfirst : (m + ml - 1) / ml = (m - 1) / ml + 1 := by
    rw [← Nat.add_div_right _ hml, Nat.sub_add_comm hm]
  have hlater : (m - ml + ml - 1) / ml = (m - 1) / ml := by
    obtain hle | hlt := le_or_gt ml m
    · rw [Nat.sub_add_cancel hle]
    · rw [Nat.div_eq_of_lt (by omega), Nat.div_eq_of_lt (by omega)]
  rw [ceilDiv, ceilDiv, hfirst, hlater]

/-- The copies the encoder makes of the last `m` symbols of a run, `ml` symbols each but for the last. -/
def runCopies (x : Word) (ml m : Nat) : List Codeword :=
  (List.range (ceilDiv m ml)).map fun k => ⟨1, min ml (m - k * ml), if (k + 1) * ml < m then x else 0⟩

theorem runCopies_zero (x : Word) {ml : Nat} (hml : 1 ≤ ml) : runCopies x ml 0 = [] := by
  have h : ceilDiv 0 ml = 0 := Nat.div_eq_of_lt (by omega)
  simp [runCopies, h]

theorem runCopies_pos (x : Word) {ml m : Nat} (hml : 1 ≤ ml) (hm : 1 ≤ m) :
    runCopies x ml m = ⟨1, min ml m, if ml < m then x else 0⟩ :: runCopies x ml (m - ml) := by
  rw [runCopies, ceilDiv_eq_succ hm hml, List.range_succ_eq_map, List.map_cons, List.map_map]
  simp only [Nat.zero_mul, Nat.sub_zero, Nat.zero_add, Nat.one_mul, runCopies, List.cons.injEq, true_and]
  refine List.map_congr_left fun k _ => ?_
  have hlen : m - (k + 1) * ml = m - ml - k * ml := by rw [Nat.succ_mul, Nat.add_comm, Nat.sub_add_eq]
  have hend : (k + 1 + 1) * ml < m ↔ (k + 1) * ml < m - ml := by rw [Nat.succ_mul (k + 1), Nat.lt_sub_iff_add_lt]
  simp [hlen, hend]

theorem lz77EncodeFrom_replicate {x : Word} {mo ml a m : Nat} (hmo : 1 ≤ mo) (hml : 1 ≤ ml) (ha : 1 ≤ a) :
    lz77EncodeFrom mo ml 0 (List.replicate a x) (List.replicate m x) = runCopies x ml m := by
  induction m using Nat.strong_induction_on generalizing a with
  | _ m ih =>
    obtain rfl | hm := Nat.eq_zero_or_pos m
    · rw [runCopies_zero x hml]
      rfl
    obtain ⟨w, hw, hemits⟩ := lz77EncodeFrom_emits (before := List.replicate a x) (rest := List.replicate m x) (mo := mo) hml
      (by simp; omega)
    rw [List.reverse_replicate, List.length_replicate, List.replicate_append_replicate] at hw
    obtain rfl := hw.eq_copy hmo ha hm
    simp only [List.take_replicate, List.drop_replicate, List.reverse_replicate, List.replicate_append_replicate] at hemits
    rw [hemits, ih (m - min ml m) (by omega) (by omega), runCopies_pos x hml hm,
      show m - min ml m = m - ml by omega]

/-- Settles O40: without a repeated symbol every greedy choice is a literal, and after the first symbol of a run every one
is a copy at distance 1. -/
theorem lz77LiteralsAndRuns : Obligations.Lz77LiteralsAndRuns := by
  intro mo ml hmo _ hml _
  refine ⟨fun s hs => lz77EncodeFrom_nodup (before := []) hml hs, fun x n hn => ?_⟩
  obtain ⟨m, rfl⟩ := Nat.exists_eq_add_of_le' hn
  rw [lz77Encode, List.replicate_succ, lz77EncodeFrom_of_not_mem hml List.not_mem_nil]
  exact congrArg _ (lz77EncodeFrom_replicate (a := 1) hmo hml le_rfl)

end Sys2Proof.Machine
end


section
/-! PROOFS. The LZW round trip, the encoder's and the decoder's errors, and LZW_ENC and LZW_DEC on the machine (42_lzw R271 to
R282, 70_reset_and_hazards R507). -/

namespace Sys2Proof.Machine

/-- Settles O44: the decoder's loop undoes the encoder's. -/
theorem lzwRoundTrip : Obligations.LzwRoundTrip := fun _ _ _ hlen henc => lzwDecode_lzwEncode hlen henc

/-! ### The commands (42_lzw R276, R281) -/

/-- Settles O42: the words of the input are at most its symbols, so the dictionary has room for their entries and DST_CAP
for their codes. -/
theorem lzwEncCompletes : Obligations.LzwEncCompletes := by
  intro s c hc hadm hbytes hroom hcap
  obtain ⟨ws, codes, hparse, hcodes⟩ := lzwEncode_parse hbytes hadm.input_length_le
  have hwords : ws.length ≤ c.srcLen.toNat := State.input_length s c ▸ hparse.length_le
  have henc := (hcodes s.params.lzwDictCap).1 (by omega)
  have hlen : codes.length ≤ c.srcLen.toNat := hparse.length.trans_le hwords
  obtain ⟨t, hexec, hdone⟩ := exec_completedWith hc hadm henc (hlen.trans hcap)
  exact ⟨ws, codes, t, hparse, henc, hlen, hexec, hdone⟩

/-- Settles O43: an input that fits DST_CAP is short enough for the round trip. -/
theorem lzwDecCompletes : Obligations.LzwDecCompletes := by
  intro s c x hc hadm henc hcap
  have hlen : x.length ≤ 2 ^ 30 := by
    have := hadm.dstRange
    omega
  exact exec_completedWith hc hadm (lzwDecode_lzwEncode hlen henc) hcap

/-! ### The encoder's errors (42_lzw R272, R275) -/

theorem lzwOutOfRange_iff (x : Word) : lzwOutOfRange x = true ↔ x.toInt < 0 ∨ 255 < x.toInt := by
  simp [lzwOutOfRange]

/-- The range check comes before the loop, and stops at the first symbol that fails it (42_lzw R272). -/
theorem lzwEncode_outOfRange {s : List Word} {i : Nat} (h : s.findIdx? lzwOutOfRange = some i) (cap : Nat) :
    lzwEncode cap s = .error ⟨.encLzwSymbolRange, i⟩ := by
  unfold lzwEncode
  rw [h]

/-- Where the range check passes, a dictionary with room for every symbol is never full (42_lzw R274). -/
theorem lzwEncode_ok_of_room {cap : Nat} {s : List Word} (h : s.findIdx? lzwOutOfRange = none)
    (hroom : 256 + s.length ≤ cap) : ∃ codes, lzwEncode cap s = .ok codes := by
  unfold lzwEncode
  rw [h]
  cases s with
  | nil => exact ⟨[], rfl⟩
  | cons x rest =>
    rw [List.length_cons] at hroom
    exact lzwEncodeFrom_ok (by rw [Config.lzwSeed]; omega)

/-- Settles O45: the range check, the parse of the input into words, and the room an insertion needs. -/
theorem lzwEncoderErrors : Obligations.LzwEncoderErrors := by
  refine ⟨fun cap s i x hi hx hbefore => ?range, fun s hbytes hlen => lzwEncode_parse hbytes hlen,
    fun cap s e hroom he => ?room⟩
  case range =>
    obtain ⟨hlt, rfl⟩ := List.getElem?_eq_some_iff.1 hi
    refine lzwEncode_outOfRange (List.findIdx?_eq_some_iff_getElem.2 ⟨hlt, (lzwOutOfRange_iff _).2 hx, fun j hj => ?_⟩) cap
    have hin := hbefore j s[j] hj (List.getElem?_eq_getElem _)
    rw [lzwOutOfRange_iff]
    omega
  case room =>
    cases hfind : s.findIdx? lzwOutOfRange with
    | some i =>
      rw [lzwEncode_outOfRange hfind] at he
      cases he
      rfl
    | none =>
      obtain ⟨codes, hok⟩ := lzwEncode_ok_of_room hfind hroom
      rw [hok] at he
      cases he

/-! ### The decoder, one more code (42_lzw R277 to R279) -/

theorem lzwDecode_firstCode {k : Word} (h : 256 ≤ k.toNat) (cap : Nat) (rest : List Word) :
    lzwDecode cap (k :: rest) = .error ⟨.decLzwBadCode, 0⟩ := if_pos h

/-- Every symbol of a decoded list is a byte (42_lzw R281). -/
theorem lzwDecode_bytes {cap : Nat} {codes out : List Word} (h : lzwDecode cap codes = .ok out) :
    ∀ x ∈ out, x.toNat < 256 := by
  cases codes with
  | nil =>
    cases h
    simp
  | cons k rest =>
    obtain hk | hk := Nat.lt_or_ge k.toNat 256
    · rw [lzwDecode, if_neg (by simpa [Config.lzwSeed] using hk), lzwStr_byte hk] at h
      have hfirst : ∀ x ∈ [k], x.toNat < 256 := List.forall_mem_singleton.2 hk
      split at h
      case h_1 => cases h
      case h_2 out' hrest =>
        cases h
        have hlater := lzwDecodeFrom_bytes (by simp) (by simp) hfirst (by simp) hrest
        exact List.forall_mem_append.2 ⟨hfirst, hlater⟩
    · rw [lzwDecode_firstCode hk] at h
      cases h

/-- A code beyond the next to be assigned (42_lzw R278). -/
theorem lzwDecodeFrom_beyond {d : List (List Word)} {k : Word} (h : 256 + d.length < k.toNat) (cap i : Nat)
    (prev rest : List Word) : lzwDecodeFrom cap i d prev (k :: rest) = .error ⟨.decLzwBadCode, i⟩ := if_pos h

/-- Any other code, with the dictionary full (42_lzw R279). -/
theorem lzwDecodeFrom_full {cap : Nat} {d : List (List Word)} {k : Word} (h : k.toNat ≤ 256 + d.length)
    (hfull : cap ≤ 256 + d.length) (i : Nat) (prev rest : List Word) :
    lzwDecodeFrom cap i d prev (k :: rest) = .error ⟨.decLzwDictFull, i⟩ :=
  (if_neg h.not_gt).trans (if_pos hfull)

/-- Any other code, with room for an entry, gives its word (42_lzw R279). -/
theorem lzwDecodeFrom_singleton {cap : Nat} {d : List (List Word)} {k : Word} (h : k.toNat ≤ 256 + d.length)
    (hroom : 256 + d.length < cap) (i : Nat) (prev : List Word) :
    lzwDecodeFrom cap i d prev [k] = .ok (lzwWord d prev k.toNat) := by
  refine (if_neg h.not_gt).trans ((if_neg hroom.not_ge).trans ?_)
  simp [lzwDecodeFrom]

/-- Settles O46: after accepted codes the decoder's loop stands at the entries of their words, and its next code is beyond
them, finds the dictionary full, or adds its word. -/
theorem lzwDecodeRules : Obligations.LzwDecodeRules := by
  intro cap
  refine ⟨rfl, fun k rest hk => lzwDecode_firstCode hk cap rest, fun k hk => lzwDecode_cons_byte hk rfl,
    fun codes out hne hout => ⟨lzwDecode_bytes hout, ?_⟩⟩
  obtain ⟨ws, hwords, hflat, hmore⟩ := lzwDecode_words hne hout
  have hlen : ws.length = codes.length := hwords.1
  have hws : ws ≠ [] := by
    rintro rfl
    exact hne (List.length_eq_zero_iff.1 hlen.symm)
  have hsize : (lzwEntries ws).length = codes.length - 1 := by rw [lzwEntries_length, hlen]
  refine ⟨ws, hwords, hflat, fun k rest => ⟨fun hk => ?beyond, fun hk hfull => ?full, fun hk hroom => ?accepted⟩⟩
  case beyond => rw [hmore, lzwDecodeFrom_beyond (by rwa [hsize])]
  case full => rw [hmore, lzwDecodeFrom_full (by rwa [hsize]) (by rwa [hsize])]
  case accepted =>
    rw [hmore, lzwDecodeFrom_singleton (by rwa [hsize]) (by rwa [hsize]), lzwWord_entries hws (by rwa [hlen])]

end Sys2Proof.Machine
end


section
/-! PROOFS. The Deflate round trip, the size of a Deflate artifact, and DEF_ENC and DEF_DEC on the machine (43_deflate R308,
R309, R314, R316, 70_reset_and_hazards R507). -/

namespace Sys2Proof.Machine

/-- Encoding never fails: it gives the number of chunks and then each chunk's record (43_deflate R308). -/
theorem defEncode_ok (s : List Word) (mo ml : Nat) :
    ∃ rs : List (List Word), rs.length = (inputChunks s).length ∧
      defEncode s mo ml = .ok (BitVec.ofNat 32 (inputChunks s).length :: rs.flatten) ∧
      ∀ (q : Nat) (ch r : List Word), (inputChunks s)[q]? = some ch → rs[q]? = some r →
        chunkRecord mo ml ch = .ok r := by
  obtain ⟨rs, hlen, henc, hrec⟩ := encodeChunks_records mo ml (fun ch hch => (mem_inputChunks (s := s) hch).1) 0
  exact ⟨rs, hlen, by rw [defEncode, henc], hrec⟩

/-- Settles O58: encoding never fails, and each chunk's record decodes to the chunk. -/
theorem defRoundTrip : Obligations.DefRoundTrip := by
  intro s mo ml _ hmo _ hml hlen
  obtain ⟨_, _, henc, _⟩ := defEncode_ok s mo ml
  exact ⟨_, henc, defDecode_defEncode hmo hml hlen henc⟩

/-! ### The size of an artifact (70_reset_and_hazards R507) -/

theorem chunkRecord_length_le {mo ml : Nat} {ch r : List Word} (hne : ch ≠ []) (hlen : ch.length ≤ 65536)
    (h : chunkRecord mo ml ch = .ok r) : r.length ≤ 2 + ch.length := by
  obtain ⟨a, b, ha, hb, hr⟩ := chunkRecord_mux mo ml hlen
  cases hr.symm.trans h
  exact muxRecord_length hne (hufEncode_artifact ha).1 (hufEncode_artifact hb).1

/-- Records of at most two words more than their chunks hold at most two words a chunk more than the input. -/
theorem flatten_records_length_le {chs rs : List (List Word)}
    (h : List.Forall₂ (fun ch r => r.length ≤ 2 + ch.length) chs rs) :
    rs.flatten.length ≤ 2 * chs.length + chs.flatten.length := by
  induction h with
  | nil => exact Nat.zero_le _
  | cons hr _ ih =>
    simp only [List.flatten_cons, List.length_append, List.length_cons]
    omega

theorem defEncode_length_le {s w : List Word} {mo ml : Nat} (h : defEncode s mo ml = .ok w) :
    w.length ≤ 1 + s.length + 2 * ceilDiv s.length 65536 := by
  obtain ⟨rs, hlen, henc, hrec⟩ := defEncode_ok s mo ml
  cases henc.symm.trans h
  have hrecords : List.Forall₂ (fun ch r => r.length ≤ 2 + ch.length) (inputChunks s) rs := by
    refine List.forall₂_iff_get.2 ⟨hlen.symm, fun q hq hq' => ?_⟩
    obtain ⟨hle, hne⟩ := mem_inputChunks (List.get_mem (inputChunks s) ⟨q, hq⟩)
    exact chunkRecord_length_le hne hle (hrec q _ _ (List.getElem?_eq_getElem hq) (List.getElem?_eq_getElem hq'))
  have hwords := flatten_records_length_le hrecords
  rw [inputChunks_flatten, inputChunks_length] at hwords
  rw [List.length_cons]
  omega

/-! ### The commands (43_deflate R309, R314) -/

/-- Settles O56: the operation of DEF_ENC never fails, and its artifact fits DST_CAP. -/
theorem defEncCompletes : Obligations.DefEncCompletes := by
  intro s c hc hadm hcap
  obtain ⟨_, _, henc, _⟩ := defEncode_ok (s.input c) c.maxOffset.toNat c.maxLength.toNat
  have hfits := defEncode_length_le henc
  rw [State.input_length] at hfits
  obtain ⟨t, hexec, hdone⟩ := exec_completedWith hc hadm henc (hfits.trans hcap)
  exact ⟨_, t, henc, hexec, hdone⟩

/-- Settles O57: an input that fits DST_CAP is short enough for the round trip. -/
theorem defDecCompletes : Obligations.DefDecCompletes := by
  intro s c x mo ml hc hadm _ hmo _ hml henc hcap
  have hdst := hadm.dstRange
  exact exec_completedWith hc hadm (defDecode_defEncode hmo hml (by omega) henc) hcap

end Sys2Proof.Machine
end


section
/-! PROOFS. The chunks of an input, and what the muxer chooses for each (43_deflate R301, R304 to R307, R317). -/

namespace Sys2Proof.Machine

/-! ### Chunks (43_deflate R301) -/

/-- Every chunk but the last is full. -/
theorem inputChunks_full {s ch : List Word} {q : Nat} (h : (inputChunks s)[q]? = some ch)
    (hq : q + 1 < (inputChunks s).length) : ch.length = 65536 := by
  rw [inputChunks_length] at hq
  have hchunk : (inputChunks s)[q]? = some ((s.drop (q * 65536)).take 65536) :=
    chunksOf_getElem? _ _ s q (show q < ceilDiv s.length 65536 by omega)
  cases hchunk.symm.trans h
  have hcount := ceilDiv_le s.length 65536 (by decide)
  rw [List.length_take, List.length_drop]
  omega

theorem inputChunks_single {s : List Word} (hpos : 1 ≤ s.length) (hle : s.length ≤ 65536) : inputChunks s = [s] := by
  have hone : ceilDiv s.length Config.chunkSize = 1 := by
    have hlow := le_ceilDiv_mul s.length 65536 (by decide)
    have hhigh := ceilDiv_le s.length 65536 (by decide)
    change ceilDiv s.length 65536 = 1
    omega
  rw [inputChunks, hone, chunksOf, chunksOf, List.take_of_length_le (i := Config.chunkSize) hle]

/-! ### The muxer (43_deflate R306, R307) -/

theorem muxRecord_stored {ch a b : List Word} (h : 5 * ch.length ≤ artifactCost a + artifactCost b) :
    muxRecord ch a b = storedRecord ch := if_pos h

theorem muxRecord_coded {ch a b : List Word} (h : artifactCost a + artifactCost b < 5 * ch.length) :
    muxRecord ch a b = 1 :: (a ++ b) := if_neg h.not_ge

/-! ### Distinct symbols (43_deflate R317) -/

/-- A table entry costs 128 bits, and each of `u`'s distinct symbols needs one (40_huffman R210, 43_deflate R306). -/
theorem artifactCost_ge_of_subset {s u a : List Word} (h : hufEncode s = .ok a) (hu : u.Nodup) (hus : u ⊆ s) :
    128 * u.length ≤ artifactCost a := by
  obtain ⟨_, _, hcount, _, _, _⟩ := hufEncode_artifact h
  have hsub : u ⊆ s.eraseDups := fun x hx => List.mem_eraseDups.2 (hus hx)
  have hentries := (hu.subperm hsub).length_le
  rw [← tableOf_length, ← hcount] at hentries
  unfold artifactCost
  omega

/-- Distinct symbols are all literals, so each has an entry in the table of the second array, and the chunk is stored. -/
theorem chunkRecord_nodup {mo ml : Nat} {ch : List Word} (hml : 1 ≤ ml) (hlen : ch.length ≤ 65536) (hch : ch.Nodup) :
    chunkRecord mo ml ch = .ok (storedRecord ch) := by
  obtain ⟨a, b, _, hb, hrec⟩ := chunkRecord_mux mo ml hlen
  have hliterals : lz77Encode ch mo ml = ch.map fun x => ⟨0, 1, x⟩ := lz77EncodeFrom_nodup (before := []) hml hch
  have hsub : ch ⊆ litsOf (lz77Encode ch mo ml) := by
    intro x hx
    rw [hliterals]
    exact List.mem_flatMap.2 ⟨⟨0, 1, x⟩, List.mem_map_of_mem hx, by simp⟩
  have hcost := artifactCost_ge_of_subset hb hch hsub
  rw [hrec, muxRecord_stored (by omega)]

/-- Settles O59: the chunks are runs of the input, the muxer compares the cost of the two artifacts, and distinct symbols
cost more than they save. -/
theorem defChunksAndStored : Obligations.DefChunksAndStored := by
  refine ⟨fun s => ⟨inputChunks_flatten s, inputChunks_length s, fun q ch hch => ?chunk⟩, fun s mo ml _ _ _ _ => ?records,
    fun s mo ml _ _ hml _ hs hpos hle => ?distinct⟩
  case chunk =>
    obtain ⟨hle, hne⟩ := mem_inputChunks (List.mem_of_getElem? hch)
    exact ⟨hne, hle, inputChunks_full hch⟩
  case records =>
    obtain ⟨rs, hlen, henc, hrec⟩ := defEncode_ok s mo ml
    rw [inputChunks_length] at hlen henc
    refine ⟨rs, hlen, henc, fun q ch r hch hr => ?_⟩
    obtain ⟨a, b, ha, hb, hmux⟩ := chunkRecord_mux mo ml (mem_inputChunks (List.mem_of_getElem? hch)).1
    cases hmux.symm.trans (hrec q ch r hch hr)
    exact ⟨a, b, ha, hb, muxRecord_stored, muxRecord_coded⟩
  case distinct =>
    have hrecords : List.Forall₂ (fun ch r => chunkRecord mo ml ch = .ok r) [s] [storedRecord s] :=
      .cons (chunkRecord_nodup hml hle hs) .nil
    rw [defEncode, inputChunks_single hpos hle, encodeChunks_of_records hrecords]
    simp [storedRecord]

end Sys2Proof.Machine
end


section
/-! PROOFS. The Deflate decoder's records and their errors (43_deflate R310 to R313, R315). -/

namespace Sys2Proof.Machine

/-! ### One record's errors (43_deflate R310 to R312) -/

theorem decodeRecord_badTag {tag : Word} (h0 : tag ≠ 0) (h1 : tag ≠ 1) (w : List Word) :
    decodeRecord tag w = .error ⟨.decDefBadTag, 0⟩ := (if_neg h0).trans (if_neg h1)

theorem decodeRecord_stored_truncated {n : Word} {syms : List Word} (h : syms.length < n.toNat) :
    decodeRecord 0 (n :: syms) = .error ⟨.decTruncated, 0⟩ := if_pos h

theorem decodeRecord_coded_error {a b : List Word} {e : OpError} (ha : hufShape a) (hb : hufShape b)
    (h : codedChunk a b = .error e) (more : List Word) : decodeRecord 1 (a ++ b ++ more) = .error e := by
  rw [decodeRecord_coded ha hb, h]

theorem codedChunk_error_lengths {a b : List Word} {e : OpError} (ha : hufDecode a = .error e) :
    codedChunk a b = .error e := by rw [codedChunk, ha]

theorem codedChunk_error_lits {a b ls : List Word} {e : OpError} (ha : hufDecode a = .ok ls)
    (hb : hufDecode b = .error e) : codedChunk a b = .error e := by rw [codedChunk, ha, hb]

/-! ### After records that decode (43_deflate R313, R315) -/

section
variable {nch : Word} {rs : List (List Word × List Word)} (hrs : ∀ r ∈ rs, RecordGives r.1 r.2)
include hrs

theorem defDecode_records (hn : rs.length = nch.toNat) :
    defDecode (nch :: rs.flatMap Prod.fst) = .ok (rs.flatMap Prod.snd) := by
  have h := decodeRecords_append hrs 0 0 1 []
  rw [Nat.add_zero, hn, List.append_nil] at h
  rw [defDecode, h]
  simp [decodeRecords]

/-- Words after the last record are an error at the first of them (43_deflate R310). -/
theorem defDecode_trailing (hn : rs.length = nch.toNat) (x : Word) (more : List Word) :
    defDecode (nch :: (rs.flatMap Prod.fst ++ x :: more)) = .error ⟨.decTrailing, 1 + (rs.flatMap Prod.fst).length⟩ := by
  have h := decodeRecords_append hrs 0 0 1 (x :: more)
  rw [Nat.add_zero, hn] at h
  rw [defDecode, h]
  rfl

/-- An error of the next record, wherever it stands, is reported at its index (43_deflate R315). -/
theorem defDecode_error_next (hlt : rs.length < nch.toNat) {w : List Word} {e : ErrName}
    (h : ∀ n q p, decodeRecords (n + 1) q p w = .error ⟨e, q⟩) :
    defDecode (nch :: (rs.flatMap Prod.fst ++ w)) = .error ⟨e, rs.length⟩ := by
  obtain ⟨n, hn⟩ := Nat.exists_eq_add_of_lt hlt
  rw [defDecode, hn, Nat.add_assoc, decodeRecords_append hrs, h, Nat.zero_add]

theorem defDecode_error_record (hlt : rs.length < nch.toNat) {tag : Word} {body : List Word} {e : OpError}
    (h : decodeRecord tag body = .error e) :
    defDecode (nch :: (rs.flatMap Prod.fst ++ tag :: body)) = .error ⟨e.name, rs.length⟩ :=
  defDecode_error_next hrs hlt fun _ _ _ => decodeRecords_error h

theorem defDecode_error_coded (hlt : rs.length < nch.toNat) {a b : List Word} {e : OpError} (ha : hufShape a)
    (hb : hufShape b) (h : codedChunk a b = .error e) (more : List Word) :
    defDecode (nch :: (rs.flatMap Prod.fst ++ 1 :: (a ++ b ++ more))) = .error ⟨e.name, rs.length⟩ :=
  defDecode_error_record hrs hlt (decodeRecord_coded_error ha hb h more)

end

/-- Settles O60: after records that decode, the loop stands at the end, at words left over, or at the next record, whose
error it reports at that record's index. -/
theorem defRecordRules : Obligations.DefRecordRules := by
  refine ⟨rfl, fun nch rs hrs => ⟨fun hn => ⟨defDecode_records hrs hn, defDecode_trailing hrs hn⟩, fun hlt => ?_⟩⟩
  refine ⟨defDecode_error_next hrs hlt fun _ _ _ => rfl,
    fun tag w h0 h1 => defDecode_error_record hrs hlt (decodeRecord_badTag h0 h1 w),
    defDecode_error_record hrs hlt (e := ⟨.decTruncated, 0⟩) rfl,
    fun n syms hshort => defDecode_error_record hrs hlt (decodeRecord_stored_truncated hshort),
    fun w hnone => defDecode_error_record hrs hlt (decodeRecord_truncated hnone),
    fun a b more ha hb => ?coded⟩
  case coded =>
    refine ⟨fun e he => defDecode_error_coded hrs hlt ha hb (codedChunk_error_lengths he) more,
      fun ls hls => ⟨fun e he => defDecode_error_coded hrs hlt ha hb (codedChunk_error_lits hls he) more, fun ms hms => ?_⟩⟩
    obtain ⟨hzip, hrange, hlz77⟩ := codedChunk_of_decodes hls hms
    exact ⟨fun hne => defDecode_error_coded hrs hlt ha hb (hzip hne) more,
      fun hl hfit => defDecode_error_coded hrs hlt ha hb (hrange hl hfit) more,
      fun hl hfit e he => defDecode_error_coded hrs hlt ha hb ((hlz77 hl hfit).trans he) more⟩

end Sys2Proof.Machine
end


section
/-! PROOFS. Whose turn a step is, and the error entry of an illegal command word (60_exceptions R404, R405, R420, R425,
R431). -/

namespace Sys2Proof.Machine

/-- Settles O4: the engine's turn is the decoded command's. -/
theorem stepRunsTheRunningCommand : Obligations.StepRunsTheRunningCommand := fun _ _ _ hturn hd => step_eq_exec hturn hd

/-- With no action to come and no command to complete, a step changes nothing (60_exceptions R431). -/
theorem step_of_nothing_to_do {s : State} (hhost : s.host = []) (hengine : s.seq = .idle ∨ s.rst = true) :
    step s = .next s := by
  obtain ⟨c, ⟨hbusy, hrst, _⟩, _⟩ | ⟨op, rest, ⟨hop, _⟩, _⟩ | ⟨_, hstep⟩ := step_cases s
  · simp [hbusy, hrst] at hengine
  · simp [hhost] at hop
  · exact hstep

/-- Settles O5: the host's turn is its next action's, and without one nobody has a turn. -/
theorem stepTakesTheHostAction : Obligations.StepTakesTheHostAction :=
  ⟨fun _ _ _ hturn => step_of_hostTurn hturn, fun _ hhost hengine => step_of_nothing_to_do hhost hengine⟩

/-- Error entry leaves memory alone, and names the error by its row of 60_exceptions R402. -/
theorem State.errorEntry_eq_withError (s : State) (e : OpError) :
    s.errorEntry e = s.withError e.name.kind e.name.code e.pos := rfl

/-- On the engine's turn an illegal word ends in its configuration error (30_encoding R126). -/
theorem step_of_illegalWord {s : State} {c : Snapshot} {e : IllegalWord} (hturn : s.EngineTurn c)
    (hd : decode c.cmd = .error e) : step s = .next (s.errorEntry (illegalWordError e)) := by
  rw [step_of_engineTurn hturn, engineStep, hd]

/-- Settles O7: the decoder names what is wrong with the word, and the step records it. -/
theorem illegalWordsComplete : Obligations.IllegalWordsComplete := by
  intro s c hturn
  obtain ⟨hselector, hreserved, _⟩ := decodeCmdFunction c.cmd
  exact ⟨fun hsel => step_of_illegalWord hturn (hselector hsel),
    fun hsel hres => step_of_illegalWord hturn (hreserved hsel hres)⟩

end Sys2Proof.Machine
end


section
/-! PROOFS. The checks before the operation: the configuration errors in their order, and BUS_ERROR at the first unbacked
byte (60_exceptions R406 to R410, R414, R420). -/

namespace Sys2Proof.Machine

/-! ### The configuration checks, one by one (60_exceptions R406 to R410) -/

/-- The model's check of MAX_OFFSET and MAX_LENGTH refuses the values that are not legal (10_state R48, R49). -/
theorem boundRefused_iff (v : Word) : (v.toNat < 1 ∨ Config.maxField < v.toNat) ↔ ¬legalBound v := by
  rw [legalBound, Config.maxField]
  omega

section
variable {i : Instr} {c : Snapshot}

theorem configCheck_maxOffset (hb : Instr.Bounded i) (ho : ¬legalBound c.maxOffset) :
    configCheck (boundedBit i) c = some .cfgBadMaxOffset :=
  if_pos ⟨(boundedBit_iff i).2 hb, (boundRefused_iff _).2 ho⟩

theorem configCheck_maxLength (hb : Instr.Bounded i) (ho : legalBound c.maxOffset) (hl : ¬legalBound c.maxLength) :
    configCheck (boundedBit i) c = some .cfgBadMaxLength :=
  (if_neg fun h => (boundRefused_iff _).1 h.2 ho).trans (if_pos ⟨(boundedBit_iff i).2 hb, (boundRefused_iff _).2 hl⟩)

/-- Where the bounds are legal or not read, the other checks decide. -/
theorem configCheck_of_bounds (h : Instr.Bounded i → legalBound c.maxOffset ∧ legalBound c.maxLength) :
    configCheck (boundedBit i) c = configCheck false c := by
  cases hb : boundedBit i with
  | false => rfl
  | true =>
    obtain ⟨ho, hl⟩ := h ((boundedBit_iff i).1 hb)
    exact (if_neg fun hr => (boundRefused_iff _).1 hr.2 ho).trans (if_neg fun hr => (boundRefused_iff _).1 hr.2 hl)

theorem configCheck_srcAlign (h : c.srcAddr.toNat % 4 ≠ 0) : configCheck false c = some .cfgSrcAlign := by
  simp [configCheck, h]

theorem configCheck_dstAlign (hs : c.srcAddr.toNat % 4 = 0) (h : c.dstAddr.toNat % 4 ≠ 0) :
    configCheck false c = some .cfgDstAlign := by
  simp [configCheck, hs, h]

section
variable (hs : c.srcAddr.toNat % 4 = 0) (hd : c.dstAddr.toNat % 4 = 0)
include hs hd

theorem configCheck_srcRange (h : 2 ^ 32 < c.srcAddr.toNat + 4 * c.srcLen.toNat) :
    configCheck false c = some .cfgSrcRange := by
  simp [-Nat.reducePow, configCheck, hs, hd, h]

theorem configCheck_dstRange (hsr : c.srcAddr.toNat + 4 * c.srcLen.toNat ≤ 2 ^ 32)
    (h : 2 ^ 32 < c.dstAddr.toNat + 4 * c.dstCap.toNat) : configCheck false c = some .cfgDstRange := by
  simp [-Nat.reducePow, configCheck, hs, hd, hsr.not_gt, h]

/-- Between two aligned ranges inside the 2^32 bytes only their overlap is left to check (60_exceptions R410). -/
theorem configCheck_of_ranges (hsr : c.srcAddr.toNat + 4 * c.srcLen.toNat ≤ 2 ^ 32)
    (hdr : c.dstAddr.toNat + 4 * c.dstCap.toNat ≤ 2 ^ 32) :
    configCheck false c =
      if 0 < c.srcLen.toNat ∧ 0 < c.dstCap.toNat ∧ c.srcAddr.toNat < c.dstAddr.toNat + 4 * c.dstCap.toNat ∧
        c.dstAddr.toNat < c.srcAddr.toNat + 4 * c.srcLen.toNat then some .cfgOverlap else none := by
  simp [-Nat.reducePow, configCheck, hs, hd, hsr.not_gt, hdr.not_gt]

end

/-- Legal ranges do not overlap: if they did, they would share the later of their first bytes. -/
theorem configCheck_of_legal (h : ConfigurationLegal i c) : configCheck (boundedBit i) c = none := by
  obtain ⟨hbounds, hs, hd, hsr, hdr, hdisjoint⟩ := h
  rw [configCheck_of_bounds hbounds, configCheck_of_ranges hs hd hsr hdr, if_neg]
  intro hoverlap
  refine hdisjoint (max c.srcAddr.toNat c.dstAddr.toNat) ?_
  rw [Snapshot.inSrc_iff, Snapshot.inDst_iff]
  omega

end

/-! ### A failed check on the machine (60_exceptions R420, R422) -/

theorem exec_of_preCheck {i : Instr} {s : State} {c : Snapshot} {e : OpError} (hc : s.seq = .busy c)
    (h : preCheck (boundedBit i) s.params c = some e) :
    exec i s = .next (s.withError e.name.kind e.name.code e.pos) := by
  rw [exec_of_busy hc, State.complete_preCheck h, State.errorEntry_eq_withError]

theorem exec_of_configCheck {i : Instr} {s : State} {c : Snapshot} {e : ErrName} (hc : s.seq = .busy c)
    (h : configCheck (boundedBit i) c = some e) : exec i s = .next (s.withError e.kind e.code 0) :=
  exec_of_preCheck (e := ⟨e, 0⟩) hc (by rw [preCheck, h])

/-- Settles O8: the first check that fails names the error, and the rule of each is one clause. -/
theorem configurationErrorsInOrder : Obligations.ConfigurationErrorsInOrder := by
  intro i s c hc
  refine ⟨fun hb ho => exec_of_configCheck hc (configCheck_maxOffset hb ho),
    fun hb ho hl => exec_of_configCheck hc (configCheck_maxLength hb ho hl), fun hbounds => ?_⟩
  have hexec : ∀ e, configCheck false c = some e → exec i s = .next (s.withError e.kind e.code 0) :=
    fun e he => exec_of_configCheck hc ((configCheck_of_bounds hbounds).trans he)
  refine ⟨fun h => hexec _ (configCheck_srcAlign h), fun hs h => hexec _ (configCheck_dstAlign hs h), fun hs hd => ?_⟩
  refine ⟨fun h => hexec _ (configCheck_srcRange hs hd h),
    fun hsr => ⟨fun h => hexec _ (configCheck_dstRange hs hd hsr h), fun hdr hsl hdc hsd hds => ?_⟩⟩
  exact hexec _ ((configCheck_of_ranges hs hd hsr hdr).trans (if_pos ⟨hsl, hdc, hsd, hds⟩))

/-! ### BUS_ERROR (60_exceptions R414) -/

/-- An unbacked byte with only backed ones before it is the one the search finds. -/
theorem Params.firstUnbacked_eq_some {p : Params} {a n x : Nat} (ha : a ≤ x) (hn : x < a + n) (hx : p.backs x = false)
    (hfirst : ∀ y, a ≤ y → y < x → p.backs y = true) : p.firstUnbacked a n = some x := by
  cases hfound : p.firstUnbacked a n with
  | none =>
    rw [Params.firstUnbacked_none.1 hfound x ha hn] at hx
    cases hx
  | some y =>
    obtain ⟨hay, _, hy, hbefore⟩ := Params.firstUnbacked_some hfound
    obtain hlt | rfl | hgt := Nat.lt_trichotomy x y
    · simp [hbefore x ha hlt] at hx
    · rfl
    · simp [hfirst y hay hgt] at hy

section
variable {p : Params} {c : Snapshot} {x : Nat} (hx : p.backs x = false)
include hx

theorem busCheck_src (hin : c.inSrc x = true) (hfirst : ∀ a, a < x → c.inSrc a = true → p.backs a = true) :
    busCheck p c = some x := by
  obtain ⟨hlo, hhi⟩ := (c.inSrc_iff x).1 hin
  rw [busCheck, Params.firstUnbacked_eq_some hlo hhi hx]
  exact fun y hy hlt => hfirst y hlt ((c.inSrc_iff y).2 ⟨hy, hlt.trans hhi⟩)

theorem busCheck_dst (hsrc : ∀ a, c.inSrc a = true → p.backs a = true) (hin : c.inDst x = true)
    (hfirst : ∀ a, a < x → c.inDst a = true → p.backs a = true) : busCheck p c = some x := by
  obtain ⟨hlo, hhi⟩ := (c.inDst_iff x).1 hin
  rw [busCheck, Params.firstUnbacked_none.2 fun y hy hlt => hsrc y ((c.inSrc_iff y).2 ⟨hy, hlt⟩)]
  exact Params.firstUnbacked_eq_some hlo hhi hx fun y hy hlt => hfirst y hlt ((c.inDst_iff y).2 ⟨hy, hlt.trans hhi⟩)

end

theorem exec_of_busCheck {i : Instr} {s : State} {c : Snapshot} {x : Nat} (hc : s.seq = .busy c)
    (hlegal : ConfigurationLegal i c) (h : busCheck s.params c = some x) : exec i s = .next (s.withError 4 0x01 x) :=
  exec_of_preCheck (e := ⟨.busError, x⟩) hc (by rw [preCheck, configCheck_of_legal hlegal, h, Option.map_some])

/-- Settles O9: past the configuration checks the search goes through SRC and then DST. -/
theorem busErrorAtFirstUnbackedByte : Obligations.BusErrorAtFirstUnbackedByte := by
  intro i s c x hc hlegal hx hfirst
  refine exec_of_busCheck hc hlegal ?_
  obtain ⟨hin, hbefore⟩ | ⟨hin, hsrc, hbefore⟩ := hfirst
  · exact busCheck_src hx hin hbefore
  · exact busCheck_dst hx hsrc hin hbefore

end Sys2Proof.Machine
end


section
/-! PROOFS. A command that was admitted and ends in an error: of its operation, or for want of room in DST (60_exceptions
R411, R422, 20_memory R90). -/

namespace Sys2Proof.Machine

/-- Settles O10: the failed-operation case of the completion step. -/
theorem operationErrorEntry : Obligations.OperationErrorEntry := fun _ _ _ _ hc ha ho => exec_failedWith hc ha ho

/-- Settles O11: the output-too-long case of the completion step, which scrambles DST only. -/
theorem outputOverflowEntry : Obligations.OutputOverflowEntry := by
  intro i s c out hc ha ho hl
  refine ⟨_, exec_of_busy hc i, ?_⟩
  rw [State.complete_overflow ha ho hl]
  exact ⟨_, _, rfl, fun _ hout => State.read_scrambleDst_of_not_inDst s hout⟩

end Sys2Proof.Machine
end


section
/-! PROOFS. Hard and soft reset: the registers, memory, and accesses while RST is asserted (70_reset_and_hazards R500, R502,
R503, 10_state R35, R63; log 12). -/

namespace Sys2Proof.Machine

/-! ### What a reset of the block leaves alone -/

theorem State.rst_blockReset (s : State) : s.blockReset.rst = s.rst := by
  obtain ⟨_, h⟩ | ⟨c, _, h⟩ := s.blockReset_cases <;> rw [h] <;> rfl

theorem State.params_blockReset (s : State) : s.blockReset.params = s.params := by
  obtain ⟨_, h⟩ | ⟨c, _, h⟩ := s.blockReset_cases <;> rw [h] <;> rfl

theorem State.host_blockReset (s : State) : s.blockReset.host = s.host := by
  obtain ⟨_, h⟩ | ⟨c, _, h⟩ := s.blockReset_cases <;> rw [h] <;> rfl

/-- A reset of an idle block leaves data memory alone (70_reset_and_hazards R500). -/
theorem State.mem_blockReset_of_idle {s : State} (hidle : s.seq = .idle) : s.blockReset.mem = s.mem := by
  rw [State.blockReset, hidle, State.resetRegisters_mem]

/-- A reset of a busy block leaves every byte outside DST alone (70_reset_and_hazards R502), and every byte of SRC
(log 12). -/
theorem State.read_blockReset_of_busy {s : State} {c : Snapshot} {a : Nat} (hc : s.seq = .busy c)
    (ha : c.inDst a = false ∨ c.inSrc a = true) : s.blockReset.mem.read a = s.mem.read a := by
  rw [State.blockReset, hc, State.resetRegisters_mem]
  obtain hdst | hsrc := ha
  · exact State.read_scrambleDst_of_not_inDst s hdst
  · exact State.read_scrambleDst_of_inSrc s hsrc

/-! ### RST (70_reset_and_hazards R500) -/

/-- Reset values do not speak of the level of RST. -/
theorem State.AtReset.withRst {s : State} (h : s.AtReset) (r : Bool) : State.AtReset { s with rst := r } :=
  ⟨h.ctrl, h.status, h.cmd, h.errcode, h.dstLen, h.src, h.dst, h.bounds⟩

theorem State.visible_of_rst {s : State} (h : s.rst = true) : s.visible = s.resetRegisters := if_pos h

/-- Each register reads as right after reset, LZW_DICT_CAP as the platform has it (10_state R32, R51). -/
theorem State.readReg_resetRegisters (s : State) (r : Reg) :
    s.resetRegisters.readReg r = { State.reset with params := s.params }.readReg r := by
  cases r <;> rfl

/-- Settles O18: the assertion is a reset of the block, and under RST the host sees the registers reset. -/
theorem hardReset : Obligations.HardReset := by
  refine ⟨fun s => ⟨_, rfl, rfl, ?_⟩, fun s hrst => ⟨State.hostWrite_of_rst hrst, fun r => ?_⟩⟩
  · have hreset := s.atReset_blockReset.withRst true
    exact ⟨hreset, hreset.irq, s.params_blockReset, s.host_blockReset, State.mem_blockReset_of_idle,
      fun c hc a => State.read_blockReset_of_busy hc⟩
  · rw [State.readOffset, regAt_offset, State.visible_of_rst hrst]
    exact s.readReg_resetRegisters r

/-- Settles O19: the write is a reset of the block. -/
theorem softReset : Obligations.SoftReset := by
  intro s v hrst hsoft
  rw [State.hostWrite_softReset hrst hsoft]
  have hreset := s.atReset_blockReset
  exact ⟨hreset, hreset.irq, hreset.ctrlWord, s.rst_blockReset.trans hrst, s.params_blockReset, s.host_blockReset,
    State.mem_blockReset_of_idle, fun c hc a => State.read_blockReset_of_busy hc⟩

end Sys2Proof.Machine
end


section
/-! PROOFS. Every command completes, and its completion is not delayed forever (60_exceptions R403, 70_reset_and_hazards
R520, R521). -/

namespace Sys2Proof.Machine

/-! ### What a completion reports (10_state R56, 60_exceptions R402, R403) -/

/-- From the flags and error registers as accept leaves them (10_state R55), a completion reports either DONE and no error, or
an error of the table and no output. -/
theorem State.complete_reports {s : State} (hdone : s.done = false) (herr : s.err = false) (hcleared : s.Cleared)
    {bounded : Bool} {op : Operation} {c : Snapshot} {t : State} (ht : s.complete bounded op c = t) :
    (t.done = true ∧ t.err = false ∧ t.errKind = 0 ∧ t.errCode = 0) ∨
      (t.done = false ∧ t.err = true ∧ t.errKind ≠ 0 ∧ legalErrcode t.errKind t.errCode ∧ t.dstLen = 0) := by
  obtain ⟨hkind, hcode, _, _⟩ := hcleared
  subst ht
  obtain ⟨e, _, h⟩ | ⟨_, e, _, h⟩ | ⟨_, out, _, _, h⟩ := s.complete_cases bounded op c <;> rw [h]
  · exact .inr ⟨hdone, rfl, errorName_kind_ne_zero e.name, errorName_legal e.name, rfl⟩
  · exact .inr ⟨hdone, rfl, errorName_kind_ne_zero e.name, errorName_legal e.name, rfl⟩
  · exact .inl ⟨rfl, herr, hkind, hcode⟩

/-- Settles O13: the invariant keeps the flags and error registers of a running command cleared, and accept clears them for
one that is not running yet (log 11). -/
theorem everyCommandCompletes : Obligations.EveryCommandCompletes := by
  intro i s hinv
  cases hseq : s.seq with
  | idle =>
    exact ⟨_, exec_of_idle hseq i, State.complete_seq _ _ _ _, State.complete_reports rfl rfl ⟨rfl, rfl, rfl, rfl⟩ rfl⟩
  | busy c =>
    obtain ⟨hdone, herr, hcleared, _⟩ := hinv.running c hseq
    exact ⟨_, exec_of_busy hseq i, State.complete_seq _ _ _ _, State.complete_reports hdone herr hcleared rfl⟩

/-! ### A host that only reads and polls STATUS (70_reset_and_hazards R521) -/

/-- `op` is a read of STATUS, once or as a POLL (30_encoding R145). -/
def ReadsStatus (p : Params) (op : HostOp) : Prop := op = opRead p .status ∨ ∃ mask, op = .poll mask

/-- While a command runs no read gives its buffers back: the read hands over a value only (20_memory R93). -/
theorem State.hostRead_of_busy {s : State} {c : Snapshot} (hc : s.seq = .busy c) (hrst : s.rst = false) (off : Nat) :
    s.hostRead off = { s with hostData := s.readOffset off } := by
  obtain h | ⟨hidle, _⟩ := s.hostRead_cases off
  · exact h
  · rw [State.visible_of_not_rst hrst, State.busy_of_seq_busy hc] at hidle
    cases hidle

theorem hostAction_opRead (r : Reg) (s : State) : hostAction (opRead s.params r) s = .next (s.hostRead r.offset) := by
  rw [opRead, hostAction, registerOffset_reg]

/-- A STATUS read of a busy block hands over a value, and stays the next action where it is a POLL that misses its mask. -/
theorem hostAction_readsStatus_of_busy {s : State} {c : Snapshot} {op : HostOp} (hc : s.seq = .busy c)
    (hrst : s.rst = false) (hop : ReadsStatus s.params op) :
    ∃ v ops, (ops = s.host ∨ ops = op :: s.host) ∧ hostAction op s = .next { s with hostData := v, host := ops } := by
  have hread := State.hostRead_of_busy hc hrst Reg.status.offset
  obtain rfl | ⟨mask, rfl⟩ := hop
  · exact ⟨_, s.host, .inl rfl, by rw [hostAction_opRead, hread]⟩
  · by_cases hmask : s.readOffset Reg.status.offset &&& mask = 0
    · exact ⟨_, _, .inr rfl, by rw [hostAction_poll_missed hmask, hread]⟩
    · exact ⟨_, s.host, .inl rfl, by rw [hostAction_poll_met hmask, hread]⟩

theorem State.stepsTo_succ {s t : State} (h : step s = .next t) (n : Nat) : s.stepsTo (n + 1) = t.stepsTo n := by
  rw [State.stepsTo, h]

/-- Each action of the host brings the completion one step nearer, and a POLL that stays is one action each time. -/
theorem exists_stepsTo_engineTurn {s : State} {c : Snapshot} (hc : s.seq = .busy c) (hrst : s.rst = false)
    (hhost : ∀ op ∈ s.host, ReadsStatus s.params op) : ∃ n t, s.stepsTo n = some t ∧ t.EngineTurn c := by
  induction hd : s.delay generalizing s with
  | zero => exact ⟨0, s, rfl, hc, hrst, .inl hd⟩
  | succ d ih =>
    cases hops : s.host with
    | nil => exact ⟨0, s, rfl, hc, hrst, .inr hops⟩
    | cons op rest =>
      rw [hops, List.forall_mem_cons] at hhost
      obtain ⟨hop, hrest⟩ := hhost
      have hturn : s.HostTurn op rest := ⟨hops, .inr (.inr (by omega))⟩
      obtain ⟨v, ops, hkept, haction⟩ := hostAction_readsStatus_of_busy (s := s.taken rest) hc hrst hop
      have hleft : ∀ o ∈ ops, ReadsStatus s.params o := by
        obtain rfl | rfl := hkept
        · exact hrest
        · exact List.forall_mem_cons.2 ⟨hop, hrest⟩
      have hnearer : s.delay - 1 = d := by omega
      obtain ⟨n, t, hn, ht⟩ := ih (s := { s.taken rest with hostData := v, host := ops }) hc hrst hleft hnearer
      exact ⟨n + 1, t, (State.stepsTo_succ ((step_of_hostTurn hturn).trans haction) n).trans hn, ht⟩

/-- Settles O32: by induction on the host actions that come before the completion. -/
theorem completionIsNotDelayedForever : Obligations.CompletionIsNotDelayedForever :=
  fun _ _ hc hrst hhost => exists_stepsTo_engineTurn hc hrst hhost

end Sys2Proof.Machine
end
